-- ==== Sys2Proof/Word.lean ====
section
/-! DEFINITION. The two bit-vector types of the machine: the 8-bit memory and register cell, and the 32-bit
address, program counter and float pattern (spec 00_scope.md R8). -/

namespace Sys2Proof

/-- A memory byte or a general register cell (00_scope.md R8: 8 bits). -/
abbrev Byte := BitVec 8

/-- An address, a program counter or a binary32 pattern (00_scope.md R8: 32 bits). -/
abbrev Word := BitVec 32

end Sys2Proof
end

