-- ==== Sys2Proof/Syntax.lean ====
section
/-! DEFINITION. Instructions as syntax: operand descriptors (00_scope.md R17, 30_encoding.md R117) and one constructor
of `Instr` for each row of spec/opcode_table.json (30_encoding.md R122). -/

namespace Sys2Proof

/-- A width of 1 to 4 bytes: of a register chain (10_state.md R32), of a block form's operation (30_encoding.md R121,
WSPEC), or of a constant offset's encoding (R119). -/
inductive Width where
  | w1 | w2 | w3 | w4
  deriving DecidableEq, Repr

/-- The width in bytes. -/
def Width.bytes : Width → Nat
  | .w1 => 1
  | .w2 => 2
  | .w3 => 3
  | .w4 => 4

/-- The type code T of an immediate or memory operand (30_encoding.md R114). -/
inductive TypeCode where
  | int8 | int16 | int24 | int32 | float32
  deriving DecidableEq, Repr

/-- size(T) in bytes (30_encoding.md R114). -/
def TypeCode.size : TypeCode → Nat
  | .int8 => 1
  | .int16 => 2
  | .int24 => 3
  | .int32 => 4
  | .float32 => 4

/-- Whether T names the float domain (30_encoding.md R114). -/
def TypeCode.isFloat : TypeCode → Bool
  | .float32 => true
  | _ => false

/-- The integer type code of a width. -/
def Width.intType : Width → TypeCode
  | .w1 => .int8
  | .w2 => .int16
  | .w3 => .int24
  | .w4 => .int32

/-- A register chain: start index and width (10_state.md R32). The cells wrap past Z to A. -/
structure Chain where
  start : Fin 26
  width : Width
  deriving DecidableEq, Repr

/-- An operand descriptor (30_encoding.md R117). Literals are 32-bit words here; `Operand.wf` bounds them by the field
widths of the reference encoding. -/
inductive Operand where
  /-- RegisterChain(start, width), kind 0x1. -/
  | reg (c : Chain)
  /-- FloatRegister(index), kind 0x2. -/
  | freg (j : Fin 16)
  /-- Immediate(width, value), kind 0x3: the raw pattern at type code `t`. -/
  | imm (t : TypeCode) (raw : Word)
  /-- MemoryAbsolute(addr), kind 0x4. -/
  | mabs (t : TypeCode) (addr : Word)
  /-- MemoryAbsoluteOffset(addr, constant), kinds 0x5 to 0x7: `size` is the offset literal's length. -/
  | mabsOff (t : TypeCode) (addr : Word) (size : Width) (off : Word)
  /-- MemoryAbsoluteOffset(addr, chain), kind 0x8. -/
  | mabsReg (t : TypeCode) (addr : Word) (off : Chain)
  /-- MemoryPointer(chain), kind 0x9. -/
  | mptr (t : TypeCode) (ptr : Chain)
  /-- MemoryPointerOffset(chain, constant), kinds 0xA to 0xC. -/
  | mptrOff (t : TypeCode) (ptr : Chain) (size : Width) (off : Word)
  /-- MemoryPointerOffset(chain, chain), kind 0xD. -/
  | mptrReg (t : TypeCode) (ptr : Chain) (off : Chain)
  deriving DecidableEq, Repr

/-- The instructions: one constructor per opcode of 30_encoding.md R122, operands in slot order. -/
inductive Instr where
  /-- 0x01 `LD d, s` (41_load.md R200). -/
  | ld (d s : Operand)
  /-- 0x02 `CP a, b` (42_compare.md R222). -/
  | cp (a b : Operand)
  /-- 0x03 `SCP a, b` (42_compare.md R227). -/
  | scp (a b : Operand)
  /-- 0x04 `AND d, s` (43_bitwise.md R243). -/
  | and (d s : Operand)
  /-- 0x05 `OR d, s` (43_bitwise.md R244). -/
  | or (d s : Operand)
  /-- 0x06 `XOR d, s` (43_bitwise.md R245). -/
  | xor (d s : Operand)
  /-- 0x07 `NAND d, s` (43_bitwise.md R246). -/
  | nand (d s : Operand)
  /-- 0x08 `NOR d, s` (43_bitwise.md R247). -/
  | nor (d s : Operand)
  /-- 0x09 `XNOR d, s` (43_bitwise.md R248). -/
  | xnor (d s : Operand)
  /-- 0x0A `BIT d, m` (43_bitwise.md R250). -/
  | bit (d m : Operand)
  /-- 0x0B `SL d, k` (44_shift.md R272). -/
  | sl (d k : Operand)
  /-- 0x0C `SL d, k, w` (44_shift.md R275). -/
  | slW (d k : Operand) (w : Width)
  /-- 0x0D `SL d, k, w, n` (44_shift.md R276). -/
  | slWN (d k : Operand) (w : Width) (n : Operand)
  /-- 0x0E `SR d, k` (44_shift.md R278). -/
  | sr (d k : Operand)
  /-- 0x0F `DIV d, s` (45_division.md R294). -/
  | div (d s : Operand)
  /-- 0x10 `DIV d, s, r` (45_division.md R295). -/
  | divR (d s r : Operand)
  /-- 0x11 `DIV d, s, w` (45_division.md R304). -/
  | divW (d s : Operand) (w : Width)
  /-- 0x12 `DIV d, s, w, n` (45_division.md R305). -/
  | divWN (d s : Operand) (w : Width) (n : Operand)
  /-- 0x13 `SDIV d, s` (45_division.md R300). -/
  | sdiv (d s : Operand)
  /-- 0x14 `SDIV d, s, r` (45_division.md R301). -/
  | sdivR (d s r : Operand)
  /-- 0x15 `RGB2HSB d, s` (46_fixed_function.md R321). -/
  | rgb2hsb (d s : Operand)
  /-- 0x16 `BREAK` (40_engine.md R180). -/
  | brk
  deriving DecidableEq, Repr

end Sys2Proof
end

