-- ==== Sys2Proof/Machine/Bytes.lean ====
section
/-! DEFINITION. Byte order and signed reading, said once for register chains, memory and the encoding: `be` and its
inverse (00_scope.md R13), `sext` and the residue (R12). -/

namespace Sys2Proof

/-- `be(b0, …, bk-1) = Σ bi·2^(8(k-1-i))`: a byte sequence read big-endian (00_scope.md R13). -/
def be : List Byte → Nat
  | [] => 0
  | b :: bs => b.toNat * 256 ^ bs.length + be bs

/-- The n bytes of `v mod 2^(8n)`, most significant first (10_state.md R34, 20_memory.md R73). -/
def beBytes : Nat → Nat → List Byte
  | 0, _ => []
  | n + 1, v => BitVec.ofNat 8 (v / 256 ^ n) :: beBytes n v

/-- `sext_n(v)`: the n-bit value v read as two's complement (00_scope.md R12). -/
def sext (n v : Nat) : Int := if v < 2 ^ (n - 1) then (v : Int) else (v : Int) - 2 ^ n

/-- `x mod 2^n`: the least non-negative residue, also of a negative x (00_scope.md R12). -/
def residue (n : Nat) (x : Int) : Nat := (x % (2 ^ n : Int)).toNat

end Sys2Proof
end

