-- ==== Sys2Proof/Machine/Float.lean ====
section
/-! DEFINITION. IEEE-754 binary32 on 32-bit patterns, computed exactly on integers (10_state.md R39, 40_engine.md R176,
R177, R179; 93_implementation_defined.md G1 to G5). Magnitudes are counted in units of 2^-149, the smallest
subnormal. Log 22. -/

namespace Sys2Proof.Machine

/-- The sign bit, bit 31 (10_state.md R39). -/
def f32Neg (b : Word) : Bool := decide (2 ^ 31 ≤ b.toNat)

/-- Bits 30:0: the biased exponent and the fraction. -/
def f32Abs (b : Word) : Nat := b.toNat % 2 ^ 31

/-- The biased exponent, bits 30:23 (10_state.md R39). -/
def f32Exp (b : Word) : Nat := b.toNat / 2 ^ 23 % 256

/-- The fraction, bits 22:0 (10_state.md R39). -/
def f32Frac (b : Word) : Nat := b.toNat % 2 ^ 23

/-- Exponent 255 with nonzero fraction (10_state.md R39). -/
def f32IsNaN (b : Word) : Bool := f32Exp b == 255 && f32Frac b != 0

/-- Exponent 255 with fraction 0 (10_state.md R39). -/
def f32IsInf (b : Word) : Bool := f32Exp b == 255 && f32Frac b == 0

/-- Neither a NaN nor an infinity. -/
def f32IsFinite (b : Word) : Bool := f32Exp b != 255

/-- +0.0 or -0.0. -/
def f32IsZero (b : Word) : Bool := f32Abs b == 0

/-- The magnitude of a finite value in units of 2^-149 (10_state.md R39: bias 127, hidden bit, subnormals). -/
def f32Mag (b : Word) : Nat :=
  if f32Exp b = 0 then f32Frac b else (2 ^ 23 + f32Frac b) * 2 ^ (f32Exp b - 1)

/-- A pattern from a sign and bits 30:0. -/
def f32Pack (neg : Bool) (mag : Nat) : Word := BitVec.ofNat 32 (mag + if neg then 2 ^ 31 else 0)

/-- Bits 30:0 of an infinity. -/
def f32InfMag : Nat := 255 * 2 ^ 23

/-- The integer nearest to n/d, ties to the even one. -/
def roundEven (n d : Nat) : Nat :=
  let q := n / d
  let r := n % d
  if 2 * r < d then q else if 2 * r = d then q + q % 2 else q + 1

/-- The binary32 pattern nearest to the magnitude n/d (in units of 2^-149), ties to an even significand, overflow to
infinity (40_engine.md R176, R179). With `k` the exponent step at which the significand has at most 24 bits, the
pattern's bits 30:0 are `k·2^23` plus the rounded significand: a carry out of the significand moves into the
exponent. -/
def f32Round (neg : Bool) (n d : Nat) : Word :=
  let k := Nat.log2 (n / d) - 23
  f32Pack neg (min (k * 2 ^ 23 + roundEven n (d * 2 ^ k)) f32InfMag)

/-- `I2F(x)`: the nearest binary32 value, ties to even (40_engine.md R176). -/
def i2f (x : Int) : Word := f32Round (decide (x < 0)) (x.natAbs * 2 ^ 149) 1

/-- `trunc` of a finite value: toward zero (00_scope.md R14). -/
def f32Trunc (b : Word) : Int :=
  if f32Neg b then -((f32Mag b / 2 ^ 149 : Nat) : Int) else ((f32Mag b / 2 ^ 149 : Nat) : Int)

/-- The integer of `F2I` where the spec states one: f finite and |trunc(f)| < 2^32 (40_engine.md R177). -/
def f32ToInt? (b : Word) : Option Int :=
  if f32IsFinite b ∧ (f32Trunc b).natAbs < 2 ^ 32 then some (f32Trunc b) else none

/-- The shift count of a float where the spec states one: trunc(f) finite and in [0, 2^32) (40_engine.md R173).
DEDUCED, log 16: a value in (-1, 0) truncates to 0 and counts as stated. -/
def f32ToCount? (b : Word) : Option Nat :=
  if f32IsFinite b ∧ 0 ≤ f32Trunc b ∧ f32Trunc b < 2 ^ 32 then some (f32Trunc b).toNat else none

/-- An integer that orders the values that are not NaN as IEEE-754 does; the two zeros have one key (42_compare.md
R220). -/
def f32Key (b : Word) : Int := if f32Neg b then -(f32Abs b : Int) else (f32Abs b : Int)

/-- Binary32 division by a divisor that is not ±0.0, rounded to nearest, ties to even (40_engine.md R179,
45_division.md R298); none where the result is a NaN, whose pattern is a draw. -/
def f32Div (a b : Word) : Option Word :=
  let neg := f32Neg a != f32Neg b
  if f32IsNaN a || f32IsNaN b then none
  else if f32IsInf a then
    if f32IsInf b then none else some (f32Pack neg f32InfMag)
  else if f32IsInf b then some (f32Pack neg 0)
  else some (f32Round neg (f32Mag a * 2 ^ 149) (f32Mag b))

/-- A NaN pattern from any word: exponent 255, fraction not 0; every NaN pattern is the image of itself (40_engine.md
R179). -/
def f32NaNOf (w : Word) : Word :=
  f32Pack (f32Neg w) (f32InfMag + if f32Frac w = 0 then 1 else f32Frac w)

end Sys2Proof.Machine
end

