-- ==== Sys2Proof/Config.lean ====
section
/-! DEFINITION. What is fixed for the machine and is not state: the open parameter `RGB2HSB_FN`, the free values
(the spec's draws), and the values the model names where the spec leaves a launch parameter open. -/

namespace Sys2Proof.Config

/-- `RGB2HSB_FN : [0, 2^24) → [0, 2^32)` (46_fixed_function.md R320), an open parameter: no body, so no proof can use
any of its values (R324). Log 11. Safe. -/
opaque rgb2hsbFn : BitVec 24 → Word

/-- The n-th draw of a run (00_scope.md R18, 40_engine.md R183): a 32-bit word about which nothing is known. Every
free value of the machine is computed from one draw. DESIGN CHOICE, log 7 and 8. -/
opaque draw : Nat → Word

/-- `MEM_SIZE` of the state after reset: the value the spec's vectors use (00_scope.md R9). DESIGN CHOICE, log 2;
unsafe. The machine itself reads `State.memSize`. -/
def resetMemSize : Nat := 0x01000000

/-- `LOAD_BASE` of the state after reset: the value the spec's vectors use (00_scope.md R9). DESIGN CHOICE, log 3;
unsafe. -/
def resetLoadBase : Word := 0

/-- What a memory byte that nothing has written reads as: the `MEM_INIT` of the spec's vectors (10_state.md R50).
DESIGN CHOICE, log 6; unsafe. -/
def unlistedByte : Byte := 0

/-- The largest `MEM_SIZE` the spec allows (20_memory.md R70). -/
def maxMemSize : Nat := 2 ^ 32

end Sys2Proof.Config
end

