-- ==== Sys2Proof/Machine/Memory.lean ====
section
/-! DEFINITION. Memory (20_memory.md R70) as a list of address and byte pairs in one canonical form, and reading and
writing bytes of it. -/

namespace Sys2Proof.Machine

/-- Memory: (address, byte) pairs. An address that is not listed reads as `Config.unlistedByte` (log 6). -/
abbrev Memory := List Host.Cell

/-- One byte of memory. -/
def Memory.read : Memory → Nat → Byte
  | [], _ => Config.unlistedByte
  | (k, v) :: m, a => if k = a then v else Memory.read m a

/-- Put an entry before a memory whose addresses are all higher, but no entry equal to what an unlisted address reads
as. -/
def Memory.entry (a : Nat) (b : Byte) (m : Memory) : Memory :=
  if b = Config.unlistedByte then m else (a, b) :: m

/-- Write one byte; the canonical form is kept (`Laws/Memory.lean`). -/
def Memory.write : Memory → Nat → Byte → Memory
  | [], a, b => Memory.entry a b []
  | (k, v) :: m, a, b =>
    if a < k then Memory.entry a b ((k, v) :: m)
    else if a = k then Memory.entry a b m
    else (k, v) :: Memory.write m a b

/-- Every listed address is above `lo` or `lo` is none, addresses rise strictly, and no entry is the unlisted byte. -/
def Memory.wfFrom : Option Nat → Memory → Bool
  | _, [] => true
  | lo, (k, v) :: m =>
    (match lo with
      | none => true
      | some l => decide (l < k)) && v != Config.unlistedByte && Memory.wfFrom (some k) m

/-- The canonical form: addresses strictly rising, no entry equal to what an unlisted address reads as. -/
def Memory.wf (m : Memory) : Bool := Memory.wfFrom none m

/-- Every listed address lies in the backing store (20_memory.md R70). -/
def Memory.within (m : Memory) (size : Nat) : Bool := m.all fun c => decide (c.1 < size)

/-- n bytes from an address up. -/
def Memory.readBytes (m : Memory) : Nat → Nat → List Byte
  | _, 0 => []
  | a, n + 1 => m.read a :: m.readBytes (a + 1) n

/-- Write a byte sequence from an address up. -/
def Memory.writeBytes : Memory → Nat → List Byte → Memory
  | m, _, [] => m
  | m, a, b :: bs => Memory.writeBytes (m.write a b) (a + 1) bs

/-- Write single bytes at their addresses, in order: of two at one address the later stays. -/
def Memory.setBytes : Memory → List Host.Cell → Memory
  | m, [] => m
  | m, (a, b) :: cs => Memory.setBytes (m.write a b) cs

end Sys2Proof.Machine
end

