-- ==== Sys2Proof/Machine/State.lean ====
section
/-! DEFINITION. The state of the machine (10_state.md R30), the reasons a step stops, and the state after reset. -/

namespace Sys2Proof.Machine

/-- A fault's cause with the info it records (60_exceptions.md R332). -/
inductive FaultRecord where
  /-- Code 1: an illegal encoding; the address and value of the opcode byte. -/
  | decodeIllegal (pc : Word) (op : Byte)
  /-- Code 2: an access with a byte outside memory; its first address and its size. -/
  | memOutOfRange (pc addr : Word) (n : Nat)
  /-- Code 3: a zero divisor. -/
  | divByZero (pc : Word)
  deriving DecidableEq, Repr

/-- The codes of 60_exceptions.md R332. -/
def FaultRecord.code : FaultRecord → Nat
  | .decodeIllegal _ _ => 1
  | .memOutOfRange _ _ _ => 2
  | .divByZero _ => 3

/-- The `pc` every fault records (60_exceptions.md R332). -/
def FaultRecord.pc : FaultRecord → Word
  | .decodeIllegal pc _ => pc
  | .memOutOfRange pc _ _ => pc
  | .divByZero pc => pc

/-- The engine status (40_engine.md R161). -/
inductive Status where
  | running
  | halted
  | faulted (f : FaultRecord)
  deriving DecidableEq, Repr

/-- The six flags (10_state.md R41); no packed form (R46). -/
structure Flags where
  zero : Bool
  eq : Bool
  gt : Bool
  lt : Bool
  gte : Bool
  lte : Bool
  deriving DecidableEq, Repr

/-- `resetAll()`: all six flags false (10_state.md R51). -/
def Flags.clear : Flags := ⟨false, false, false, false, false, false⟩

/-- The whole state (10_state.md R30). `memSize` is the parameter `MEM_SIZE` (log 2); `draws` is the model's own
(log 7). -/
structure State where
  /-- R: the general registers A..Z (10_state.md R31). -/
  regs : Vector Byte 26
  /-- F: the float registers, as 32-bit patterns (10_state.md R38, R40). -/
  fregs : Vector Word 16
  /-- The flags (10_state.md R41). -/
  flags : Flags
  /-- The program counter (10_state.md R44). -/
  pc : Word
  /-- The engine status (40_engine.md R161). -/
  status : Status
  /-- Mem (20_memory.md R70). -/
  mem : Memory
  /-- `MEM_SIZE`: the bytes of `mem` (20_memory.md R70). -/
  memSize : Nat
  /-- How many draws were taken: the model's own. -/
  draws : Nat
  deriving DecidableEq, Repr

/-- Why `step` answers the outcome `fault`. A fault of the SPEC is not one of these when it is taken: it is a next
state whose status is `faulted` (log 12). -/
inductive Fault where
  /-- Raised by `step` in a Halted state: no step leaves it (40_engine.md R161, R181). Safe. -/
  | halted
  /-- Raised by `step` in a Faulted state, with the record it holds: no step leaves it (40_engine.md R161,
  60_exceptions.md R339). Safe. -/
  | faulted (f : FaultRecord)
  deriving DecidableEq, Repr

/-- Why a step is refused. -/
inductive Refusal where
  /-- Raised by an arm of `exec` for an instruction that has no meaning yet. No arm raises it now. Safe. -/
  | notModelled (mnemonic : String)
  deriving DecidableEq, Repr

/-- The machine right after reset: the launch state (10_state.md R50, 70_reset_and_hazards.md R363). Flags and status
are the spec's; the rest are launch parameters of the spec at the values its vectors use (00_scope.md R9; DESIGN
CHOICE, logs 2 to 7). -/
def State.reset : State where
  regs := Vector.replicate 26 0
  fregs := Vector.replicate 16 0
  flags := Flags.clear
  pc := Config.resetLoadBase
  status := .running
  mem := []
  memSize := Config.resetMemSize
  draws := 0

end Sys2Proof.Machine
end

