-- ==== Sys2Proof/Machine/Flags.lean ====
section
/-! DEFINITION. Every flag computation of the spec (10_state.md R42, R43; 42_compare.md R220, R223). -/

namespace Sys2Proof.Machine

/-- The six flags from the three outcomes of a comparison: GTE = GT ∨ EQ, LTE = LT ∨ EQ, Zero = EQ (42_compare.md
R220). -/
def flagsOf (eq gt lt : Bool) : Flags where
  zero := eq
  eq := eq
  gt := gt
  lt := lt
  gte := gt || eq
  lte := lt || eq

/-- `setFromComparison(x, y)` (42_compare.md R220). -/
def setFromComparison (x y : Int) : Flags := flagsOf (decide (x = y)) (decide (y < x)) (decide (x < y))

/-- The flags of a comparison with a NaN: exactly one of EQ, GT and LT, chosen by a draw (42_compare.md R223). -/
def flagsOfDraw (w : Word) : Flags :=
  flagsOf (decide (w.toNat % 3 = 0)) (decide (w.toNat % 3 = 1)) (decide (w.toNat % 3 = 2))

/-- Set Zero and leave the relational flags (10_state.md R43, 43_bitwise.md R241). -/
def Flags.setZero (f : Flags) (z : Bool) : Flags := { f with zero := z }

/-- The relational invariant (10_state.md R42), as far as it holds before any comparison too: GTE = GT ∨ EQ,
LTE = LT ∨ EQ, and at most one of EQ, GT and LT. -/
def Flags.consistent (f : Flags) : Bool :=
  f.gte == (f.gt || f.eq) && f.lte == (f.lt || f.eq) && !(f.eq && f.gt) && !(f.eq && f.lt) && !(f.gt && f.lt)

/-- Exactly one of EQ, GT and LT holds: the invariant after a comparison (10_state.md R42). -/
def Flags.decided (f : Flags) : Bool := f.consistent && (f.eq || f.gt || f.lt)

end Sys2Proof.Machine
end

