-- ==== Sys2Proof/Machine/Ops.lean ====
section
/-! DEFINITION. The named operations over registers, memory, flags and draws, and taking a fault. Every read or write of
a piece of state goes through here. -/

namespace Sys2Proof.Machine

/-! ### General registers and chains -/

/-- `R[i]` (10_state.md R31). -/
def State.readReg (s : State) (i : Fin 26) : Byte := s.regs.get i

/-- `R[i] <- v` (10_state.md R31). -/
def State.writeReg (s : State) (i : Fin 26) (v : Byte) : State := { s with regs := s.regs.set i v }

/-- The n cells from index i up, wrapping past Z to A (10_state.md R32). -/
def State.readCells (s : State) : Fin 26 → Nat → List Byte
  | _, 0 => []
  | i, n + 1 => s.readReg i :: s.readCells (i + 1) n

/-- Write cells from index i up, wrapping past Z to A (10_state.md R32). -/
def State.writeCells : State → Fin 26 → List Byte → State
  | s, _, [] => s
  | s, i, b :: bs => State.writeCells (s.writeReg i b) (i + 1) bs

/-- `readChain(i, w)` (10_state.md R33). -/
def State.readChain (s : State) (i : Fin 26) (w : Nat) : Nat := be (s.readCells i w)

/-- `writeChain(i, w, v)` (10_state.md R34). -/
def State.writeChain (s : State) (i : Fin 26) (w v : Nat) : State := s.writeCells i (beBytes w v)

/-- The value of a chain operand. -/
def State.chain (s : State) (c : Chain) : Nat := s.readChain c.start c.width.bytes

/-! ### Float registers -/

/-- `getBits(j)` (10_state.md R38). -/
def State.getBits (s : State) (j : Fin 16) : Word := s.fregs.get j

/-- `setBits(j, v)` (10_state.md R38). -/
def State.setBits (s : State) (j : Fin 16) (v : Word) : State := { s with fregs := s.fregs.set j v }

/-! ### Memory -/

/-- Whether an access of n bytes at `a` lies in memory: the mathematical sum, no wrap (20_memory.md R72, R78). -/
def State.inRange (s : State) (a : Word) (n : Nat) : Bool := decide (a.toNat + n ≤ s.memSize)

/-- The value `MemRead(addr, n)` returns for an access in range (20_memory.md R72). -/
def State.load (s : State) (a : Word) (n : Nat) : Nat := be (s.mem.readBytes a.toNat n)

/-- What `MemWrite(addr, n, v)` stores for an access in range (20_memory.md R73). -/
def State.store (s : State) (a : Word) (n v : Nat) : State :=
  { s with mem := s.mem.writeBytes a.toNat (beBytes n v) }

/-- `MemRead(addr, n)` with its bounds check (20_memory.md R72). -/
def State.memRead (s : State) (a : Word) (n : Nat) : Except FaultRecord Nat :=
  if s.inRange a n then .ok (s.load a n) else .error (.memOutOfRange s.pc a n)

/-- `MemWrite(addr, n, v)` with its bounds check (20_memory.md R73). -/
def State.memWrite (s : State) (a : Word) (n v : Nat) : Except FaultRecord State :=
  if s.inRange a n then .ok (s.store a n v) else .error (.memOutOfRange s.pc a n)

/-! ### Flags, pc and draws -/

/-- Write all six flags. -/
def State.setFlags (s : State) (f : Flags) : State := { s with flags := f }

/-- `Zero <- z`, the other five unchanged (10_state.md R43). -/
def State.setZero (s : State) (z : Bool) : State := { s with flags := s.flags.setZero z }

/-- `pc <- (pc + len) mod 2^32` (40_engine.md R167). -/
def State.advance (s : State) (len : Nat) : State := { s with pc := s.pc + BitVec.ofNat 32 len }

/-- Take one draw: a word about which nothing is known, and the state that has taken it (log 7). -/
def State.draw (s : State) : Word × State := (Config.draw s.draws, { s with draws := s.draws + 1 })

/-! ### Ending a run -/

/-- Taking a fault: `raise Fault(cause, info)` (60_exceptions.md R331, R338). It sets `status` and nothing else; pc
keeps the faulting instruction's address. There is no return from it (R339). -/
def State.raiseFault (s : State) (f : FaultRecord) : State := { s with status := .faulted f }

/-- `status <- Halted` (40_engine.md R180). -/
def State.halt (s : State) : State := { s with status := .halted }

/-- An instruction's outcome: its next state, or the fault taken in the state it began in (60_exceptions.md R342). -/
def settle (s : State) (r : Except FaultRecord State) : Host.Outcome State Fault Refusal :=
  match r with
  | .ok t => .next t
  | .error f => .next (s.raiseFault f)

end Sys2Proof.Machine
end

