-- ==== Sys2Proof/WellFormed.lean ====
section
/-! DEFINITION. Well-formedness: which operands the reference encoding can write (30_encoding.md R115, R117 to R119)
and which slot class accepts which descriptor (R121). -/

namespace Sys2Proof

/-- The slot classes that take a descriptor (30_encoding.md R121). The class WSPEC is the field type `Width` of
`Instr`, and is checked by the decoder. -/
inductive SlotClass where
  | loc | any | iloc | isrc | bdest | cnt
  deriving DecidableEq, Repr

/-- A pointer or offset register chain has width 1 to 3 (30_encoding.md R115). -/
def Chain.isPointer (c : Chain) : Bool := c.width != .w4

/-- A constant offset O of 1 to 3 bytes that holds the value (30_encoding.md R119). -/
def offsetFits (size : Width) (off : Word) : Bool :=
  size != .w4 && decide (off.toNat < 256 ^ size.bytes)

/-- An address literal A has 24 bits (30_encoding.md R119). -/
def addrFits (addr : Word) : Bool := decide (addr.toNat < 2 ^ 24)

/-- The operand is one the reference encoding can write (30_encoding.md R117): each literal fits its field, and each
pointer or offset chain has width 1 to 3. -/
def Operand.wf : Operand → Bool
  | .reg _ => true
  | .freg _ => true
  | .imm t raw => decide (raw.toNat < 256 ^ t.size)
  | .mabs _ addr => addrFits addr
  | .mabsOff _ addr size off => addrFits addr && offsetFits size off
  | .mabsReg _ addr off => addrFits addr && off.isPointer
  | .mptr _ ptr => ptr.isPointer
  | .mptrOff _ ptr size off => ptr.isPointer && offsetFits size off
  | .mptrReg _ ptr off => ptr.isPointer && off.isPointer

/-- The operand is an immediate. -/
def Operand.isImm : Operand → Bool
  | .imm _ _ => true
  | _ => false

/-- The operand is in the float domain (40_engine.md R165). -/
def Operand.isFloat : Operand → Bool
  | .reg _ => false
  | .freg _ => true
  | .imm t _ => t.isFloat
  | .mabs t _ => t.isFloat
  | .mabsOff t _ _ _ => t.isFloat
  | .mabsReg t _ _ => t.isFloat
  | .mptr t _ => t.isFloat
  | .mptrOff t _ _ _ => t.isFloat
  | .mptrReg t _ _ => t.isFloat

/-- The operand is a memory operand (kinds 0x4 to 0xD). -/
def Operand.isMem : Operand → Bool
  | .reg _ => false
  | .freg _ => false
  | .imm _ _ => false
  | _ => true

/-- Which descriptors a slot class accepts (30_encoding.md R121, the table's second column). -/
def SlotClass.accepts : SlotClass → Operand → Bool
  | .loc, o => !o.isImm
  | .any, _ => true
  | .iloc, o => !o.isImm && !o.isFloat
  | .isrc, o => !o.isFloat
  | .bdest, o => !o.isImm && !o.isFloat
  | .cnt, o => !o.isMem && !o.isFloat

/-- A well-formed operand in a slot that accepts it. -/
def Operand.fits (o : Operand) (c : SlotClass) : Bool := o.wf && c.accepts o

/-- The instruction is one the reference encoding can write: every operand is well formed and in its slot's class
(30_encoding.md R122). -/
def Instr.wf : Instr → Bool
  | .ld d s => d.fits .loc && s.fits .any
  | .cp a b => a.fits .loc && b.fits .any
  | .scp a b => a.fits .loc && b.fits .any
  | .and d s => d.fits .loc && s.fits .any
  | .or d s => d.fits .loc && s.fits .any
  | .xor d s => d.fits .loc && s.fits .any
  | .nand d s => d.fits .loc && s.fits .any
  | .nor d s => d.fits .loc && s.fits .any
  | .xnor d s => d.fits .loc && s.fits .any
  | .bit d m => d.fits .loc && m.fits .any
  | .sl d k => d.fits .loc && k.fits .any
  | .slW d k _ => d.fits .bdest && k.fits .any
  | .slWN d k _ n => d.fits .bdest && k.fits .any && n.fits .cnt
  | .sr d k => d.fits .loc && k.fits .any
  | .div d s => d.fits .loc && s.fits .any
  | .divR d s r => d.fits .iloc && s.fits .isrc && r.fits .loc
  | .divW d s _ => d.fits .bdest && s.fits .any
  | .divWN d s _ n => d.fits .bdest && s.fits .any && n.fits .cnt
  | .sdiv d s => d.fits .loc && s.fits .any
  | .sdivR d s r => d.fits .iloc && s.fits .isrc && r.fits .loc
  | .rgb2hsb d s => d.fits .loc && s.fits .isrc
  | .brk => true

end Sys2Proof
end

