-- ==== Sys2Proof/Machine/Operands.lean ====
section
/-! DEFINITION. The Operand Resolver and the Location accessors (20_memory.md R85 to R93, 40_engine.md R165 to R177), and
the block/repeat mechanism (R169). -/

namespace Sys2Proof.Machine

/-- A Location (40_engine.md R170). -/
inductive Loc where
  | reg (i : Fin 26) (w : Width)
  | freg (j : Fin 16)
  | mem (ea : Word) (t : TypeCode)
  | imm (t : TypeCode) (raw : Word)
  deriving DecidableEq, Repr

/-- The width in bytes. -/
def Loc.size : Loc → Nat
  | .reg _ w => w.bytes
  | .freg _ => 4
  | .mem _ t => t.size
  | .imm t _ => t.size

/-- The width n in bits (40_engine.md R165). -/
def Loc.bits (l : Loc) : Nat := 8 * l.size

/-- The domain is float (40_engine.md R165). -/
def Loc.isFloat : Loc → Bool
  | .reg _ _ => false
  | .freg _ => true
  | .mem _ t => t.isFloat
  | .imm t _ => t.isFloat

/-- A Location that can be written: not an immediate (40_engine.md R170). -/
def Loc.writable : Loc → Bool
  | .imm _ _ => false
  | _ => true

/-! ### Effective addresses and resolution -/

/-- A chain's value as an address term, zero-extended to 32 bits (20_memory.md R85). -/
def State.chainWord (s : State) (c : Chain) : Word := BitVec.ofNat 32 (s.chain c)

/-- The effective address and the type code of a memory operand: `ea = (base + offset) mod 2^32` (20_memory.md R85 to
R91); none for an operand that is not in memory. -/
def effectiveAddress (s : State) : Operand → Option (Word × TypeCode)
  | .mabs t a => some (a, t)
  | .mabsOff t a _ o => some (a + o, t)
  | .mabsReg t a c => some (a + s.chainWord c, t)
  | .mptr t p => some (s.chainWord p, t)
  | .mptrOff t p _ o => some (s.chainWord p + o, t)
  | .mptrReg t p c => some (s.chainWord p + s.chainWord c, t)
  | .reg _ => none
  | .freg _ => none
  | .imm _ _ => none

/-- A memory Location of type `t` at `ea`, with its bounds check (20_memory.md R93, 60_exceptions.md R334). -/
def resolveMem (s : State) (ea : Word) (t : TypeCode) : Except FaultRecord Loc :=
  if s.inRange ea t.size then .ok (.mem ea t) else .error (.memOutOfRange s.pc ea t.size)

/-- `resolve(descriptor)` (40_engine.md R165). It reads registers and writes nothing (20_memory.md R92). -/
def resolve (s : State) (o : Operand) : Except FaultRecord Loc :=
  match o with
  | .reg c => .ok (.reg c.start c.width)
  | .freg j => .ok (.freg j)
  | .imm t raw => .ok (.imm t raw)
  | o =>
    match effectiveAddress s o with
    | some (ea, t) => resolveMem s ea t
    | none => .ok (.imm .int8 0)

/-- The destination of a block form: the integer Location of `w` bytes at the operand's start, whatever width the
operand was written with (40_engine.md R169, 30_encoding.md R121). An operand outside the class BDEST is resolved as
written; no decoded instruction has one (log 19). -/
def resolveBlock (s : State) (w : Width) (o : Operand) : Except FaultRecord Loc :=
  match o with
  | .reg c => .ok (.reg c.start w)
  | o =>
    match effectiveAddress s o with
    | some (ea, _) => resolveMem s ea w.intType
    | none => resolve s o

/-- Two operands, first operand first (40_engine.md R166, 60_exceptions.md R343). -/
def resolve2 (s : State) (a b : Operand) : Except FaultRecord (Loc × Loc) :=
  match resolve s a with
  | .error f => .error f
  | .ok la =>
    match resolve s b with
    | .error f => .error f
    | .ok lb => .ok (la, lb)

/-- Three operands in slot order. -/
def resolve3 (s : State) (a b c : Operand) : Except FaultRecord (Loc × Loc × Loc) :=
  match resolve2 s a b with
  | .error f => .error f
  | .ok (la, lb) =>
    match resolve s c with
    | .error f => .error f
    | .ok lc => .ok (la, lb, lc)

/-! ### Bit-pattern access -/

/-- `readBits(L)` (40_engine.md R171). -/
def readBits (s : State) : Loc → Nat
  | .reg i w => s.readChain i w.bytes
  | .freg j => (s.getBits j).toNat
  | .mem ea t => s.load ea t.size
  | .imm _ raw => raw.toNat

/-- `writeBits(L, v)` (40_engine.md R174). An immediate is read-only: no decoded instruction writes one (R170,
log 19). -/
def writeBits (s : State) : Loc → Nat → State
  | .reg i w, v => s.writeChain i w.bytes v
  | .freg j, v => s.setBits j (BitVec.ofNat 32 v)
  | .mem ea t, v => s.store ea t.size v
  | .imm _ _, _ => s

/-! ### Numeric access -/

/-- A numeric value: a mathematical integer, or a binary32 value by its pattern (40_engine.md R172). -/
inductive Value where
  | int (x : Int)
  | flt (f : Word)
  deriving DecidableEq, Repr

/-- The integer of an int-domain Location, unsigned or signed at its own width (40_engine.md R172). -/
def readInt (signed : Bool) (s : State) (l : Loc) : Int :=
  if signed then sext l.bits (readBits s l) else (readBits s l : Int)

/-- The 32-bit pattern of a float-domain Location. -/
def readPattern (s : State) (l : Loc) : Word := BitVec.ofNat 32 (readBits s l)

/-- `readNum(L, sgn)` (40_engine.md R172). -/
def readNum (signed : Bool) (s : State) (l : Loc) : Value :=
  if l.isFloat then .flt (readPattern s l) else .int (readInt signed s l)

/-- The binary32 value of an operand of a float-domain comparison or division: an int operand is converted by I2F
(42_compare.md R223, 45_division.md R292). -/
def readFloat (signed : Bool) (s : State) (l : Loc) : Word :=
  if l.isFloat then readPattern s l else i2f (readInt signed s l)

/-- `F2I(f, n)` (40_engine.md R177): stated where f is finite and |trunc(f)| < 2^32, else any n-bit value. -/
def f2i (s : State) (f : Word) (n : Nat) : Nat × State :=
  match f32ToInt? f with
  | some x => (residue n x, s)
  | none => (s.draw.1.toNat % 2 ^ n, s.draw.2)

/-- `readCount(L)` (40_engine.md R173): stated for an int, and for a float whose truncation lies in [0, 2^32); else
any integer in [0, 2^32). -/
def readCount (s : State) (l : Loc) : Nat × State :=
  if l.isFloat then
    match f32ToCount? (readPattern s l) with
    | some k => (k, s)
    | none => (s.draw.1.toNat, s.draw.2)
  else (readBits s l, s)

/-- The pattern `writeNum(L, x)` stores: the table of 40_engine.md R175. -/
def numBits (s : State) (l : Loc) (x : Value) : Nat × State :=
  match x with
  | .int x => (if l.isFloat then (i2f x).toNat else residue l.bits x, s)
  | .flt f => if l.isFloat then (f.toNat, s) else f2i s f l.bits

/-- `writeNum(L, x)` (40_engine.md R175). -/
def writeNum (s : State) (l : Loc) (x : Value) : State :=
  writeBits (numBits s l x).2 l (numBits s l x).1

/-! ### Block and repeat forms -/

/-- One instruction body on a resolved destination and source. -/
abbrev Body := State → Loc → Loc → Except FaultRecord State

/-- `n` iterations of a block form (40_engine.md R169): each resolves the value source afresh, applies the body to the
same destination, and ends the run where either faults, the effects of the earlier iterations staying. The first
iteration's resolution is the one `block` made, and an immediate resolves to itself (log 18). The body reads the source
in every iteration, so a float immediate count outside the range of R173 takes a draw of its own in each (DESIGN CHOICE,
log 25). -/
def blockLoop (body : Body) (dst : Loc) (src : Operand) : Nat → State → State
  | 0, s => s
  | n + 1, s =>
    match resolve s src with
    | .error f => s.raiseFault f
    | .ok x =>
      match body s dst x with
      | .error f => s.raiseFault f
      | .ok t => blockLoop body dst src n t

/-- `block(op, d, s, w, none)`: one application at `w` bytes (40_engine.md R169). -/
def block (body : Body) (d src : Operand) (w : Width) (s : State) : Host.Outcome State Fault Refusal :=
  match resolveBlock s w d with
  | .error f => .next (s.raiseFault f)
  | .ok dst =>
    match resolve s src with
    | .error f => .next (s.raiseFault f)
    | .ok x => settle s (body s dst x)

/-- `block(op, d, s, w, N)`: the destination, the value source and the count are resolved in slot order and the count
is read once; then N iterations (40_engine.md R169). All three are resolved with N = 0 too (DEDUCED, log 21). -/
def blockRepeat (body : Body) (d src : Operand) (w : Width) (cnt : Operand) (s : State) :
    Host.Outcome State Fault Refusal :=
  match resolveBlock s w d with
  | .error f => .next (s.raiseFault f)
  | .ok dst =>
    match resolve2 s src cnt with
    | .error f => .next (s.raiseFault f)
    | .ok (_, c) => .next (blockLoop body dst src (readBits s c) s)

end Sys2Proof.Machine
end

