-- ==== Sys2Proof/Machine/Bitwise.lean ====
section
/-! DEFINITION. AND, OR, XOR, NAND, NOR, XNOR and BIT (43_bitwise.md). -/

namespace Sys2Proof.Machine

/-- `bitwise(op2, d, s)` (43_bitwise.md R240): `op2 n x y` at the destination's width n; Zero from the n-bit result. -/
def bitwise (op2 : Nat → Nat → Nat → Nat) (d x : Operand) (s : State) : Host.Outcome State Fault Refusal :=
  match resolve2 s d x with
  | .error f => .next (s.raiseFault f)
  | .ok (ld, lx) =>
    let n := ld.bits
    let r := op2 n (readBits s ld) (readBits s lx % 2 ^ n) % 2 ^ n
    .next ((writeBits s ld r).setZero (decide (r = 0)))

/-- AND (43_bitwise.md R243). -/
def execAnd (d x : Operand) (s : State) : Host.Outcome State Fault Refusal :=
  bitwise (fun _ a b => a &&& b) d x s

/-- OR (43_bitwise.md R244). -/
def execOr (d x : Operand) (s : State) : Host.Outcome State Fault Refusal :=
  bitwise (fun _ a b => a ||| b) d x s

/-- XOR (43_bitwise.md R245). -/
def execXor (d x : Operand) (s : State) : Host.Outcome State Fault Refusal :=
  bitwise (fun _ a b => a ^^^ b) d x s

/-- NAND: the complement of AND within n bits (43_bitwise.md R246). -/
def execNand (d x : Operand) (s : State) : Host.Outcome State Fault Refusal :=
  bitwise (fun n a b => (2 ^ n - 1) ^^^ (a &&& b)) d x s

/-- NOR (43_bitwise.md R247). -/
def execNor (d x : Operand) (s : State) : Host.Outcome State Fault Refusal :=
  bitwise (fun n a b => (2 ^ n - 1) ^^^ (a ||| b)) d x s

/-- XNOR (43_bitwise.md R248). -/
def execXnor (d x : Operand) (s : State) : Host.Outcome State Fault Refusal :=
  bitwise (fun n a b => (2 ^ n - 1) ^^^ (a ^^^ b)) d x s

/-- BIT: Zero from `d AND mask`, the mask by pattern; nothing written back (43_bitwise.md R250, R251). -/
def execBit (d m : Operand) (s : State) : Host.Outcome State Fault Refusal :=
  match resolve2 s d m with
  | .error f => .next (s.raiseFault f)
  | .ok (ld, lm) => .next (s.setZero (decide (readBits s ld &&& (readBits s lm % 2 ^ ld.bits) = 0)))

end Sys2Proof.Machine
end

