-- ==== Sys2Proof/Machine/Compare.lean ====
section
/-! DEFINITION. CP and SCP (42_compare.md). -/

namespace Sys2Proof.Machine

/-- One operand of an integer comparison: its low m bits, unsigned or as two's complement at m bits (42_compare.md
R221, R222, R227). -/
def compareInt (signed : Bool) (s : State) (l : Loc) (m : Nat) : Int :=
  if signed then sext m (readBits s l % 2 ^ m) else ((readBits s l % 2 ^ m : Nat) : Int)

/-- `compareFloat` on two binary32 values: with a NaN, a draw; else the ordered comparison (42_compare.md R223). -/
def compareFloat (s : State) (fa fb : Word) : State :=
  if f32IsNaN fa || f32IsNaN fb then s.draw.2.setFlags (flagsOfDraw s.draw.1)
  else s.setFlags (setFromComparison (f32Key fa) (f32Key fb))

/-- The comparison shared by CP and SCP (42_compare.md R222, R227). -/
def compareLocs (signed : Bool) (s : State) (a b : Loc) : State :=
  if a.isFloat || b.isFloat then compareFloat s (readFloat signed s a) (readFloat signed s b)
  else
    s.setFlags (setFromComparison (compareInt signed s a (min a.bits b.bits))
      (compareInt signed s b (min a.bits b.bits)))

/-- CP: unsigned compare (42_compare.md R222). -/
def execCp (a b : Operand) (s : State) : Host.Outcome State Fault Refusal :=
  match resolve2 s a b with
  | .error f => .next (s.raiseFault f)
  | .ok (la, lb) => .next (compareLocs false s la lb)

/-- SCP: signed compare (42_compare.md R227). -/
def execScp (a b : Operand) (s : State) : Host.Outcome State Fault Refusal :=
  match resolve2 s a b with
  | .error f => .next (s.raiseFault f)
  | .ok (la, lb) => .next (compareLocs true s la lb)

end Sys2Proof.Machine
end

