-- ==== Sys2Proof/Machine/Divide.lean ====
section
/-! DEFINITION. DIV in its four forms and SDIV in its two (45_division.md). -/

namespace Sys2Proof.Machine

/-- Whether the pattern written to d is zero: 0 for an int, +0.0 or -0.0 for a float (45_division.md R291). -/
def wroteZero (l : Loc) (v : Nat) : Bool :=
  if l.isFloat then f32IsZero (BitVec.ofNat 32 v) else decide (v = 0)

/-- Write a quotient to d and set Zero from the value written (45_division.md R291, R299). -/
def writeQuotient (s : State) (l : Loc) (x : Value) : State :=
  (writeNum s l x).setZero (wroteZero l (numBits s l x).1)

/-- The integer quotient: floor for DIV, truncated toward zero for SDIV (45_division.md R290). -/
def intQuotient (signed : Bool) (x y : Int) : Int := if signed then x.tdiv y else x / y

/-- The binary32 quotient; a NaN's pattern is a draw (40_engine.md R179, 45_division.md R298). -/
def floatQuotient (s : State) (a b : Word) : Word × State :=
  match f32Div a b with
  | some q => (q, s)
  | none => (f32NaNOf s.draw.1, s.draw.2)

/-- `divBody(d, s, sgn)` (45_division.md R299): the state with the quotient written, and the remainder of an integer
division. -/
def divBody (signed : Bool) (s : State) (d x : Loc) : Except FaultRecord (State × Option Int) :=
  if d.isFloat || x.isFloat then
    let fs := readFloat signed s x
    if f32IsZero fs then .error (.divByZero s.pc)
    else
      let q := floatQuotient s (readFloat signed s d) fs
      .ok (writeQuotient q.2 d (.flt q.1), none)
  else
    let a := readInt signed s d
    let b := readInt signed s x
    if b = 0 then .error (.divByZero s.pc)
    else
      let q := intQuotient signed a b
      .ok (writeQuotient s d (.int q), some (a - q * b))

/-- The body without the remainder, as the forms F2, F3W and F4WN use it. -/
def divStep (signed : Bool) : Body := fun s d x =>
  match divBody signed s d x with
  | .error f => .error f
  | .ok (t, _) => .ok t

/-- The form F2 of a division (45_division.md R294, R300). -/
def divide (signed : Bool) (d x : Operand) (s : State) : Host.Outcome State Fault Refusal :=
  match resolve2 s d x with
  | .error f => .next (s.raiseFault f)
  | .ok (ld, lx) => settle s (divStep signed s ld lx)

/-- The form F3R: the quotient is written first, then the remainder (45_division.md R295, R296, R301). Its operand
classes make the division an integer one, so there is a remainder. -/
def divideRem (signed : Bool) (d x r : Operand) (s : State) : Host.Outcome State Fault Refusal :=
  match resolve3 s d x r with
  | .error f => .next (s.raiseFault f)
  | .ok (ld, lx, lr) =>
    match divBody signed s ld lx with
    | .error f => .next (s.raiseFault f)
    | .ok (t, some m) => .next (writeNum t lr (.int m))
    | .ok (t, none) => .next t

/-- DIV (45_division.md R294). -/
def execDiv (d x : Operand) (s : State) : Host.Outcome State Fault Refusal := divide false d x s

/-- DIV with a remainder destination (45_division.md R295). -/
def execDivR (d x r : Operand) (s : State) : Host.Outcome State Fault Refusal := divideRem false d x r s

/-- DIV with a width specifier (45_division.md R304). -/
def execDivW (d x : Operand) (w : Width) (s : State) : Host.Outcome State Fault Refusal :=
  block (divStep false) d x w s

/-- DIV with a width specifier and a repeat count (45_division.md R305, R306). -/
def execDivWN (d x : Operand) (w : Width) (n : Operand) (s : State) : Host.Outcome State Fault Refusal :=
  blockRepeat (divStep false) d x w n s

/-- SDIV (45_division.md R300). -/
def execSdiv (d x : Operand) (s : State) : Host.Outcome State Fault Refusal := divide true d x s

/-- SDIV with a remainder destination (45_division.md R301). -/
def execSdivR (d x r : Operand) (s : State) : Host.Outcome State Fault Refusal := divideRem true d x r s

end Sys2Proof.Machine
end

