-- ==== Sys2Proof/Machine/FixedFunction.lean ====
section
/-! DEFINITION. RGB2HSB (46_fixed_function.md). -/

namespace Sys2Proof.Machine

/-- RGB2HSB: the low 24 bits of s through the open parameter `RGB2HSB_FN`, written to d as a pattern; no flag
(46_fixed_function.md R321 to R323). -/
def execRgb2hsb (d x : Operand) (s : State) : Host.Outcome State Fault Refusal :=
  match resolve2 s d x with
  | .error f => .next (s.raiseFault f)
  | .ok (ld, lx) => .next (writeBits s ld (Config.rgb2hsbFn (BitVec.ofNat 24 (readBits s lx))).toNat)

end Sys2Proof.Machine
end

