-- ==== Sys2Proof/Machine/Load.lean ====
section
/-! DEFINITION. LD (41_load.md). -/

namespace Sys2Proof.Machine

/-- LD: `writeNum(d, readNum(s, unsigned))`; no flag (41_load.md R200, R204). -/
def execLd (d x : Operand) (s : State) : Host.Outcome State Fault Refusal :=
  match resolve2 s d x with
  | .error f => .next (s.raiseFault f)
  | .ok (ld, lx) => .next (writeNum s ld (readNum false s lx))

end Sys2Proof.Machine
end

