-- ==== Sys2Proof/Machine/Shift.lean ====
section
/-! DEFINITION. SL in its three forms and SR (44_shift.md). No shift writes a flag (R273). -/

namespace Sys2Proof.Machine

/-- `shiftL(d, c, n)` with n the destination's width: the count modulo n, zeros in from the right (44_shift.md R270,
R271). -/
def shiftL (s : State) (d c : Loc) : State :=
  let k := (readCount s c).1 % d.bits
  writeBits (readCount s c).2 d (readBits s d * 2 ^ k % 2 ^ d.bits)

/-- `shiftR(d, c, n)`: the count modulo n, zeros in from the top (44_shift.md R270). -/
def shiftR (s : State) (d c : Loc) : State :=
  let k := (readCount s c).1 % d.bits
  writeBits (readCount s c).2 d (readBits s d / 2 ^ k)

/-- The body of SL's block forms; it raises no fault. Each application reads the count (44_shift.md R270; where that is
a draw, in each application its own, log 25). -/
def shiftBody : Body := fun s d c => .ok (shiftL s d c)

/-- SL (44_shift.md R272). -/
def execSl (d c : Operand) (s : State) : Host.Outcome State Fault Refusal :=
  match resolve2 s d c with
  | .error f => .next (s.raiseFault f)
  | .ok (ld, lc) => .next (shiftL s ld lc)

/-- SL with a width specifier (44_shift.md R275). -/
def execSlW (d c : Operand) (w : Width) (s : State) : Host.Outcome State Fault Refusal :=
  block shiftBody d c w s

/-- SL with a width specifier and a repeat count (44_shift.md R276, R277). -/
def execSlWN (d c : Operand) (w : Width) (n : Operand) (s : State) : Host.Outcome State Fault Refusal :=
  blockRepeat shiftBody d c w n s

/-- SR: logical shift right (44_shift.md R278). -/
def execSr (d c : Operand) (s : State) : Host.Outcome State Fault Refusal :=
  match resolve2 s d c with
  | .error f => .next (s.raiseFault f)
  | .ok (ld, lc) => .next (shiftR s ld lc)

end Sys2Proof.Machine
end

