-- ==== Sys2Proof/Machine/System.lean ====
section
/-! DEFINITION. BREAK, the block's only system instruction (40_engine.md R180, 60_exceptions.md R346). -/

namespace Sys2Proof.Machine

/-- BREAK: `status <- Halted`; pc keeps its address (40_engine.md R180). -/
def execBrk (s : State) : Host.Outcome State Fault Refusal := .next s.halt

end Sys2Proof.Machine
end

