-- ==== Sys2Proof/Machine/Dispatch.lean ====
section
/-! DEFINITION. `exec`: one arm per constructor of `Instr`, each one call of its meaning. It executes the instruction
and does not advance pc: the step does (40_engine.md R162, R167; log 14). -/

namespace Sys2Proof.Machine

def exec (i : Instr) (s : State) : Host.Outcome State Fault Refusal :=
  match i with
  | .ld d x => Sys2Proof.Machine.execLd d x s
  | .cp a b => Sys2Proof.Machine.execCp a b s
  | .scp a b => Sys2Proof.Machine.execScp a b s
  | .and d x => Sys2Proof.Machine.execAnd d x s
  | .or d x => Sys2Proof.Machine.execOr d x s
  | .xor d x => Sys2Proof.Machine.execXor d x s
  | .nand d x => Sys2Proof.Machine.execNand d x s
  | .nor d x => Sys2Proof.Machine.execNor d x s
  | .xnor d x => Sys2Proof.Machine.execXnor d x s
  | .bit d m => Sys2Proof.Machine.execBit d m s
  | .sl d k => Sys2Proof.Machine.execSl d k s
  | .slW d k w => Sys2Proof.Machine.execSlW d k w s
  | .slWN d k w n => Sys2Proof.Machine.execSlWN d k w n s
  | .sr d k => Sys2Proof.Machine.execSr d k s
  | .div d x => Sys2Proof.Machine.execDiv d x s
  | .divR d x r => Sys2Proof.Machine.execDivR d x r s
  | .divW d x w => Sys2Proof.Machine.execDivW d x w s
  | .divWN d x w n => Sys2Proof.Machine.execDivWN d x w n s
  | .sdiv d x => Sys2Proof.Machine.execSdiv d x s
  | .sdivR d x r => Sys2Proof.Machine.execSdivR d x r s
  | .rgb2hsb d x => Sys2Proof.Machine.execRgb2hsb d x s
  | .brk => Sys2Proof.Machine.execBrk s

end Sys2Proof.Machine
end

