-- ==== Sys2Proof/Decode.lean ====
section
/-! DEFINITION. The reference encoding (30_encoding.md R110 to R131): a decoder that is total on byte lists and
rejects by name, the encoder beside it, and the host's `decodeTableWord`. -/

namespace Sys2Proof

/-- Why a byte sequence is no instruction. Every constructor but `truncated` is one item of 30_encoding.md R126. -/
inductive DecodeError where
  /-- The bytes end before the instruction does (the next fetch is out of range, R124). -/
  | truncated
  /-- Item 1: an opcode byte not in the opcode map (R131). -/
  | badOpcode
  /-- Item 2: a descriptor kind 0x0, 0xE or 0xF. -/
  | badKind
  /-- Item 3: a REG or FREG descriptor byte with S ≠ 0. -/
  | badSubfield
  /-- Item 4: an IMM or memory descriptor byte with T ≥ 5. -/
  | badTypeCode
  /-- Item 5: a register-reference byte with bit 5 set or an index above 25. -/
  | badRegister
  /-- Item 6: a pointer or offset register-reference byte of width 4. -/
  | badPointerWidth
  /-- Item 7: a float-register byte with J[7:4] ≠ 0. -/
  | badFloatRegister
  /-- Item 8: a descriptor that is not in its slot's class. -/
  | wrongClass
  /-- Item 9: a WSPEC slot that is not exactly 0x30 v with v in 1..4. -/
  | badWidthSpec
  deriving DecidableEq, Repr

/-- What a decoding stage answers: a value and the bytes after it, or the reason it stops. -/
abbrev Decoded (α : Type) := Except DecodeError (α × List Byte)

/-- The next byte. -/
def takeByte : List Byte → Decoded Byte
  | [] => .error .truncated
  | b :: bs => .ok (b, bs)

/-- The next n bytes as one big-endian unsigned value (30_encoding.md R118, R119), fetched one at a time (R124). -/
def takeNum : Nat → List Byte → Decoded Nat
  | 0, bs => .ok (0, bs)
  | n + 1, bs =>
    match takeByte bs with
    | .error e => .error e
    | .ok (b, bs) =>
      match takeNum n bs with
      | .error e => .error e
      | .ok (v, bs) => .ok (b.toNat * 256 ^ n + v, bs)

/-- `B[7:6] = w - 1` (30_encoding.md R115). -/
def widthOfBits : Nat → Width
  | 0 => .w1
  | 1 => .w2
  | 2 => .w3
  | _ => .w4

/-- A register-reference byte (30_encoding.md R115): legal when bit 5 is 0 and the index is at most 25. -/
def chainOfByte (b : Byte) : Except DecodeError Chain :=
  if b.toNat / 32 % 2 = 0 then
    if h : b.toNat % 32 < 26 then
      .ok ⟨⟨b.toNat % 32, h⟩, widthOfBits (b.toNat / 64)⟩
    else .error .badRegister
  else .error .badRegister

/-- The next byte as a register operand (kind 0x1): any width. -/
def takeChain (bs : List Byte) : Decoded Chain :=
  match takeByte bs with
  | .error e => .error e
  | .ok (b, bs) =>
    match chainOfByte b with
    | .error e => .error e
    | .ok c => .ok (c, bs)

/-- The next byte as a pointer or offset register (kinds 0x8 to 0xD): width 1 to 3. -/
def takePointer (bs : List Byte) : Decoded Chain :=
  match takeChain bs with
  | .error e => .error e
  | .ok (c, bs) => if c.isPointer then .ok (c, bs) else .error .badPointerWidth

/-- The next byte as a float register (30_encoding.md R116). -/
def takeFloatReg (bs : List Byte) : Decoded (Fin 16) :=
  match takeByte bs with
  | .error e => .error e
  | .ok (b, bs) => if h : b.toNat < 16 then .ok (⟨b.toNat, h⟩, bs) else .error .badFloatRegister

/-- The type code of a descriptor's S field (30_encoding.md R114). -/
def typeOfBits : Nat → Except DecodeError TypeCode
  | 0 => .ok .int8
  | 1 => .ok .int16
  | 2 => .ok .int24
  | 3 => .ok .int32
  | 4 => .ok .float32
  | _ => .error .badTypeCode

/-- An n-byte literal as a word. -/
def takeWord (n : Nat) (bs : List Byte) : Decoded Word :=
  match takeNum n bs with
  | .error e => .error e
  | .ok (v, bs) => .ok (BitVec.ofNat 32 v, bs)

/-- Kind 0x3 (30_encoding.md R118). -/
def takeImm (t : TypeCode) (bs : List Byte) : Decoded Operand :=
  match takeWord t.size bs with
  | .error e => .error e
  | .ok (v, bs) => .ok (.imm t v, bs)

/-- Kind 0x4: a 3-byte address (30_encoding.md R117). -/
def takeMabs (t : TypeCode) (bs : List Byte) : Decoded Operand :=
  match takeWord 3 bs with
  | .error e => .error e
  | .ok (a, bs) => .ok (.mabs t a, bs)

/-- Kinds 0x5 to 0x7: a 3-byte address and a constant offset of `size` bytes. -/
def takeMabsOff (t : TypeCode) (size : Width) (bs : List Byte) : Decoded Operand :=
  match takeWord 3 bs with
  | .error e => .error e
  | .ok (a, bs) =>
    match takeWord size.bytes bs with
    | .error e => .error e
    | .ok (o, bs) => .ok (.mabsOff t a size o, bs)

/-- Kind 0x8: a 3-byte address and an offset register. -/
def takeMabsReg (t : TypeCode) (bs : List Byte) : Decoded Operand :=
  match takeWord 3 bs with
  | .error e => .error e
  | .ok (a, bs) =>
    match takePointer bs with
    | .error e => .error e
    | .ok (c, bs) => .ok (.mabsReg t a c, bs)

/-- Kind 0x9: a pointer register. -/
def takeMptr (t : TypeCode) (bs : List Byte) : Decoded Operand :=
  match takePointer bs with
  | .error e => .error e
  | .ok (p, bs) => .ok (.mptr t p, bs)

/-- Kinds 0xA to 0xC: a pointer register and a constant offset of `size` bytes. The register byte is checked before
the offset's bytes are fetched: byte order of the faults (60_exceptions.md R343). DEDUCED, log 15. -/
def takeMptrOff (t : TypeCode) (size : Width) (bs : List Byte) : Decoded Operand :=
  match takePointer bs with
  | .error e => .error e
  | .ok (p, bs) =>
    match takeWord size.bytes bs with
    | .error e => .error e
    | .ok (o, bs) => .ok (.mptrOff t p size o, bs)

/-- Kind 0xD: a pointer register and an offset register. DEDUCED, log 15. -/
def takeMptrReg (t : TypeCode) (bs : List Byte) : Decoded Operand :=
  match takePointer bs with
  | .error e => .error e
  | .ok (p, bs) =>
    match takePointer bs with
    | .error e => .error e
    | .ok (c, bs) => .ok (.mptrReg t p c, bs)

/-- The payload of a descriptor of kind K = 0x3 to 0xD with type code T (30_encoding.md R117). -/
def takeTyped (k : Nat) (t : TypeCode) (bs : List Byte) : Decoded Operand :=
  match k with
  | 0x3 => takeImm t bs
  | 0x4 => takeMabs t bs
  | 0x5 => takeMabsOff t .w1 bs
  | 0x6 => takeMabsOff t .w2 bs
  | 0x7 => takeMabsOff t .w3 bs
  | 0x8 => takeMabsReg t bs
  | 0x9 => takeMptr t bs
  | 0xA => takeMptrOff t .w1 bs
  | 0xB => takeMptrOff t .w2 bs
  | 0xC => takeMptrOff t .w3 bs
  | 0xD => takeMptrReg t bs
  | _ => .error .badKind

/-- The payload after a descriptor byte with fields K and S, with R124's checks in its order. -/
def takePayload (k sub : Nat) (bs : List Byte) : Decoded Operand :=
  if k = 0 ∨ 14 ≤ k then .error .badKind
  else if k = 1 then
    if sub = 0 then
      match takeChain bs with
      | .error e => .error e
      | .ok (c, bs) => .ok (.reg c, bs)
    else .error .badSubfield
  else if k = 2 then
    if sub = 0 then
      match takeFloatReg bs with
      | .error e => .error e
      | .ok (j, bs) => .ok (.freg j, bs)
    else .error .badSubfield
  else
    match typeOfBits sub with
    | .error e => .error e
    | .ok t => takeTyped k t bs

/-- One operand descriptor: `K = D[7:4]`, `S = D[3:0]`, then the payload (30_encoding.md R113, R117, R124). -/
def takeOperand (bs : List Byte) : Decoded Operand :=
  match takeByte bs with
  | .error e => .error e
  | .ok (d, bs) => takePayload (d.toNat / 16) (d.toNat % 16) bs

/-- One slot: a descriptor, then the check against the slot's class (30_encoding.md R121, R124). -/
def takeSlot (c : SlotClass) (bs : List Byte) : Decoded Operand :=
  match takeOperand bs with
  | .error e => .error e
  | .ok (o, bs) => if c.accepts o then .ok (o, bs) else .error .wrongClass

/-- The width a WSPEC value names: 1, 2, 3 or 4 (30_encoding.md R121). -/
def widthOfSpec : Nat → Option Width
  | 1 => some .w1
  | 2 => some .w2
  | 3 => some .w3
  | 4 => some .w4
  | _ => none

/-- The width specifier an operand stands for: exactly an int8 immediate with value 1 to 4 (30_encoding.md R121). -/
def specOfOperand : Operand → Option Width
  | .imm .int8 v => widthOfSpec v.toNat
  | _ => none

/-- A WSPEC slot: a descriptor, and the class check after its payload (30_encoding.md R121, R126 item 9). -/
def takeSpec (bs : List Byte) : Decoded Width :=
  match takeOperand bs with
  | .error e => .error e
  | .ok (o, bs) =>
    match specOfOperand o with
    | some w => .ok (w, bs)
    | none => .error .badWidthSpec

/-- Format F2: two descriptors (30_encoding.md R122). -/
def takeF2 (mk : Operand → Operand → Instr) (c1 c2 : SlotClass) (bs : List Byte) : Decoded Instr :=
  match takeSlot c1 bs with
  | .error e => .error e
  | .ok (a, bs) =>
    match takeSlot c2 bs with
    | .error e => .error e
    | .ok (b, bs) => .ok (mk a b, bs)

/-- Format F3R: two descriptors and a remainder Location. -/
def takeF3R (mk : Operand → Operand → Operand → Instr) (bs : List Byte) : Decoded Instr :=
  match takeSlot .iloc bs with
  | .error e => .error e
  | .ok (a, bs) =>
    match takeSlot .isrc bs with
    | .error e => .error e
    | .ok (b, bs) =>
      match takeSlot .loc bs with
      | .error e => .error e
      | .ok (c, bs) => .ok (mk a b c, bs)

/-- Format F3W: block destination, value source, width specifier. -/
def takeF3W (mk : Operand → Operand → Width → Instr) (bs : List Byte) : Decoded Instr :=
  match takeSlot .bdest bs with
  | .error e => .error e
  | .ok (a, bs) =>
    match takeSlot .any bs with
    | .error e => .error e
    | .ok (b, bs) =>
      match takeSpec bs with
      | .error e => .error e
      | .ok (w, bs) => .ok (mk a b w, bs)

/-- Format F4WN: as F3W, and a repeat count. -/
def takeF4WN (mk : Operand → Operand → Width → Operand → Instr) (bs : List Byte) : Decoded Instr :=
  match takeSlot .bdest bs with
  | .error e => .error e
  | .ok (a, bs) =>
    match takeSlot .any bs with
    | .error e => .error e
    | .ok (b, bs) =>
      match takeSpec bs with
      | .error e => .error e
      | .ok (w, bs) =>
        match takeSlot .cnt bs with
        | .error e => .error e
        | .ok (n, bs) => .ok (mk a b w n, bs)

/-- The operands after the opcode byte `op`: the opcode map (30_encoding.md R122). -/
def takeOperands (op : Nat) (bs : List Byte) : Decoded Instr :=
  match op with
  | 0x01 => takeF2 .ld .loc .any bs
  | 0x02 => takeF2 .cp .loc .any bs
  | 0x03 => takeF2 .scp .loc .any bs
  | 0x04 => takeF2 .and .loc .any bs
  | 0x05 => takeF2 .or .loc .any bs
  | 0x06 => takeF2 .xor .loc .any bs
  | 0x07 => takeF2 .nand .loc .any bs
  | 0x08 => takeF2 .nor .loc .any bs
  | 0x09 => takeF2 .xnor .loc .any bs
  | 0x0A => takeF2 .bit .loc .any bs
  | 0x0B => takeF2 .sl .loc .any bs
  | 0x0C => takeF3W .slW bs
  | 0x0D => takeF4WN .slWN bs
  | 0x0E => takeF2 .sr .loc .any bs
  | 0x0F => takeF2 .div .loc .any bs
  | 0x10 => takeF3R .divR bs
  | 0x11 => takeF3W .divW bs
  | 0x12 => takeF4WN .divWN bs
  | 0x13 => takeF2 .sdiv .loc .any bs
  | 0x14 => takeF3R .sdivR bs
  | 0x15 => takeF2 .rgb2hsb .loc .isrc bs
  | 0x16 => .ok (.brk, bs)
  | _ => .error .badOpcode

/-- Decoding (30_encoding.md R124): the instruction at the head of the bytes and the bytes after it, or the first
thing, in address order, that is wrong. -/
def decode (bs : List Byte) : Decoded Instr :=
  match takeByte bs with
  | .error e => .error e
  | .ok (op, bs) => takeOperands op.toNat bs

/-! ### The encoder -/

/-- `w - 1`, the field B[7:6] (30_encoding.md R115). -/
def Width.bits : Width → Nat
  | .w1 => 0
  | .w2 => 1
  | .w3 => 2
  | .w4 => 3

/-- The S field of a type code (30_encoding.md R114). -/
def TypeCode.bits : TypeCode → Nat
  | .int8 => 0
  | .int16 => 1
  | .int24 => 2
  | .int32 => 3
  | .float32 => 4

/-- A descriptor byte `D = K·16 + S` (30_encoding.md R113, R120). -/
def descByte (k sub : Nat) : Byte := BitVec.ofNat 8 (k * 16 + sub)

/-- The register-reference byte of a chain (30_encoding.md R115). -/
def Chain.byte (c : Chain) : Byte := BitVec.ofNat 8 (c.width.bits * 64 + c.start.val)

/-- The kind of a memory operand with a constant offset of the given length, `base` being the kind of a 1-byte
offset (30_encoding.md R117). -/
def offsetKind (base : Nat) (size : Width) : Nat := base + size.bits

/-- The bytes of one descriptor (30_encoding.md R111, R117). -/
def encodeOperand : Operand → List Byte
  | .reg c => [descByte 0x1 0, c.byte]
  | .freg j => [descByte 0x2 0, BitVec.ofNat 8 j.val]
  | .imm t raw => descByte 0x3 t.bits :: beBytes t.size raw.toNat
  | .mabs t a => descByte 0x4 t.bits :: beBytes 3 a.toNat
  | .mabsOff t a n o => descByte (offsetKind 0x5 n) t.bits :: (beBytes 3 a.toNat ++ beBytes n.bytes o.toNat)
  | .mabsReg t a c => descByte 0x8 t.bits :: (beBytes 3 a.toNat ++ [c.byte])
  | .mptr t p => [descByte 0x9 t.bits, p.byte]
  | .mptrOff t p n o => descByte (offsetKind 0xA n) t.bits :: p.byte :: beBytes n.bytes o.toNat
  | .mptrReg t p c => [descByte 0xD t.bits, p.byte, c.byte]

/-- The two bytes of a width specifier: 0x30 v (30_encoding.md R121). -/
def encodeSpec (w : Width) : List Byte := [descByte 0x3 0, BitVec.ofNat 8 w.bytes]

/-- The opcode byte (30_encoding.md R122). -/
def Instr.opcode : Instr → Byte
  | .ld _ _ => 0x01
  | .cp _ _ => 0x02
  | .scp _ _ => 0x03
  | .and _ _ => 0x04
  | .or _ _ => 0x05
  | .xor _ _ => 0x06
  | .nand _ _ => 0x07
  | .nor _ _ => 0x08
  | .xnor _ _ => 0x09
  | .bit _ _ => 0x0A
  | .sl _ _ => 0x0B
  | .slW _ _ _ => 0x0C
  | .slWN _ _ _ _ => 0x0D
  | .sr _ _ => 0x0E
  | .div _ _ => 0x0F
  | .divR _ _ _ => 0x10
  | .divW _ _ _ => 0x11
  | .divWN _ _ _ _ => 0x12
  | .sdiv _ _ => 0x13
  | .sdivR _ _ _ => 0x14
  | .rgb2hsb _ _ => 0x15
  | .brk => 0x16

/-- The operand bytes, one descriptor per operand in slot order (30_encoding.md R110, R111). -/
def Instr.operandBytes : Instr → List Byte
  | .ld a b | .cp a b | .scp a b | .and a b | .or a b | .xor a b | .nand a b | .nor a b | .xnor a b | .bit a b
  | .sl a b | .sr a b | .div a b | .sdiv a b | .rgb2hsb a b => encodeOperand a ++ encodeOperand b
  | .divR a b c | .sdivR a b c => encodeOperand a ++ (encodeOperand b ++ encodeOperand c)
  | .slW a b w | .divW a b w => encodeOperand a ++ (encodeOperand b ++ encodeSpec w)
  | .slWN a b w n | .divWN a b w n => encodeOperand a ++ (encodeOperand b ++ (encodeSpec w ++ encodeOperand n))
  | .brk => []

/-- The encoding of a well-formed instruction (30_encoding.md R111). -/
def encode (i : Instr) : List Byte := i.opcode :: i.operandBytes

/-! ### Lengths -/

/-- The length of a descriptor in bytes (30_encoding.md R117, the table's last column). -/
def Operand.length : Operand → Nat
  | .reg _ => 2
  | .freg _ => 2
  | .imm t _ => 1 + t.size
  | .mabs _ _ => 4
  | .mabsOff _ _ n _ => 4 + n.bytes
  | .mabsReg _ _ _ => 5
  | .mptr _ _ => 2
  | .mptrOff _ _ n _ => 2 + n.bytes
  | .mptrReg _ _ _ => 3

/-- `length = 1 + Σ (1 + payloadLen)` (30_encoding.md R111, R125). -/
def Instr.length : Instr → Nat
  | .ld a b | .cp a b | .scp a b | .and a b | .or a b | .xor a b | .nand a b | .nor a b | .xnor a b | .bit a b
  | .sl a b | .sr a b | .div a b | .sdiv a b | .rgb2hsb a b => 1 + a.length + b.length
  | .divR a b c | .sdivR a b c => 1 + a.length + b.length + c.length
  | .slW a b _ | .divW a b _ => 1 + a.length + b.length + 2
  | .slWN a b _ n | .divWN a b _ n => 1 + a.length + b.length + 2 + n.length
  | .brk => 1

/-- The longest instruction of the reference encoding: `DIV d, s, r` with three descriptors of 7 bytes, or
`DIV d, s, w, n` with 7 + 7 + 2 + 5 (30_encoding.md R117, R122). -/
def maxLength : Nat := 22

/-- The most bytes the reference decoder reads before it accepts or rejects: 1 + 7 + 7 + 2 + 7, where a CNT slot holds
a memory descriptor of 7 bytes, which is rejected only after its payload (30_encoding.md R121, R124, R126 item 8). -/
def fetchLimit : Nat := 24

/-- The decoder as an argument (00_scope.md R7, 30_encoding.md R130): how many bytes it may read, and its reading of a
byte sequence. `REPO_ENCODING` is a value of this type. Log 1. -/
structure Encoding where
  window : Nat
  decode : List Byte → Decoded Instr

/-- The reference encoding (30_encoding.md R111). -/
def referenceEncoding : Encoding := ⟨fetchLimit, decode⟩

/-! ### The host's reading of a table word -/

/-- Byte k of an instruction is bits 8k+7 to 8k of `w`; bits from `nbits` up are 0; `fetchLimit` bytes in
all. -/
def tableBytes (nbits w : Nat) : List Byte :=
  (List.range fetchLimit).map fun k => BitVec.ofNat 8 (w % 2 ^ nbits / 256 ^ k)

/-- The instruction the decoder reads from a table word. -/
def decodeTableWord (nbits w : Nat) : Option Instr :=
  match decode (tableBytes nbits w) with
  | .ok (i, _) => some i
  | .error _ => none

end Sys2Proof
end

