-- ==== Sys2Proof/Machine/Fetch.lean ====
section
/-! DEFINITION. Fetching and decoding the instruction at pc (40_engine.md R163, R164; 30_encoding.md R124), and placing
an instruction there. -/

namespace Sys2Proof.Machine

/-- `fetchByte(a) = MemRead(a, 1)` (40_engine.md R163). -/
def fetchByte (s : State) (a : Word) : Except FaultRecord Byte :=
  if s.inRange a 1 then .ok (s.mem.read a.toNat) else .error (.memOutOfRange s.pc a 1)

/-- The bytes from address `a` up (modulo 2^32, R124), at most n, up to the first that cannot be fetched. -/
def fetchFrom (s : State) (a : Word) : Nat → List Byte
  | 0 => []
  | n + 1 =>
    match fetchByte s a with
    | .error _ => []
    | .ok b => b :: fetchFrom s (a + 1) n

/-- Fetch and decode with a given encoding (30_encoding.md R124): the instruction at pc and its length, or the first
fault in address order (60_exceptions.md R343). Reads have no side effect (20_memory.md R82), so the bytes are fetched
ahead of the decoder; where it needs more bytes than could be fetched, the fault is that of the first byte that could
not (log 17). `info.op` is the opcode byte (60_exceptions.md R333). -/
def fetchDecodeWith (e : Encoding) (s : State) : Except FaultRecord (Instr × Nat) :=
  let w := fetchFrom s s.pc e.window
  match e.decode w with
  | .ok (i, rest) => .ok (i, w.length - rest.length)
  | .error .truncated => .error (.memOutOfRange s.pc (s.pc + BitVec.ofNat 32 w.length) 1)
  | .error _ => .error (.decodeIllegal s.pc (w.headD 0))

/-- Fetch and decode in the reference encoding. -/
def fetchDecode (s : State) : Except FaultRecord (Instr × Nat) := fetchDecodeWith referenceEncoding s

/-- The advance phase (40_engine.md R162, R167): pc moves past an instruction that left the engine Running; a BREAK
and a fault keep it (R180, 60_exceptions.md R331). -/
def advancePhase (len : Nat) (o : Host.Outcome State Fault Refusal) : Host.Outcome State Fault Refusal :=
  match o with
  | .next t => if t.status = .running then .next (t.advance len) else .next t
  | .fault r => .fault r
  | .refused r => .refused r

/-- The state with bytes stored from address `a` up, modulo 2^32, those outside memory dropped. The spec states no
result for a load that does not fit (70_reset_and_hazards.md R370); dropping and wrapping are the model's choice (DESIGN
CHOICE, log 27). -/
def State.placeBytes : State → Word → List Byte → State
  | s, _, [] => s
  | s, a, b :: bs =>
    State.placeBytes (if s.inRange a 1 then { s with mem := s.mem.write a.toNat b } else s) (a + 1) bs

end Sys2Proof.Machine
end

