-- ==== Sys2Proof/Machine/Step.lean ====
section
/-! DEFINITION. The step (40_engine.md R160, R162). -/

namespace Sys2Proof.Machine

/-- One step with a given encoding (00_scope.md R7, 30_encoding.md R130): taken only when Running; fetch and decode,
execute (which resolves first), advance. A fetch or decode fault is taken in the unchanged state (40_engine.md
R164). -/
def stepWith (e : Encoding) (s : State) : Host.Outcome State Fault Refusal :=
  match s.status with
  | .halted => .fault .halted
  | .faulted f => .fault (.faulted f)
  | .running =>
    match fetchDecodeWith e s with
    | .error f => .next (s.raiseFault f)
    | .ok (i, len) => advancePhase len (exec i s)

/-- One step in the reference encoding. -/
def step (s : State) : Host.Outcome State Fault Refusal := stepWith referenceEncoding s

/-- The state with a table word's instruction stored at pc and the engine Running: the host's load of one instruction
(70_reset_and_hazards.md R361, R362; log 20). Bytes that do not fit above pc are dropped or wrap modulo 2^32, where R370
states no result (DESIGN CHOICE, log 27). -/
def State.withFetchWord (s : State) (nbits w : Nat) : State :=
  { s.placeBytes s.pc (tableBytes nbits w) with status := .running }

end Sys2Proof.Machine
end

