-- ==== Sys2Proof/Machine/Launch.lean ====
section
/-! DEFINITION. The host's operations around a run: load, start, and the launch state of every choice of the launch
parameters (70_reset_and_hazards.md R361 to R370, 10_state.md R50). -/

namespace Sys2Proof.Machine

/-- load(bytes, base): the bytes written from `base` up; none where they do not fit, which is outside the block
(70_reset_and_hazards.md R361, R370). -/
def hostLoad (s : State) (base : Word) (bytes : List Byte) : Option State :=
  if base.toNat + bytes.length ≤ s.memSize then some { s with mem := s.mem.writeBytes base.toNat bytes } else none

/-- set memory: single bytes set by the host (70_reset_and_hazards.md R364 step 3, R367); none where one lies outside
memory, which has no such byte (20_memory.md R70, log 24). -/
def hostSetBytes (s : State) (cells : List Host.Cell) : Option State :=
  if cells.all (fun c => decide (c.1 < s.memSize)) then some { s with mem := s.mem.setBytes cells } else none

/-- The start of `run()`: `resetAll()`, pc at the load base, Running; everything else as the host left it
(70_reset_and_hazards.md R362, R364; for a second run R366). -/
def startRun (s : State) (base : Word) : State :=
  { s with flags := Flags.clear, pc := base, status := .running }

/-- The launch parameters (00_scope.md R9, 10_state.md R50), with the program's bytes and the bytes the host sets beside
it. -/
structure LaunchParams where
  memSize : Nat
  loadBase : Word
  regInit : Vector Byte 26
  fregInit : Vector Word 16
  /-- What the memory holds when the host provides it (70_reset_and_hazards.md R364, step 1). -/
  memInit : Memory
  /-- The program's bytes (R364, step 2). -/
  program : List Byte
  /-- The memory bytes the host sets for the run, in order (R364, step 3). -/
  setBytes : List Host.Cell
  deriving DecidableEq, Repr

/-- The memory the host provides, and the registers and float registers as it sets them; neither the load nor a set
byte reads or writes a register (70_reset_and_hazards.md R364, steps 1 and 3). The spec gives flags, pc and status no
value before the run starts (R360, R363; 10_state.md R50); false, 0 and Halted are the model's (DESIGN CHOICE, log 28),
and `startRun` overwrites all three. -/
def LaunchParams.prepared (p : LaunchParams) : State where
  regs := p.regInit
  fregs := p.fregInit
  flags := Flags.clear
  pc := 0
  status := .halted
  mem := p.memInit
  memSize := p.memSize
  draws := 0

/-- Steps 1 to 3 of the boot order: the program loaded, then the host's bytes set. In whichever order the host takes
steps 2 and 3, a byte it sets inside the program replaces the program's (70_reset_and_hazards.md R364), so the bytes set
come after the load. None where the program or a byte set does not fit (R370, log 24). -/
def hostPrepare (p : LaunchParams) : Option State :=
  match hostLoad p.prepared p.loadBase p.program with
  | none => none
  | some s => hostSetBytes s p.setBytes

/-- The launch state: what the host prepares, and the run started (70_reset_and_hazards.md R363, R364). -/
def launch (p : LaunchParams) : Option State :=
  match hostPrepare p with
  | none => none
  | some s => some (startRun s p.loadBase)

/-- The vectors' launch parameters with no program: those of `State.reset` (00_scope.md R9). -/
def LaunchParams.default : LaunchParams where
  memSize := Config.resetMemSize
  loadBase := Config.resetLoadBase
  regInit := Vector.replicate 26 0
  fregInit := Vector.replicate 16 0
  memInit := []
  program := []
  setBytes := []

end Sys2Proof.Machine
end

