-- ==== Sys2Proof/Machine/Run.lean ====
section
/-! DEFINITION. `run()`: from its start until the engine is no longer Running (70_reset_and_hazards.md R362, R364,
R367; 40_engine.md R182). A run need not end, so it is given how many steps it may take (log 26). -/

namespace Sys2Proof.Machine

/-- `run()`'s loop with a given encoding: at most n steps, none once `status ≠ Running` (70_reset_and_hazards.md R362).
A step of a Running state always answers a next state (R376). -/
def stepsWith (e : Encoding) : Nat → State → State
  | 0, s => s
  | n + 1, s =>
    if s.status = .running then
      match stepWith e s with
      | .next t => stepsWith e n t
      | .fault _ => s
      | .refused _ => s
    else s

/-- `run()` with a given encoding, on the state the host has prepared: the start, then the loop; its result is the end
state, and none where the run does not end within n steps (70_reset_and_hazards.md R362, R369). -/
def runWith (e : Encoding) (n : Nat) (s : State) (base : Word) : Option State :=
  let t := stepsWith e n (startRun s base)
  if t.status = .running then none else some t

/-- `run()` in the reference encoding; also a second one, on the state the host leaves (70_reset_and_hazards.md R366). -/
def run (n : Nat) (s : State) (base : Word) : Option State := runWith referenceEncoding n s base

/-- The whole boot order, steps 1 to 4: what the host prepares, then `run()` (70_reset_and_hazards.md R364). -/
def bootWith (e : Encoding) (n : Nat) (p : LaunchParams) : Option State :=
  match hostPrepare p with
  | none => none
  | some s => runWith e n s p.loadBase

/-- The boot order in the reference encoding. -/
def boot (n : Nat) (p : LaunchParams) : Option State := bootWith referenceEncoding n p

end Sys2Proof.Machine
end

