-- ==== Sys2Proof/Safety.lean ====
section
/-! DEFINITION. The terms claims are stated in: how a run ends, the machine's invariant, and what a Location owns. -/

namespace Sys2Proof.Machine

/-- The run has ended (40_engine.md R182). -/
def State.ended (s : State) : Prop := s.status ≠ .running

/-- The run ended in success: Halted (40_engine.md R182). -/
def State.succeeded (s : State) : Prop := s.status = .halted

/-- The run ended in failure: Faulted (40_engine.md R182). -/
def State.failed (s : State) : Prop := ∃ f, s.status = .faulted f

/-- A recorded fault carries the address of the instruction at pc (60_exceptions.md R331, R332). -/
def State.faultAtPc (s : State) : Prop := ∀ f, s.status = .faulted f → f.pc = s.pc

/-- The machine's invariant: memory in its canonical form and inside the backing store (20_memory.md R70), `MEM_SIZE`
in its range (R70), the relational flags consistent (10_state.md R42), and a fault recorded at pc. -/
structure State.Inv (s : State) : Prop where
  memCanonical : s.mem.wf = true
  memWithin : s.mem.within s.memSize = true
  sizeRange : 1 ≤ s.memSize ∧ s.memSize ≤ Config.maxMemSize
  flagsConsistent : s.flags.consistent = true
  faultAtPc : s.faultAtPc

/-- The general register cells of a Location (10_state.md R32). -/
def Loc.ownsReg : Loc → Fin 26 → Prop
  | .reg i w, r => ∃ k, k < w.bytes ∧ r.val = (i.val + k) % 26
  | _, _ => False

/-- The float register of a Location. -/
def Loc.ownsFreg : Loc → Fin 16 → Prop
  | .freg j, k => k = j
  | _, _ => False

/-- The memory bytes of a Location: `[ea, ea + size(T))` (20_memory.md R93). -/
def Loc.ownsByte : Loc → Nat → Prop
  | .mem ea t, a => ea.toNat ≤ a ∧ a < ea.toNat + t.size
  | _, _ => False

/-- The Locations share no register cell, float register or memory byte. -/
def Loc.Disjoint (l m : Loc) : Prop :=
  (∀ r, ¬(l.ownsReg r ∧ m.ownsReg r)) ∧ (∀ j, ¬(l.ownsFreg j ∧ m.ownsFreg j)) ∧ ∀ a, ¬(l.ownsByte a ∧ m.ownsByte a)

/-- A Location whose bytes lie in memory (20_memory.md R93); no condition on the others. -/
def Loc.inBounds (s : State) : Loc → Prop
  | .mem ea t => ea.toNat + t.size ≤ s.memSize
  | _ => True

/-- Every register, float register and memory byte outside `owned` reads as before, and pc, status and `MEM_SIZE` are
the same. The flags are not spoken of. -/
structure UnchangedOutside (ownsReg : Fin 26 → Prop) (ownsFreg : Fin 16 → Prop) (ownsByte : Nat → Prop)
    (s t : State) : Prop where
  regs : ∀ r, ¬ownsReg r → t.readReg r = s.readReg r
  fregs : ∀ j, ¬ownsFreg j → t.getBits j = s.getBits j
  bytes : ∀ a, ¬ownsByte a → t.mem.read a = s.mem.read a
  pc : t.pc = s.pc
  status : t.status = s.status
  memSize : t.memSize = s.memSize

/-- Everything outside one Location is unchanged. -/
def Loc.Frame (l : Loc) (s t : State) : Prop := UnchangedOutside l.ownsReg l.ownsFreg l.ownsByte s t

/-- Everything outside two Locations is unchanged. -/
def Loc.Frame2 (l m : Loc) (s t : State) : Prop :=
  UnchangedOutside (fun r => l.ownsReg r ∨ m.ownsReg r) (fun j => l.ownsFreg j ∨ m.ownsFreg j)
    (fun a => l.ownsByte a ∨ m.ownsByte a) s t

/-- EQ, GT, LT, GTE and LTE are the same; Zero may differ (10_state.md R42, R43). -/
def SameRelational (s t : State) : Prop :=
  t.flags.eq = s.flags.eq ∧ t.flags.gt = s.flags.gt ∧ t.flags.lt = s.flags.lt ∧ t.flags.gte = s.flags.gte ∧
    t.flags.lte = s.flags.lte

/-- The relational flags are the same and Zero is `z` (43_bitwise.md R241, 45_division.md R291). -/
def OnlyZeroSet (s t : State) (z : Prop) : Prop := SameRelational s t ∧ (t.flags.zero = true ↔ z)

/-- The instruction is one of the two comparisons. -/
def isCompare : Instr → Bool
  | .cp _ _ => true
  | .scp _ _ => true
  | _ => false

/-- The instruction writes the Zero flag (10_state.md R43, the table). -/
def writesZero : Instr → Bool
  | .ld _ _ => false
  | .sl _ _ => false
  | .slW _ _ _ => false
  | .slWN _ _ _ _ => false
  | .sr _ _ => false
  | .rgb2hsb _ _ => false
  | .brk => false
  | _ => true

/-- The repeat count operand of a block form that has one (40_engine.md R169). -/
def repeatOperand : Instr → Option Operand
  | .slWN _ _ _ n => some n
  | .divWN _ _ _ n => some n
  | _ => none

/-- Memory is canonical, and two operands fit their slots' classes and resolve: what a two-operand instruction needs to
run (40_engine.md R165, R166). -/
structure Ready (c1 c2 : SlotClass) (s : State) (d x : Operand) (ld lx : Loc) : Prop where
  canonical : s.mem.wf = true
  dstFits : d.fits c1 = true
  srcFits : x.fits c2 = true
  dst : resolve s d = .ok ld
  src : resolve s x = .ok lx

/-- As `Ready`, for the format F3R with its remainder Location (30_encoding.md R122). -/
structure ReadyRem (s : State) (d x r : Operand) (ld lx lr : Loc) : Prop where
  operands : Ready .iloc .isrc s d x ld lx
  remFits : r.fits .loc = true
  rem : resolve s r = .ok lr

/-- As `Ready`, for a block form at `w` bytes (40_engine.md R169). -/
structure ReadyBlock (s : State) (d x : Operand) (w : Width) (dst lx : Loc) : Prop where
  canonical : s.mem.wf = true
  dstFits : d.fits .bdest = true
  srcFits : x.fits .any = true
  dst : resolveBlock s w d = .ok dst
  src : resolve s x = .ok lx

/-- The exact value of a finite binary32 pattern, in units of 2^-149 (10_state.md R39). -/
def f32Fix (b : Word) : Int := if f32Neg b then -(f32Mag b : Int) else (f32Mag b : Int)

/-- The place of a pattern that is not a NaN in the order of the values: the exact value, and beyond every finite one
(all below 2^277 units) for an infinity (42_compare.md R223). -/
def f32Order (b : Word) : Int :=
  if f32IsInf b then if f32Neg b then -(2 ^ 278) else 2 ^ 278 else f32Fix b

/-- `trunc(f)` of a finite pattern, from its exact value (00_scope.md R14). -/
def truncValue (b : Word) : Int := (f32Fix b).tdiv (2 ^ 149)

/-- `k` is a shift count the Location can give (40_engine.md R173): stated for an int, and for a float whose truncation
lies in [0, 2^32), a float in (-1, 0) among them (DEDUCED, log 16); otherwise any value below 2^32. -/
structure ShiftCount (s : State) (lc : Loc) (k : Nat) : Prop where
  ofInt : lc.isFloat = false → k = readBits s lc
  ofFloat : lc.isFloat = true → f32IsFinite (readPattern s lc) = true → 0 ≤ truncValue (readPattern s lc) →
    truncValue (readPattern s lc) < 2 ^ 32 → (k : Int) = truncValue (readPattern s lc)
  range : k < 2 ^ 32

/-- A divisor that is the integer 0 or the binary32 value +0.0 or -0.0 (45_division.md R293). -/
def ZeroDivisor (s : State) (lx : Loc) : Prop :=
  if lx.isFloat then readPattern s lx = 0 ∨ readPattern s lx = 0x80000000 else readBits s lx = 0

/-- `n` executions in sequence, ending where one ends the run (45_division.md R305: the repeat form equals its
sequence). -/
def runRepeated (f : State → Host.Outcome State Fault Refusal) : Nat → State → Host.Outcome State Fault Refusal
  | 0, s => .next s
  | n + 1, s =>
    match f s with
    | .next t => if t.status = .running then runRepeated f n t else .next t
    | .fault r => .fault r
    | .refused r => .refused r

end Sys2Proof.Machine
end

