-- ==== Sys2Proof/Certificates/Slice0/Obligations.lean ====
section
/-! DEFINITION. The statements for the provers. Each docstring names the rules of spec/ it formalises; a clause that is
the model's own choice says so and names its log entry. -/

open Sys2Proof Sys2Proof.Machine

/-! ### Encoding -/

/-- Words written out from 30_encoding.md R111 to R122 decode to the instruction they stand for, at least one of every
family. -/
def Obligations.DecodeReadsSpecWords : Prop :=
  decode [0x01, 0x10, 0x00, 0x30, 0x03] = .ok (.ld (.reg ⟨0, .w1⟩) (.imm .int8 3), []) ∧
  decode [0x01, 0x20, 0x00, 0x44, 0x00, 0x10, 0x00] = .ok (.ld (.freg 0) (.mabs .float32 0x001000), []) ∧
  decode [0x01, 0x10, 0x00, 0x60, 0x00, 0x10, 0x00, 0x01, 0x00] =
    .ok (.ld (.reg ⟨0, .w1⟩) (.mabsOff .int8 0x001000 .w2 0x0100), []) ∧
  decode [0x01, 0x10, 0x00, 0xD0, 0x81, 0x04] = .ok (.ld (.reg ⟨0, .w1⟩) (.mptrReg .int8 ⟨1, .w3⟩ ⟨4, .w1⟩), []) ∧
  decode [0x02, 0x10, 0x40, 0x10, 0x02] = .ok (.cp (.reg ⟨0, .w2⟩) (.reg ⟨2, .w1⟩), []) ∧
  decode [0x04, 0x10, 0x40, 0x31, 0x00, 0xFF] = .ok (.and (.reg ⟨0, .w2⟩) (.imm .int16 0x00FF), []) ∧
  decode [0x0A, 0x40, 0x00, 0x10, 0x00, 0x30, 0x01] = .ok (.bit (.mabs .int8 0x001000) (.imm .int8 1), []) ∧
  decode [0x0D, 0x40, 0x00, 0x10, 0x00, 0x30, 0x01, 0x30, 0x01, 0x10, 0x06] =
    .ok (.slWN (.mabs .int8 0x001000) (.imm .int8 1) .w1 (.reg ⟨6, .w1⟩), []) ∧
  decode [0x14, 0x10, 0x00, 0x30, 0x02, 0x20, 0x00] =
    .ok (.sdivR (.reg ⟨0, .w1⟩) (.imm .int8 2) (.freg 0), []) ∧
  decode [0x15, 0x10, 0xC3, 0x10, 0x80] = .ok (.rgb2hsb (.reg ⟨3, .w4⟩) (.reg ⟨0, .w3⟩), []) ∧
  decode [0x16] = .ok (.brk, [])

/-- Decoding an encoded well-formed instruction gives it back, whatever bytes follow (30_encoding.md R111, R122). -/
def Obligations.DecodeInvertsEncode : Prop :=
  ∀ (i : Instr) (rest : List Byte), i.wf = true → decode (encode i ++ rest) = .ok (i, rest)

/-- What decodes is well formed, and its bytes are its encoding: no byte pattern has a second meaning (30_encoding.md
R126, R127). -/
def Obligations.EncodeInvertsDecode : Prop :=
  ∀ (bs rest : List Byte) (i : Instr), decode bs = .ok (i, rest) → i.wf = true ∧ encode i ++ rest = bs

/-- A decode fault that is not a missing byte is decided by the bytes read up to it: bytes that follow do not change it
(60_exceptions.md R343). -/
def Obligations.DecodeFaultIgnoresLaterBytes : Prop :=
  ∀ (bs more : List Byte) (e : DecodeError), decode bs = .error e → e ≠ .truncated → decode (bs ++ more) = .error e

/-- An unassigned opcode byte at pc faults with DECODE_ILLEGAL and changes only the status (30_encoding.md R131). -/
def Obligations.UnassignedOpcodeFaults : Prop :=
  ∀ s : State, s.status = .running → s.pc.toNat < s.memSize →
    (s.mem.read s.pc.toNat = 0 ∨ 0x17 ≤ (s.mem.read s.pc.toNat).toNat) →
    step s = .next { s with status := .faulted (.decodeIllegal s.pc (s.mem.read s.pc.toNat)) }

/-! ### Fetch and step -/

/-- Let bytes from pc, all in memory, be all that is looked at. If they show an encoding to be illegal, the fault is
DECODE_ILLEGAL, whatever lies after them, also where the next byte lies outside memory; if decoding needs a byte after
them and that one lies outside memory, the fault is MEM_OUT_OF_RANGE at it. Every fault of fetching and decoding is one
of the two: DECODE_ILLEGAL with the opcode byte at pc, or MEM_OUT_OF_RANGE at the first byte, in address order from pc,
that lies outside memory; a step takes it and changes the status alone; and a pc outside memory is such a fault
(60_exceptions.md R333, R334 item 1, R343 item 1; 40_engine.md R163, R164). That no decoding needs more than 24 bytes
is DEDUCED from 30_encoding.md R117, R121 and R122 (log 17); which byte shows a descriptor to be illegal is `decode`'s
(log 15). -/
def Obligations.FetchFaultsAtFirstBadByte : Prop :=
  (∀ (s : State) (bs : List Byte),
    (∀ (k : Nat) (b : Byte), bs[k]? = some b →
      (s.pc + BitVec.ofNat 32 k).toNat < s.memSize ∧ s.mem.read (s.pc + BitVec.ofNat 32 k).toNat = b) →
    (∀ e, decode bs = .error e → e ≠ .truncated →
      fetchDecode s = .error (.decodeIllegal s.pc (s.mem.read s.pc.toNat))) ∧
    (decode bs = .error .truncated → s.memSize ≤ (s.pc + BitVec.ofNat 32 bs.length).toNat →
      fetchDecode s = .error (.memOutOfRange s.pc (s.pc + BitVec.ofNat 32 bs.length) 1))) ∧
  (∀ (s : State) (f : FaultRecord), fetchDecode s = .error f →
    ((f = .decodeIllegal s.pc (s.mem.read s.pc.toNat) ∧ s.pc.toNat < s.memSize) ∨
      ∃ k : Nat, k < 24 ∧ f = .memOutOfRange s.pc (s.pc + BitVec.ofNat 32 k) 1 ∧
        s.memSize ≤ (s.pc + BitVec.ofNat 32 k).toNat ∧
        ∀ j < k, (s.pc + BitVec.ofNat 32 j).toNat < s.memSize) ∧
    (s.status = .running → step s = .next { s with status := .faulted f })) ∧
  ∀ s : State, s.memSize ≤ s.pc.toNat → fetchDecode s = .error (.memOutOfRange s.pc s.pc 1)

/-- Where the bytes from pc are the encoding of a well-formed instruction, a step is its execution, then pc moves past
it if the engine is still Running and stays if it is not (40_engine.md R162, R167). That exec leaves pc to the step is
the model's form (log 14). -/
def Obligations.StepRunsDecodedInstruction : Prop :=
  ∀ (s : State) (i : Instr), s.status = .running → i.wf = true →
    (∀ (k : Nat) (b : Byte), (encode i)[k]? = some b →
      (s.pc + BitVec.ofNat 32 k).toNat < s.memSize ∧ s.mem.read (s.pc + BitVec.ofNat 32 k).toNat = b) →
    ∃ t, exec i s = .next t ∧
      step s = .next (if t.status = .running then { t with pc := t.pc + BitVec.ofNat 32 (encode i).length } else t)

/-- What decodes at pc depends on pc and on the instruction's own bytes alone: two states that agree there decode the
same instruction with the same length (30_encoding.md R110, R125). -/
def Obligations.DecodeDependsOnOwnBytes : Prop :=
  ∀ (s t : State) (i : Instr) (len : Nat), fetchDecode s = .ok (i, len) → t.pc = s.pc →
    (∀ k < len, (s.pc + BitVec.ofNat 32 k).toNat < t.memSize ∧
      t.mem.read (s.pc + BitVec.ofNat 32 k).toNat = s.mem.read (s.pc + BitVec.ofNat 32 k).toNat) →
    fetchDecode t = .ok (i, len)

/-- A step that leaves the engine Running has moved pc by the decoded length of an instruction other than BREAK; a step
that ends the run, by a BREAK or a fault, has not moved pc (40_engine.md R167). -/
def Obligations.PcMovesOnlyByLength : Prop :=
  ∀ s t : State, step s = .next t →
    (t.status = .running ∧ ∃ i len, fetchDecode s = .ok (i, len) ∧ i ≠ .brk ∧
      t.pc = s.pc + BitVec.ofNat 32 len) ∨
    (t.pc = s.pc ∧ ((t.status = .halted ∧ ∃ len, fetchDecode s = .ok (.brk, len)) ∨ ∃ f, t.status = .faulted f))

/-- No step leaves Halted or Faulted (40_engine.md R161, R181, 60_exceptions.md R339). That such a step answers the
outcome fault is the model's form (log 13). -/
def Obligations.EndedRunTakesNoStep : Prop :=
  (∀ s : State, s.status = .halted → step s = .fault .halted) ∧
  ∀ (s : State) (f : FaultRecord), s.status = .faulted f → step s = .fault (.faulted f)

/-- A step is taken from every Running state: no instruction refuses, waits or stops the machine (40_engine.md R162,
70_reset_and_hazards.md R376). -/
def Obligations.RunningStateSteps : Prop := ∀ s : State, s.status = .running → ∃ t, step s = .next t

/-! ### Invariants -/

/-- Every step keeps the invariant: memory canonical and inside `MEM_SIZE`, `MEM_SIZE` in range, the relational flags
consistent, a recorded fault at pc (20_memory.md R70, 10_state.md R42, 60_exceptions.md R331). -/
def Obligations.StepKeepsInvariant : Prop := ∀ s t : State, s.Inv → step s = .next t → t.Inv

/-- The state after reset meets the invariant. Its values of registers, memory, pc and `MEM_SIZE` are the model's
choice (logs 2 to 7). -/
def Obligations.ResetMeetsInvariant : Prop := State.reset.Inv

/-- No step changes `MEM_SIZE` (20_memory.md R70: the size of the backing store), and draws are only ever taken. That
both are fields of State is the model's form (logs 2 and 7). -/
def Obligations.StepKeepsMemorySize : Prop :=
  ∀ s t : State, step s = .next t → t.memSize = s.memSize ∧ s.draws ≤ t.draws

/-! ### Launch -/

/-- Where the program and the bytes the host sets lie in memory, the launch has the bytes set at their addresses, also
those inside the program, the program's other bytes at the load base, every other byte as the host provided it, the
registers as the host set them, pc at the load base, every flag false and the engine Running (70_reset_and_hazards.md
R361 to R364). That there is no launch where one of them does not fit is the model's (log 24): R370 puts such a load
outside the block and states no result. -/
def Obligations.LaunchSetsEveryPieceOfState : Prop :=
  ∀ p : LaunchParams, p.memInit.wf = true →
    ((p.memSize < p.loadBase.toNat + p.program.length ∨ ∃ c ∈ p.setBytes, p.memSize ≤ c.1) → launch p = none) ∧
    (p.loadBase.toNat + p.program.length ≤ p.memSize → (∀ c ∈ p.setBytes, c.1 < p.memSize) →
      ∃ s, launch p = some s ∧ s.regs = p.regInit ∧ s.fregs = p.fregInit ∧
        s.flags = ⟨false, false, false, false, false, false⟩ ∧ s.pc = p.loadBase ∧ s.status = .running ∧
        s.memSize = p.memSize ∧ s.mem.wf = true ∧
        (∀ (pre post : List Host.Cell) (a : Nat) (b : Byte), p.setBytes = pre ++ (a, b) :: post →
          (∀ c ∈ post, c.1 ≠ a) → s.mem.read a = b) ∧
        ∀ a, (∀ c ∈ p.setBytes, c.1 ≠ a) →
          (∀ (k : Nat) (b : Byte), p.program[k]? = some b → a = p.loadBase.toNat + k → s.mem.read a = b) ∧
          ((a < p.loadBase.toNat ∨ p.loadBase.toNat + p.program.length ≤ a) → s.mem.read a = p.memInit.read a))

/-- A launch from a memory of the backing store's size, in a size the spec allows, meets the invariant every step keeps
(70_reset_and_hazards.md R363, R364; 20_memory.md R70). -/
def Obligations.LaunchMeetsInvariant : Prop :=
  ∀ (p : LaunchParams) (s : State), p.memInit.wf = true → p.memInit.within p.memSize = true → 1 ≤ p.memSize →
    p.memSize ≤ 2 ^ 32 → launch p = some s → s.Inv

/-- run() clears the six flags, sets pc to the load base and the status to Running, everything else being as the host
left it, and takes steps until the status is not Running, and no step after that: its result is the last state of that
sequence of steps, whatever bound above their number it is given (70_reset_and_hazards.md R362, R364 step 4; 40_engine.md
R182). That a run is given a bound, and has no result within fewer steps than it takes, is the model's form (log 26). -/
def Obligations.RunStepsUntilNotRunning : Prop :=
  ∀ (n : Nat) (s t : State) (base : Word), run n s base = some t ↔
    ∃ k : Nat, k ≤ n ∧ ∃ f : Nat → State,
      f 0 = { s with flags := ⟨false, false, false, false, false, false⟩, pc := base, status := .running } ∧
      (∀ j < k, (f j).status = .running ∧ step (f j) = .next (f (j + 1))) ∧ f k = t ∧ t.status ≠ .running

/-- Every run ends unless `MEM_SIZE` is 2^32, and within `MEM_SIZE` + 1 steps: pc only moves forward, and a run that
meets no BREAK ends in a fault at the latest where pc leaves memory (40_engine.md R182). -/
def Obligations.EveryRunEnds : Prop :=
  ∀ (s : State) (base : Word), s.memSize < 2 ^ 32 →
    ∃ t, run (s.memSize + 1) s base = some t ∧ (t.status = .halted ∨ ∃ f, t.status = .faulted f)

/-- The boot order has the result of the run from the launch state (70_reset_and_hazards.md R364). That it has none where
there is no launch state is the model's (log 24). -/
def Obligations.BootRunsTheLaunchState : Prop :=
  ∀ (n : Nat) (p : LaunchParams),
    (launch p = none → boot n p = none) ∧ ∀ s, launch p = some s → boot n p = run n s p.loadBase

/-- The state after reset is the launch, with no program, of the launch parameters the spec's vectors use: flags false
and Running (10_state.md R50). The values of the parameters are the model's choice (logs 2 to 7). -/
def Obligations.ResetIsALaunch : Prop :=
  launch LaunchParams.default = some State.reset ∧
  State.reset.flags = ⟨false, false, false, false, false, false⟩ ∧ State.reset.status = .running

/-! ### Faults -/

/-- An instruction that is not a block form with a repeat count above 1 is all-or-nothing: where it faults, it has
changed the status and nothing else, and the fault is MEM_OUT_OF_RANGE or DIV_BY_ZERO at pc (40_engine.md R168,
60_exceptions.md R342). -/
def Obligations.FaultingInstructionChangesOnlyStatus : Prop :=
  ∀ (i : Instr) (s t : State) (f : FaultRecord), s.status = .running →
    (∀ n c, repeatOperand i = some n → resolve s n = .ok c → readBits s c ≤ 1) →
    exec i s = .next t → t.status = .faulted f →
    t = { s with status := .faulted f } ∧
      ((∃ addr n, f = .memOutOfRange s.pc addr n) ∨ f = .divByZero s.pc)

/-- A resolution fault comes before any effect, the first operand's before the second's and that before the third's,
and before a zero divisor, in every instruction with operands; a block destination faults where its w bytes leave
memory, with n = w, and comes before the value source. A width specifier and a repeat count have no address
(30_encoding.md R121), so their resolution never faults (60_exceptions.md R334 item 2, R343 items 2 and 3; 40_engine.md
R166, R169). That a repeat form takes these faults with a count of 0 too is the model's reading of R169 (DEDUCED,
log 21). -/
def Obligations.ResolutionFaultsInSlotOrder : Prop :=
  (∀ mk ∈ [Instr.ld, .cp, .scp, .and, .or, .xor, .nand, .nor, .xnor, .bit, .sl, .sr, .div, .sdiv, .rgb2hsb],
    ∀ (s : State) (d x : Operand),
      (∀ f, resolve s d = .error f → exec (mk d x) s = .next { s with status := .faulted f }) ∧
      ∀ ld f, resolve s d = .ok ld → resolve s x = .error f →
        exec (mk d x) s = .next { s with status := .faulted f }) ∧
  (∀ mk ∈ [Instr.divR, .sdivR], ∀ (s : State) (d x r : Operand),
      (∀ f, resolve s d = .error f → exec (mk d x r) s = .next { s with status := .faulted f }) ∧
      (∀ ld f, resolve s d = .ok ld → resolve s x = .error f →
        exec (mk d x r) s = .next { s with status := .faulted f }) ∧
      ∀ ld lx f, resolve s d = .ok ld → resolve s x = .ok lx → resolve s r = .error f →
        exec (mk d x r) s = .next { s with status := .faulted f }) ∧
  ∀ (w : Width) (n : Operand), n.fits .cnt = true →
    ∀ mk ∈ [fun d x => Instr.slW d x w, fun d x => .divW d x w, fun d x => .slWN d x w n, fun d x => .divWN d x w n],
    ∀ (s : State) (d x : Operand),
      (∀ ea t, effectiveAddress s d = some (ea, t) → s.memSize < ea.toNat + w.bytes →
        exec (mk d x) s = .next { s with status := .faulted (.memOutOfRange s.pc ea w.bytes) }) ∧
      ∀ dst f, resolveBlock s w d = .ok dst → resolve s x = .error f →
        exec (mk d x) s = .next { s with status := .faulted f }

/-- A zero divisor, the integer 0 or a binary32 zero of either sign, faults with DIV_BY_ZERO and writes nothing, in
every form of DIV and SDIV (45_division.md R293, 60_exceptions.md R335). -/
def Obligations.ZeroDivisorFaults : Prop :=
  (∀ (s : State) (d x : Operand) (ld lx : Loc), Ready .loc .any s d x ld lx → ZeroDivisor s lx →
    exec (.div d x) s = .next { s with status := .faulted (.divByZero s.pc) } ∧
    exec (.sdiv d x) s = .next { s with status := .faulted (.divByZero s.pc) }) ∧
  (∀ (s : State) (d x r : Operand) (ld lx lr : Loc), ReadyRem s d x r ld lx lr → ZeroDivisor s lx →
    exec (.divR d x r) s = .next { s with status := .faulted (.divByZero s.pc) } ∧
    exec (.sdivR d x r) s = .next { s with status := .faulted (.divByZero s.pc) }) ∧
  (∀ (s : State) (d x : Operand) (w : Width) (dst lx : Loc), ReadyBlock s d x w dst lx → ZeroDivisor s lx →
    exec (.divW d x w) s = .next { s with status := .faulted (.divByZero s.pc) } ∧
    ∀ (n : Operand) (c : Loc), n.fits .cnt = true → resolve s n = .ok c → 1 ≤ readBits s c →
      exec (.divWN d x w n) s = .next { s with status := .faulted (.divByZero s.pc) })

/-! ### Flags -/

/-- After a comparison exactly one of EQ, GT and LT is true, GTE is GT or EQ, LTE is LT or EQ, and Zero is EQ, with a
NaN operand too; and no other instruction changes EQ, GT, LT, GTE or LTE (10_state.md R42, 42_compare.md R220, R223,
R225). -/
def Obligations.RelationalFlagsComeFromComparisons : Prop :=
  (∀ mk ∈ [Instr.cp, .scp], ∀ (s : State) (a b : Operand) (la lb : Loc), resolve s a = .ok la →
    resolve s b = .ok lb → ∃ t, exec (mk a b) s = .next t ∧
      (t.flags.eq.toNat + t.flags.gt.toNat + t.flags.lt.toNat = 1) ∧
      (t.flags.gte = (t.flags.gt || t.flags.eq)) ∧ (t.flags.lte = (t.flags.lt || t.flags.eq)) ∧
      t.flags.zero = t.flags.eq ∧ { t with flags := s.flags, draws := s.draws } = s) ∧
  ∀ (i : Instr) (s t : State), isCompare i = false → exec i s = .next t → SameRelational s t

/-- LD, SL, SR, RGB2HSB and BREAK change no flag (10_state.md R43, 41_load.md R204, 44_shift.md R273,
46_fixed_function.md R323). -/
def Obligations.MovesAndShiftsKeepFlags : Prop :=
  ∀ (i : Instr) (s t : State), writesZero i = false → exec i s = .next t → t.flags = s.flags

/-! ### Registers, memory and addresses -/

/-- writeChain stores the value big-endian from the start cell, wrapping past Z to A, leaves every other cell, and reads
back modulo 2^(8w) (10_state.md R33, R34). -/
def Obligations.ChainWriteIsBigEndian : Prop :=
  ∀ (s : State) (i : Fin 26) (w : Width) (v : Nat),
    (∀ k < w.bytes, (s.writeChain i w.bytes v).readReg (i + Fin.ofNat 26 k) =
      BitVec.ofNat 8 (v / 2 ^ (8 * (w.bytes - 1 - k)))) ∧
    (∀ r, (∀ k < w.bytes, r ≠ i + Fin.ofNat 26 k) → (s.writeChain i w.bytes v).readReg r = s.readReg r) ∧
    (s.writeChain i w.bytes v).readChain i w.bytes = v % 2 ^ (8 * w.bytes)

/-- MemWrite in range stores the value big-endian and leaves every other byte, and MemRead gives it back modulo
2^(8n); out of range both fault with MEM_OUT_OF_RANGE (20_memory.md R72, R73, R78). -/
def Obligations.MemoryWriteIsBigEndian : Prop :=
  ∀ (s : State) (a : Word) (n v : Nat), s.mem.wf = true → 1 ≤ n → n ≤ 4 →
    (a.toNat + n ≤ s.memSize → ∃ t, s.memWrite a n v = .ok t ∧
      (∀ k < n, t.mem.read (a.toNat + k) = BitVec.ofNat 8 (v / 2 ^ (8 * (n - 1 - k)))) ∧
      (∀ b, (b < a.toNat ∨ a.toNat + n ≤ b) → t.mem.read b = s.mem.read b) ∧
      t.memRead a n = .ok (v % 2 ^ (8 * n)) ∧ { t with mem := s.mem } = s) ∧
    (s.memSize < a.toNat + n → s.memWrite a n v = .error (.memOutOfRange s.pc a n) ∧
      s.memRead a n = .error (.memOutOfRange s.pc a n))

/-- A memory operand of type `t` with the given base and offset resolves to the Location at their sum modulo 2^32
where all its bytes lie in memory, and faults otherwise; as a block destination it does so with w bytes in place of the
bytes of `t`. -/
def AddressedBy (s : State) (o : Operand) (t : TypeCode) (base offset : Nat) : Prop :=
  ∀ ea : Nat, ea = (base + offset) % 2 ^ 32 →
    (ea + t.size ≤ s.memSize → resolve s o = .ok (.mem (BitVec.ofNat 32 ea) t)) ∧
    (s.memSize < ea + t.size → resolve s o = .error (.memOutOfRange s.pc (BitVec.ofNat 32 ea) t.size)) ∧
    ∀ w : Width,
      (ea + w.bytes ≤ s.memSize → resolveBlock s w o = .ok (.mem (BitVec.ofNat 32 ea) w.intType)) ∧
      (s.memSize < ea + w.bytes → resolveBlock s w o = .error (.memOutOfRange s.pc (BitVec.ofNat 32 ea) w.bytes))

/-- The effective address of each of the six memory modes, and the bounds check at resolution, for an operand and for a
block destination of w bytes (20_memory.md R85 to R91, R93; 40_engine.md R165, R169; 60_exceptions.md R334 item 2). -/
def Obligations.EffectiveAddressOfEachMode : Prop :=
  ∀ (s : State) (t : TypeCode) (addr off : Word) (n : Width) (p c : Chain),
    AddressedBy s (.mabs t addr) t addr.toNat 0 ∧
    AddressedBy s (.mabsOff t addr n off) t addr.toNat off.toNat ∧
    AddressedBy s (.mabsReg t addr c) t addr.toNat (s.readChain c.start c.width.bytes) ∧
    AddressedBy s (.mptr t p) t (s.readChain p.start p.width.bytes) 0 ∧
    AddressedBy s (.mptrOff t p n off) t (s.readChain p.start p.width.bytes) off.toNat ∧
    AddressedBy s (.mptrReg t p c) t (s.readChain p.start p.width.bytes) (s.readChain c.start c.width.bytes)

/-- A Location's columns in the table of 40_engine.md R165: its width in bits and whether its domain is float. -/
def HasColumns (l : Loc) (bits : Nat) (float : Bool) : Prop := l.bits = bits ∧ l.isFloat = float

/-- REG, FREG and IMM resolve, in every state, to their Locations; every Location has the width and the domain of its
row; a type's size is 1, 2, 3 or 4 bytes and only type code 4 is a float; and a register block destination is the chain
at its start of w registers, whatever width it was written with, of 8w bits in the integer domain, as a memory one is
(40_engine.md R165, R169; 30_encoding.md R114, R121). -/
def Obligations.LocationOfEachDescriptor : Prop :=
  (∀ (s : State) (i : Fin 26) (v w : Width), resolve s (.reg ⟨i, v⟩) = .ok (.reg i v) ∧
    resolveBlock s w (.reg ⟨i, v⟩) = .ok (.reg i w) ∧ HasColumns (.reg i w) (8 * w.bytes) false) ∧
  (∀ (s : State) (j : Fin 16), resolve s (.freg j) = .ok (.freg j) ∧ HasColumns (.freg j) 32 true) ∧
  (∀ (s : State) (t : TypeCode) (raw : Word), resolve s (.imm t raw) = .ok (.imm t raw)) ∧
  (∀ ts ∈ [(TypeCode.int8, 8, false), (.int16, 16, false), (.int24, 24, false), (.int32, 32, false),
    (.float32, 32, true)], ∀ (ea raw : Word), HasColumns (.imm ts.1 raw) ts.2.1 ts.2.2 ∧
      HasColumns (.mem ea ts.1) ts.2.1 ts.2.2) ∧
  ∀ (ea : Word) (w : Width), HasColumns (.mem ea w.intType) (8 * w.bytes) false

/-! ### Load and conversions -/

/-- LD writes the converted value, by the table of 41_load.md R202, and nothing else (R200, R201, R203, R204). In the
row float to int outside the stated range the instruction completes and the value is free. -/
def Obligations.LdWritesConvertedValue : Prop :=
  ∀ (s : State) (d x : Operand) (ld lx : Loc), Ready .loc .any s d x ld lx →
    ∃ t, exec (.ld d x) s = .next t ∧ t.flags = s.flags ∧ ld.Frame s t ∧
      (ld.isFloat = false → lx.isFloat = false → readBits t ld = readBits s lx % 2 ^ ld.bits) ∧
      (ld.isFloat = false → lx.isFloat = true → f32IsFinite (readPattern s lx) = true →
        (truncValue (readPattern s lx)).natAbs < 2 ^ 32 →
        (readBits t ld : Int) = truncValue (readPattern s lx) % 2 ^ ld.bits) ∧
      (ld.isFloat = true → lx.isFloat = false → readPattern t ld = i2f (readBits s lx : Int)) ∧
      (ld.isFloat = true → lx.isFloat = true → readPattern t ld = readPattern s lx)

/-- I2F gives the nearest binary32 value, ties to the even significand, exactly up to 2^24 (40_engine.md R176), for
every integer that an operand of 32 bits holds, signed or unsigned. -/
def Obligations.IntToFloatIsNearest : Prop :=
  ∀ x : Int, x.natAbs < 2 ^ 32 →
    f32IsFinite (i2f x) = true ∧
    (∀ u : Word, f32IsFinite u = true →
      (x * 2 ^ 149 - f32Fix (i2f x)).natAbs ≤ (x * 2 ^ 149 - f32Fix u).natAbs ∧
      ((x * 2 ^ 149 - f32Fix (i2f x)).natAbs = (x * 2 ^ 149 - f32Fix u).natAbs →
        f32Fix u = f32Fix (i2f x) ∨ (i2f x).toNat % 2 = 0)) ∧
    (x.natAbs ≤ 2 ^ 24 → f32Fix (i2f x) = x * 2 ^ 149)

/-! ### Comparisons -/

/-- CP and SCP of two int operands compare their low m bits, m the smaller width, unsigned and as two's complement, and
write the six flags and nothing else (42_compare.md R220, R221, R222, R227). -/
def Obligations.IntegerComparisonFlags : Prop :=
  ∀ (s : State) (a b : Operand) (la lb : Loc), Ready .loc .any s a b la lb → la.isFloat = false →
    lb.isFloat = false →
    ∀ (x y : BitVec (min la.bits lb.bits)), x = BitVec.ofNat _ (readBits s la) → y = BitVec.ofNat _ (readBits s lb) →
      exec (.cp a b) s = .next { s with flags :=
        ⟨decide (x = y), decide (x = y), y.ult x, x.ult y, y.ule x, x.ule y⟩ } ∧
      exec (.scp a b) s = .next { s with flags :=
        ⟨decide (x = y), decide (x = y), y.slt x, x.slt y, y.sle x, x.sle y⟩ }

/-- CP and SCP with a float operand compare binary32 values, an int operand converted by I2F (unsigned for CP, signed at
its own width for SCP): ordered where neither is a NaN; with a NaN exactly one of EQ, GT and LT, which one being free
(42_compare.md R223). -/
def Obligations.FloatComparisonFlags : Prop :=
  ∀ (s : State) (a b : Operand) (la lb : Loc), Ready .loc .any s a b la lb →
    (la.isFloat = true ∨ lb.isFloat = true) →
    ∀ p ∈ [(false, Instr.cp), (true, Instr.scp)], ∀ fa fb : Word, fa = readFloat p.1 s la → fb = readFloat p.1 s lb →
      (f32IsNaN fa = false → f32IsNaN fb = false →
        exec (p.2 a b) s = .next { s with flags :=
          ⟨decide (f32Order fa = f32Order fb), decide (f32Order fa = f32Order fb), decide (f32Order fb < f32Order fa),
            decide (f32Order fa < f32Order fb), decide (f32Order fb ≤ f32Order fa),
            decide (f32Order fa ≤ f32Order fb)⟩ }) ∧
      (f32IsNaN fa = true ∨ f32IsNaN fb = true → ∃ t, exec (p.2 a b) s = .next t ∧
        t.flags.eq.toNat + t.flags.gt.toNat + t.flags.lt.toNat = 1 ∧ t.flags.gte = (t.flags.gt || t.flags.eq) ∧
        t.flags.lte = (t.flags.lt || t.flags.eq) ∧ t.flags.zero = t.flags.eq ∧
        { t with flags := s.flags, draws := s.draws } = s)

/-! ### Bitwise and bit test -/

/-- The instruction combines its operands bit by bit within the destination's width, sets Zero from the result and
changes nothing else. -/
def CombinesBits (mk : Operand → Operand → Instr) (f : Bool → Bool → Bool) : Prop :=
  ∀ (s : State) (d x : Operand) (ld lx : Loc), Ready .loc .any s d x ld lx →
    ∃ t, exec (mk d x) s = .next t ∧
      (∀ k, (readBits t ld).testBit k =
        (decide (k < ld.bits) && f ((readBits s ld).testBit k) ((readBits s lx).testBit k))) ∧
      OnlyZeroSet s t (readBits t ld = 0) ∧ ld.Frame s t

/-- AND, OR, XOR, NAND, NOR and XNOR: each result bit, the Zero flag and the frame; a narrower source counts as
zero-extended and a wider one is cut, and a float Location gives and takes its pattern (43_bitwise.md R240 to R248). -/
def Obligations.BitwiseResults : Prop :=
  CombinesBits .and (fun a b => a && b) ∧ CombinesBits .or (fun a b => a || b) ∧
  CombinesBits .xor (fun a b => a != b) ∧ CombinesBits .nand (fun a b => !(a && b)) ∧
  CombinesBits .nor (fun a b => !(a || b)) ∧ CombinesBits .xnor (fun a b => a == b)

/-- BIT sets Zero exactly when no bit of the destination's width is set in both the destination and the mask's pattern,
and changes nothing else (43_bitwise.md R250, R251). -/
def Obligations.BitTestsMask : Prop :=
  ∀ (s : State) (d m : Operand) (ld lm : Loc), Ready .loc .any s d m ld lm →
    ∃ t, exec (.bit d m) s = .next t ∧
      OnlyZeroSet s t (∀ k < ld.bits, ¬((readBits s ld).testBit k = true ∧ (readBits s lm).testBit k = true)) ∧
      { t with flags := s.flags } = s

/-! ### Shifts -/

/-- SL and SR shift by the count modulo the destination's width, filling with zeros, write no flag and change nothing
else; the count is the operand's integer, or a float's truncated value where the spec states it, and free elsewhere
(44_shift.md R270 to R273, R278; 40_engine.md R173). That a float in (-1, 0) truncates to a stated count, 0, is
DEDUCED (log 16). -/
def Obligations.ShiftResults : Prop :=
  ∀ (s : State) (d c : Operand) (ld lc : Loc), Ready .loc .any s d c ld lc →
    (∃ t k, ShiftCount s lc k ∧ exec (.sl d c) s = .next t ∧
      (∀ j, (readBits t ld).testBit j =
        (decide (j < ld.bits) && decide (k % ld.bits ≤ j) && (readBits s ld).testBit (j - k % ld.bits))) ∧
      t.flags = s.flags ∧ ld.Frame s t) ∧
    (∃ t k, ShiftCount s lc k ∧ exec (.sr d c) s = .next t ∧
      (∀ j, (readBits t ld).testBit j = (readBits s ld).testBit (j + k % ld.bits)) ∧
      t.flags = s.flags ∧ ld.Frame s t)

/-- The block form of SL shifts the w bytes at the destination's start, whatever width it was written with, by a count
as in `ShiftResults` (44_shift.md R275, R271; 40_engine.md R169, R173; 30_encoding.md R121). That a float in (-1, 0)
counts 0 is DEDUCED (log 16). -/
def Obligations.BlockShiftResult : Prop :=
  ∀ (s : State) (d c : Operand) (w : Width) (dst lc : Loc), ReadyBlock s d c w dst lc →
    dst.bits = 8 * w.bytes ∧
    ∃ t k, ShiftCount s lc k ∧ exec (.slW d c w) s = .next t ∧
      readBits t dst = readBits s dst * 2 ^ (k % (8 * w.bytes)) % 2 ^ (8 * w.bytes) ∧
      t.flags = s.flags ∧ dst.Frame s t

/-- With an integer immediate count k, N repetitions of SL give `(v · 2^(N·(k mod n))) mod 2^n`; N = 0 leaves the
destination (44_shift.md R276). -/
def Obligations.RepeatedShiftByImmediate : Prop :=
  ∀ (s : State) (d n : Operand) (ty : TypeCode) (k : Word) (w : Width) (dst c : Loc),
    ReadyBlock s d (.imm ty k) w dst (.imm ty k) → ty.isFloat = false → n.fits .cnt = true → resolve s n = .ok c →
    ∃ t, exec (.slWN d (.imm ty k) w n) s = .next t ∧
      readBits t dst =
        readBits s dst * 2 ^ (readBits s c * (k.toNat % (8 * w.bytes))) % 2 ^ (8 * w.bytes) ∧
      t.flags = s.flags ∧ dst.Frame s t

/-! ### Division -/

/-- DIV of two int operands with a nonzero divisor: the floor quotient, Zero from it, nothing else changed
(45_division.md R290, R291, R294). -/
def Obligations.DivIntegerResult : Prop :=
  ∀ (s : State) (d x : Operand) (ld lx : Loc), Ready .loc .any s d x ld lx → ld.isFloat = false →
    lx.isFloat = false → readBits s lx ≠ 0 →
    ∃ t, exec (.div d x) s = .next t ∧ readBits t ld = readBits s ld / readBits s lx ∧
      OnlyZeroSet s t (readBits t ld = 0) ∧ ld.Frame s t

/-- `q` and `r` are the quotient rounded toward zero and its remainder: the remainder is smaller than the divisor and
has the dividend's sign, or is 0 (45_division.md R290). -/
def TruncatedDivision (x y q r : Int) : Prop :=
  x = q * y + r ∧ r.natAbs < y.natAbs ∧ (r ≠ 0 → (r < 0 ↔ x < 0))

/-- SDIV of two int operands, each signed at its own width, with a nonzero divisor: the quotient rounded toward zero,
modulo 2^n (45_division.md R290, R291, R300, R302). -/
def Obligations.SdivIntegerResult : Prop :=
  ∀ (s : State) (d x : Operand) (ld lx : Loc), Ready .loc .any s d x ld lx → ld.isFloat = false →
    lx.isFloat = false → readBits s lx ≠ 0 →
    ∃ t q r, exec (.sdiv d x) s = .next t ∧
      TruncatedDivision (BitVec.ofNat ld.bits (readBits s ld)).toInt (BitVec.ofNat lx.bits (readBits s lx)).toInt q r ∧
      (readBits t ld : Int) = q % 2 ^ ld.bits ∧ OnlyZeroSet s t (readBits t ld = 0) ∧ ld.Frame s t

/-- `m` is what an instruction leaves in the remainder Location for remainder `r`: modulo its width, or by I2F
(45_division.md R301). -/
def HoldsRemainder (t : State) (lr : Loc) (r : Int) : Prop :=
  (lr.isFloat = false → (readBits t lr : Int) = r % 2 ^ lr.bits) ∧ (lr.isFloat = true → readPattern t lr = i2f r)

/-- Each cell or byte of the integer Location `ld` that `lr` does not own holds its byte of `v`, most significant first
(45_division.md R296: of the bytes they share the remainder's remain). -/
def HoldsBytesOutside (t : State) (ld lr : Loc) (v : Nat) : Prop :=
  (∀ i w, ld = .reg i w → ∀ k < w.bytes, ¬lr.ownsReg (i + Fin.ofNat 26 k) →
    t.readReg (i + Fin.ofNat 26 k) = BitVec.ofNat 8 (v / 2 ^ (8 * (w.bytes - 1 - k)))) ∧
  ∀ ea ty, ld = .mem ea ty → ∀ k < ty.size, ¬lr.ownsByte (ea.toNat + k) →
    t.mem.read (ea.toNat + k) = BitVec.ofNat 8 (v / 2 ^ (8 * (ty.size - 1 - k)))

/-- DIV with a remainder: quotient and remainder of the floor division; the remainder, written last, always holds, and
of the quotient every byte outside it, all of it where the two Locations are disjoint; Zero from the quotient
(45_division.md R290, R291, R295, R296). -/
def Obligations.DivRemainderResult : Prop :=
  ∀ (s : State) (d x r : Operand) (ld lx lr : Loc), ReadyRem s d x r ld lx lr → readBits s lx ≠ 0 →
    ∃ t, exec (.divR d x r) s = .next t ∧
      HoldsRemainder t lr ((readBits s ld % readBits s lx : Nat) : Int) ∧
      (lr.Disjoint ld → readBits t ld = readBits s ld / readBits s lx) ∧
      HoldsBytesOutside t ld lr (readBits s ld / readBits s lx) ∧
      OnlyZeroSet s t (readBits s ld / readBits s lx = 0) ∧ ld.Frame2 lr s t

/-- SDIV with a remainder, as `DivRemainderResult`, signed (45_division.md R290, R291, R296, R301, R302). -/
def Obligations.SdivRemainderResult : Prop :=
  ∀ (s : State) (d x r : Operand) (ld lx lr : Loc), ReadyRem s d x r ld lx lr → readBits s lx ≠ 0 →
    ∃ t q m, exec (.sdivR d x r) s = .next t ∧
      TruncatedDivision (BitVec.ofNat ld.bits (readBits s ld)).toInt (BitVec.ofNat lx.bits (readBits s lx)).toInt q m ∧
      HoldsRemainder t lr m ∧
      (lr.Disjoint ld → (readBits t ld : Int) = q % 2 ^ ld.bits) ∧
      HoldsBytesOutside t ld lr (q % 2 ^ ld.bits).toNat ∧
      OnlyZeroSet s t (q % 2 ^ ld.bits = 0) ∧ ld.Frame2 lr s t

/-- What a float-domain division leaves in d for the binary32 operands fa and fb: the quotient's pattern, or the
truncated quotient, or, where the result is a NaN or outside the integers stated, a free value; Zero from the value
written (45_division.md R291, R298, R299). -/
def HoldsFloatQuotient (s t : State) (ld : Loc) (fa fb : Word) : Prop :=
  (∀ q, f32Div fa fb = some q →
    (ld.isFloat = true → readPattern t ld = q ∧ OnlyZeroSet s t (q = 0 ∨ q = 0x80000000)) ∧
    (ld.isFloat = false → f32IsFinite q = true → (truncValue q).natAbs < 2 ^ 32 →
      (readBits t ld : Int) = truncValue q % 2 ^ ld.bits)) ∧
  (f32Div fa fb = none → ld.isFloat = true →
    f32IsNaN (readPattern t ld) = true ∧ OnlyZeroSet s t False) ∧
  (ld.isFloat = false → OnlyZeroSet s t (readBits t ld = 0))

/-- DIV and SDIV with a float operand, in the form F2, and DIV's block form with a float divisor: a binary32 division,
an int operand converted by I2F, unsigned for DIV and signed for SDIV (45_division.md R291, R292, R298, R299). -/
def Obligations.FloatDivisionResult : Prop :=
  (∀ (s : State) (d x : Operand) (ld lx : Loc), Ready .loc .any s d x ld lx →
    (ld.isFloat = true ∨ lx.isFloat = true) → ¬ZeroDivisor s lx →
    (∃ t, exec (.div d x) s = .next t ∧ ld.Frame s t ∧
      HoldsFloatQuotient s t ld (readFloat false s ld) (readFloat false s lx)) ∧
    (∃ t, exec (.sdiv d x) s = .next t ∧ ld.Frame s t ∧
      HoldsFloatQuotient s t ld (readFloat true s ld) (readFloat true s lx))) ∧
  (∀ (s : State) (d x : Operand) (w : Width) (dst lx : Loc), ReadyBlock s d x w dst lx → lx.isFloat = true →
    ¬ZeroDivisor s lx →
    ∃ t, exec (.divW d x w) s = .next t ∧ dst.Frame s t ∧
      HoldsFloatQuotient s t dst (readFloat false s dst) (readFloat false s lx))

/-- Binary32 division of finite values is the nearest binary32 value, ties to the even significand, with the sign of
the quotient, subnormals kept and overflow to infinity; NaN operands and infinity by infinity have a NaN result, and
the other infinities as IEEE-754 has them (40_engine.md R179, 45_division.md R298). -/
def Obligations.FloatDivisionIsNearest : Prop :=
  (∀ a b : Word, f32IsFinite a = true → f32IsFinite b = true → f32Mag b ≠ 0 →
    ∃ q, f32Div a b = some q ∧ f32Neg q = (f32Neg a != f32Neg b) ∧
      ((2 ^ 25 - 1) * 2 ^ 253 * f32Mag b ≤ 2 * (f32Mag a * 2 ^ 149) → f32IsInf q = true) ∧
      (2 * (f32Mag a * 2 ^ 149) < (2 ^ 25 - 1) * 2 ^ 253 * f32Mag b →
        f32IsFinite q = true ∧ ∀ u : Word, f32IsFinite u = true →
          ((f32Mag a * 2 ^ 149 : Int) - f32Mag q * f32Mag b).natAbs ≤
            ((f32Mag a * 2 ^ 149 : Int) - f32Mag u * f32Mag b).natAbs ∧
          (((f32Mag a * 2 ^ 149 : Int) - f32Mag q * f32Mag b).natAbs =
            ((f32Mag a * 2 ^ 149 : Int) - f32Mag u * f32Mag b).natAbs →
            f32Mag u = f32Mag q ∨ q.toNat % 2 = 0))) ∧
  ∀ a b : Word,
    (f32IsNaN a = true ∨ f32IsNaN b = true → f32Div a b = none) ∧
    (f32IsInf a = true → f32IsInf b = true → f32Div a b = none) ∧
    (f32IsInf a = true → f32IsFinite b = true →
      ∃ q, f32Div a b = some q ∧ f32IsInf q = true ∧ f32Neg q = (f32Neg a != f32Neg b)) ∧
    (f32IsFinite a = true → f32IsInf b = true →
      ∃ q, f32Div a b = some q ∧ f32IsZero q = true ∧ f32Neg q = (f32Neg a != f32Neg b))

/-- DIV's block form with an int divisor divides the w bytes at the destination's start (45_division.md R304). -/
def Obligations.BlockDivisionResult : Prop :=
  ∀ (s : State) (d x : Operand) (w : Width) (dst lx : Loc), ReadyBlock s d x w dst lx → lx.isFloat = false →
    readBits s lx ≠ 0 →
    dst.bits = 8 * w.bytes ∧
    ∃ t, exec (.divW d x w) s = .next t ∧ readBits t dst = readBits s dst / readBits s lx ∧
      OnlyZeroSet s t (readBits t dst = 0) ∧ dst.Frame s t

/-- With an integer immediate divisor y, N repetitions of DIV give `v / y^N`, with Zero from the last quotient; N = 0
changes nothing (45_division.md R291, R305; 40_engine.md R169). -/
def Obligations.RepeatedDivisionByImmediate : Prop :=
  ∀ (s : State) (d n : Operand) (ty : TypeCode) (y : Word) (w : Width) (dst c : Loc),
    ReadyBlock s d (.imm ty y) w dst (.imm ty y) → ty.isFloat = false → y ≠ 0 → n.fits .cnt = true →
    resolve s n = .ok c →
    ∃ t, exec (.divWN d (.imm ty y) w n) s = .next t ∧
      readBits t dst = readBits s dst / y.toNat ^ readBits s c ∧
      (readBits s c = 0 → t = s) ∧ (1 ≤ readBits s c → OnlyZeroSet s t (readBits t dst = 0)) ∧ dst.Frame s t

/-- A repeat form with N from 1 up is N executions of its single form in sequence, ending where one faults with the
earlier ones' effects kept; with N = 0 it changes nothing. This holds for every source, immediate or not, also one
whose address or value the iterations change (40_engine.md R169, 45_division.md R305, R306, 44_shift.md R276, R277,
60_exceptions.md R342). That SL with a float immediate count outside the range of 40_engine.md R173 takes a draw of its
own in each iteration, as the sequence does, is the model's choice (log 25). So is the equality wherever an iteration
takes a draw (a division whose result is a NaN or out of range, a shift count out of range): both sides draw the same
words only because the model's n-th draw depends on n alone (log 8), and of hardware it holds there only up to the
values drawn. -/
def Obligations.RepeatEqualsSequence : Prop :=
  ∀ (s : State) (d x n : Operand) (w : Width) (c : Loc), s.status = .running → n.fits .cnt = true →
    d.fits .bdest = true → x.fits .any = true → resolve s n = .ok c →
    (1 ≤ readBits s c →
      exec (.divWN d x w n) s = runRepeated (exec (.divW d x w)) (readBits s c) s ∧
      exec (.slWN d x w n) s = runRepeated (exec (.slW d x w)) (readBits s c) s) ∧
    (readBits s c = 0 → ∀ dst lx, resolveBlock s w d = .ok dst → resolve s x = .ok lx →
      exec (.divWN d x w n) s = .next s ∧ exec (.slWN d x w n) s = .next s)

/-- Whatever the source, and also where an iteration faults, a repeat form changes no register and no byte of memory
outside its destination's w bytes; pc stays, SL's flags stay, and DIV's relational flags stay (40_engine.md R169,
44_shift.md R273, 45_division.md R291; 60_exceptions.md R342). -/
def Obligations.RepeatWritesOnlyDestination : Prop :=
  ∀ (s : State) (d x n : Operand) (w : Width) (dst lx c : Loc), ReadyBlock s d x w dst lx → n.fits .cnt = true →
    resolve s n = .ok c →
    ∀ mk ∈ [Instr.slWN, .divWN], ∃ t, exec (mk d x w n) s = .next t ∧
      (∀ r, ¬dst.ownsReg r → t.readReg r = s.readReg r) ∧ (∀ j, t.getBits j = s.getBits j) ∧
      (∀ a, ¬dst.ownsByte a → t.mem.read a = s.mem.read a) ∧ t.pc = s.pc ∧ t.memSize = s.memSize ∧
      SameRelational s t ∧ (writesZero (mk d x w n) = false → t.flags = s.flags)

/-! ### Fixed function and BREAK -/

/-- RGB2HSB writes `RGB2HSB_FN` of the source's low 24 bits, cut to the destination's width, and no flag
(46_fixed_function.md R321 to R323). The function is free: this holds for every one (log 11). -/
def Obligations.Rgb2hsbMovesBits : Prop :=
  ∀ (s : State) (d x : Operand) (ld lx : Loc), Ready .loc .isrc s d x ld lx →
    ∃ t, exec (.rgb2hsb d x) s = .next t ∧
      readBits t ld = (Config.rgb2hsbFn (BitVec.ofNat 24 (readBits s lx))).toNat % 2 ^ ld.bits ∧
      t.flags = s.flags ∧ ld.Frame s t

/-- A BREAK at pc ends the run Halted and changes nothing else: pc keeps its address (40_engine.md R180). -/
def Obligations.BreakHalts : Prop :=
  (∀ s : State, exec .brk s = .next { s with status := .halted }) ∧
  ∀ s : State, s.status = .running → s.pc.toNat < s.memSize → s.mem.read s.pc.toNat = 0x16 →
    step s = .next { s with status := .halted }
end

