-- ==== Sys2Proof/Laws/Bytes.lean ====
section
/-! SUPPORT. The laws of `be`, `beBytes`, `sext` and `residue`. -/

namespace Sys2Proof

theorem pow256_eq (n : Nat) : 256 ^ n = 2 ^ (8 * n) := by
  rw [Nat.pow_mul]

@[simp] theorem be_nil : be [] = 0 := rfl

@[simp] theorem be_cons (b : Byte) (bs : List Byte) : be (b :: bs) = b.toNat * 256 ^ bs.length + be bs := rfl

@[simp] theorem beBytes_zero (v : Nat) : beBytes 0 v = [] := rfl

theorem beBytes_succ (n v : Nat) : beBytes (n + 1) v = BitVec.ofNat 8 (v / 256 ^ n) :: beBytes n v := rfl

@[simp] theorem beBytes_length (n v : Nat) : (beBytes n v).length = n := by
  induction n with
  | zero => rfl
  | succ n ih => simp [beBytes_succ, ih]

theorem be_lt (bs : List Byte) : be bs < 256 ^ bs.length := by
  induction bs with
  | nil => simp
  | cons b bs ih =>
    have hb : b.toNat < 256 := b.isLt
    have : b.toNat * 256 ^ bs.length + 256 ^ bs.length ≤ 256 * 256 ^ bs.length := by
      rw [← Nat.succ_mul]; exact Nat.mul_le_mul_right _ hb
    simp only [be_cons, List.length_cons, Nat.pow_succ]
    omega

/-- Writing then reading n bytes keeps the value modulo 2^(8n) (10_state.md R34, 20_memory.md R73). -/
theorem be_beBytes (n v : Nat) : be (beBytes n v) = v % 256 ^ n := by
  induction n with
  | zero => simp [Nat.mod_one]
  | succ n ih =>
    simp only [beBytes_succ, be_cons, beBytes_length, ih, BitVec.toNat_ofNat, Nat.reducePow]
    rw [Nat.pow_succ, Nat.mod_mul, Nat.mul_comm, Nat.add_comm]

/-- Reading then writing a byte sequence gives it back. -/
theorem beBytes_be (bs : List Byte) : beBytes bs.length (be bs) = bs := by
  suffices h : ∀ (bs : List Byte) (c : Nat), beBytes bs.length (c * 256 ^ bs.length + be bs) = bs by
    simpa using h bs 0
  intro bs
  induction bs with
  | nil => simp
  | cons b bs ih =>
    intro c
    have hlt := be_lt bs
    have hpos : 0 < 256 ^ bs.length := by positivity
    simp only [List.length_cons, beBytes_succ, be_cons]
    have e : c * 256 ^ (bs.length + 1) + (b.toNat * 256 ^ bs.length + be bs)
        = (c * 256 + b.toNat) * 256 ^ bs.length + be bs := by
      rw [Nat.pow_succ]; ring
    rw [e, ih (c * 256 + b.toNat)]
    congr 1
    rw [Nat.add_comm, Nat.add_mul_div_right _ _ hpos, Nat.div_eq_of_lt hlt]
    apply BitVec.eq_of_toNat_eq
    have hb : b.toNat < 256 := b.isLt
    simp only [BitVec.toNat_ofNat, Nat.reducePow]
    omega

/-- Byte k of n, counted from the most significant. -/
theorem beBytes_getElem? (n v k : Nat) (h : k < n) :
    (beBytes n v)[k]? = some (BitVec.ofNat 8 (v / 256 ^ (n - 1 - k))) := by
  induction n generalizing k with
  | zero => omega
  | succ n ih =>
    cases k with
    | zero => simp [beBytes_succ]
    | succ k =>
      rw [beBytes_succ, List.getElem?_cons_succ, ih k (by omega)]
      congr 4
      omega

theorem residue_lt (n : Nat) (x : Int) : residue n x < 2 ^ n := by
  have h1 : (0 : Int) < 2 ^ n := by positivity
  have h2 := Int.emod_lt_of_pos x h1
  have h3 := Int.emod_nonneg x h1.ne'
  unfold residue
  zify [h3]
  rw [Int.toNat_of_nonneg h3]
  exact h2

@[simp] theorem residue_natCast (n v : Nat) : residue n (v : Int) = v % 2 ^ n := by
  unfold residue
  norm_cast

end Sys2Proof
end

