-- ==== Sys2Proof/Laws/Memory.lean ====
section
/-! SUPPORT. The laws of memory: a read after a write, the canonical form and the bound kept by every operation. -/

namespace Sys2Proof.Machine

theorem Memory.read_entry (m : Memory) (a a' : Nat) (b : Byte) (h : ∀ c ∈ m, a < c.1) :
    Memory.read (Memory.entry a b m) a' = if a = a' then b else Memory.read m a' := by
  have hm : Memory.read m a = Config.unlistedByte := by
    induction m with
    | nil => rfl
    | cons c m ih =>
      have : c.1 ≠ a := by have := h c (by simp); omega
      simp only [Memory.read, if_neg this]
      exact ih fun c hc => h c (List.mem_cons_of_mem _ hc)
  unfold Memory.entry
  split
  · rename_i hb
    split
    · rename_i ha; rw [← ha, hm, hb]
    · rfl
  · rfl

/-- The addresses of a canonical memory lie above its bound. -/
theorem Memory.wfFrom_above {lo : Option Nat} {m : Memory} (h : Memory.wfFrom lo m = true) :
    ∀ l, lo = some l → ∀ c ∈ m, l < c.1 := by
  induction m generalizing lo with
  | nil => simp
  | cons c m ih =>
    obtain ⟨k, v⟩ := c
    simp only [Memory.wfFrom, Bool.and_eq_true] at h
    intro l hl c hc
    subst hl
    have hk : l < k := by simpa using h.1.1
    rcases List.mem_cons.1 hc with rfl | hc
    · exact hk
    · exact hk.trans (ih h.2 k rfl c hc)

theorem Memory.wfFrom_weaken {lo lo' : Option Nat} {m : Memory} (h : Memory.wfFrom lo m = true)
    (hl : ∀ l, lo' = some l → ∀ c ∈ m, l < c.1) : Memory.wfFrom lo' m = true := by
  cases m with
  | nil => rfl
  | cons c m =>
    obtain ⟨k, v⟩ := c
    simp only [Memory.wfFrom, Bool.and_eq_true] at h ⊢
    refine ⟨⟨?_, h.1.2⟩, h.2⟩
    cases lo' with
    | none => rfl
    | some l => simpa using hl l rfl (k, v) (by simp)

theorem Memory.wfFrom_entry {lo : Option Nat} {m : Memory} {a : Nat} {b : Byte}
    (h : Memory.wfFrom (some a) m = true) (hlo : ∀ l, lo = some l → l < a) :
    Memory.wfFrom lo (Memory.entry a b m) = true := by
  unfold Memory.entry
  split
  · exact Memory.wfFrom_weaken h fun l hl c hc => (hlo l hl).trans (Memory.wfFrom_above h a rfl c hc)
  · rename_i hb
    simp only [Memory.wfFrom, Bool.and_eq_true, h, and_true]
    refine ⟨?_, by simpa using hb⟩
    cases lo with
    | none => rfl
    | some l => simpa using hlo l rfl

/-- A write keeps the canonical form, above any bound below the address written. -/
theorem Memory.wfFrom_write {lo : Option Nat} {m : Memory} {a : Nat} {b : Byte} (h : Memory.wfFrom lo m = true)
    (hlo : ∀ l, lo = some l → l < a) : Memory.wfFrom lo (Memory.write m a b) = true := by
  induction m generalizing lo with
  | nil => exact Memory.wfFrom_entry (by rfl) hlo
  | cons c m ih =>
    obtain ⟨k, v⟩ := c
    have h' := h
    simp only [Memory.wfFrom, Bool.and_eq_true] at h
    unfold Memory.write
    split
    · rename_i hak
      refine Memory.wfFrom_entry ?_ hlo
      simp only [Memory.wfFrom, Bool.and_eq_true]
      exact ⟨⟨by simpa using hak, h.1.2⟩, h.2⟩
    · split
      · rename_i _ hak
        subst hak
        exact Memory.wfFrom_entry h.2 hlo
      · rename_i h1 h2
        simp only [Memory.wfFrom, Bool.and_eq_true]
        refine ⟨h.1, ih h.2 ?_⟩
        intro l hl
        cases hl
        omega

/-- Every write keeps the canonical form. -/
theorem Memory.write_wf {m : Memory} (h : m.wf = true) (a : Nat) (b : Byte) : (m.write a b).wf = true :=
  Memory.wfFrom_write h (by simp)

theorem Memory.writeBytes_wf {m : Memory} (h : m.wf = true) (a : Nat) (bs : List Byte) :
    (m.writeBytes a bs).wf = true := by
  induction bs generalizing m a with
  | nil => exact h
  | cons b bs ih => exact ih (Memory.write_wf h a b) (a + 1)

theorem Memory.within_entry {m : Memory} {size a : Nat} {b : Byte} (h : m.within size = true) (ha : a < size) :
    Memory.within (Memory.entry a b m) size = true := by
  unfold Memory.entry
  split
  · exact h
  · simpa [Memory.within, ha] using h

/-- Every write inside the backing store keeps memory inside it. -/
theorem Memory.write_within {m : Memory} {size : Nat} (h : m.within size = true) {a : Nat} (ha : a < size)
    (b : Byte) : (m.write a b).within size = true := by
  induction m with
  | nil => exact Memory.within_entry h ha
  | cons c m ih =>
    obtain ⟨k, v⟩ := c
    have h' : k < size ∧ Memory.within m size = true := by simpa [Memory.within] using h
    unfold Memory.write
    split
    · exact Memory.within_entry h ha
    · split
      · exact Memory.within_entry h'.2 ha
      · have := ih h'.2
        simp only [Memory.within, List.all_cons, Bool.and_eq_true, decide_eq_true_eq]
        exact ⟨h'.1, this⟩

theorem Memory.writeBytes_within {m : Memory} {size : Nat} (h : m.within size = true) {a : Nat} (bs : List Byte)
    (ha : a + bs.length ≤ size) : (m.writeBytes a bs).within size = true := by
  induction bs generalizing m a with
  | nil => exact h
  | cons b bs ih =>
    simp only [List.length_cons] at ha
    exact ih (Memory.write_within h (by omega) b) (by omega)

/-- A read after a write: the byte written, and every other byte as before. -/
theorem Memory.read_write_from {lo : Option Nat} {m : Memory} (h : Memory.wfFrom lo m = true) (a a' : Nat)
    (b : Byte) : (Memory.write m a b).read a' = if a = a' then b else m.read a' := by
  induction m generalizing lo with
  | nil => exact Memory.read_entry [] a a' b (by simp)
  | cons c m ih =>
    obtain ⟨k, v⟩ := c
    have hm : Memory.wfFrom (some k) m = true := by
      simp only [Memory.wfFrom, Bool.and_eq_true] at h; exact h.2
    have habove := Memory.wfFrom_above hm k rfl
    unfold Memory.write
    split
    · rename_i hak
      rw [Memory.read_entry]
      intro c hc
      rcases List.mem_cons.1 hc with rfl | hc
      · exact hak
      · exact hak.trans (habove c hc)
    · split
      · rename_i _ hak
        subst hak
        rw [Memory.read_entry _ _ _ _ habove]
        by_cases e : a = a'
        · simp [e]
        · simp [Memory.read, e]
      · rename_i h1 h2
        simp only [Memory.read]
        rw [ih hm]
        by_cases e : k = a'
        · have : a ≠ a' := by omega
          simp [e, this]
        · simp [e]

theorem Memory.read_write {m : Memory} (h : m.wf = true) (a a' : Nat) (b : Byte) :
    (m.write a b).read a' = if a = a' then b else m.read a' :=
  Memory.read_write_from h a a' b

/-- Reading one byte after writing a sequence: inside, the byte of the sequence; outside, as before. -/
theorem Memory.read_writeBytes {m : Memory} (h : m.wf = true) (a a' : Nat) (bs : List Byte) :
    (m.writeBytes a bs).read a' = if a ≤ a' then (bs[a' - a]?).getD (m.read a') else m.read a' := by
  induction bs generalizing m a with
  | nil => simp [Memory.writeBytes]
  | cons b bs ih =>
    rw [Memory.writeBytes, ih (Memory.write_wf h a b), Memory.read_write h]
    by_cases h1 : a + 1 ≤ a'
    · have h2 : a ≤ a' := by omega
      have h3 : a ≠ a' := by omega
      have h4 : a' - a = (a' - (a + 1)) + 1 := by omega
      rw [if_pos h1, if_pos h2, if_neg h3, h4, List.getElem?_cons_succ]
    · by_cases h2 : a = a'
      · subst h2; simp
      · have h3 : ¬ a ≤ a' := by omega
        simp [h1, h2, h3]

theorem Memory.setBytes_wf {m : Memory} (h : m.wf = true) (cs : List Host.Cell) : (m.setBytes cs).wf = true := by
  induction cs generalizing m with
  | nil => exact h
  | cons c cs ih => exact ih (Memory.write_wf h c.1 c.2)

theorem Memory.setBytes_within {m : Memory} {size : Nat} (h : m.within size = true) {cs : List Host.Cell}
    (hc : ∀ c ∈ cs, c.1 < size) : (m.setBytes cs).within size = true := by
  induction cs generalizing m with
  | nil => exact h
  | cons c cs ih =>
    exact ih (Memory.write_within h (hc c (by simp)) c.2) fun d hd => hc d (List.mem_cons_of_mem _ hd)

/-- Setting bytes leaves every other byte. -/
theorem Memory.read_setBytes_of_notMem {m : Memory} (h : m.wf = true) {cs : List Host.Cell} {a : Nat}
    (ha : ∀ c ∈ cs, c.1 ≠ a) : (m.setBytes cs).read a = m.read a := by
  induction cs generalizing m with
  | nil => rfl
  | cons c cs ih =>
    rw [Memory.setBytes, ih (Memory.write_wf h c.1 c.2) fun d hd => ha d (List.mem_cons_of_mem _ hd),
      Memory.read_write h, if_neg (ha c (by simp))]

/-- A byte that is set, and not set again later, is read. -/
theorem Memory.read_setBytes_of_last {m : Memory} (h : m.wf = true) (pre post : List Host.Cell) (a : Nat) (b : Byte)
    (ha : ∀ c ∈ post, c.1 ≠ a) : (m.setBytes (pre ++ (a, b) :: post)).read a = b := by
  induction pre generalizing m with
  | nil =>
    rw [List.nil_append, Memory.setBytes, Memory.read_setBytes_of_notMem (Memory.write_wf h a b) ha,
      Memory.read_write h, if_pos rfl]
  | cons c pre ih => exact ih (Memory.write_wf h c.1 c.2)

@[simp] theorem Memory.readBytes_length (m : Memory) (a n : Nat) : (m.readBytes a n).length = n := by
  induction n generalizing a with
  | zero => rfl
  | succ n ih => simp [Memory.readBytes, ih]

theorem Memory.readBytes_getElem? (m : Memory) (a n k : Nat) (h : k < n) :
    (m.readBytes a n)[k]? = some (m.read (a + k)) := by
  induction n generalizing a k with
  | zero => omega
  | succ n ih =>
    cases k with
    | zero => simp [Memory.readBytes]
    | succ k =>
      rw [Memory.readBytes, List.getElem?_cons_succ, ih (a + 1) k (by omega)]
      congr 2
      omega

/-- Reading back the bytes written. -/
theorem Memory.readBytes_writeBytes {m : Memory} (h : m.wf = true) (a : Nat) (bs : List Byte) :
    (m.writeBytes a bs).readBytes a bs.length = bs := by
  apply List.ext_getElem?
  intro k
  by_cases hk : k < bs.length
  · rw [Memory.readBytes_getElem? _ _ _ _ hk, Memory.read_writeBytes h]
    simp [hk]
  · rw [List.getElem?_eq_none (by simpa using hk), List.getElem?_eq_none (by simpa using hk)]

end Sys2Proof.Machine
end

