-- ==== Sys2Proof/Laws/State.lean ====
section
/-! SUPPORT. One lemma per field per update of State, so that no proof unfolds a record update. -/

namespace Sys2Proof.Machine

variable (s : State)

section writeReg

@[simp] theorem State.writeReg_regs (i : Fin 26) (v : Byte) : (s.writeReg i v).regs = s.regs.set i v := rfl
@[simp] theorem State.writeReg_fregs (i : Fin 26) (v : Byte) : (s.writeReg i v).fregs = s.fregs := rfl
@[simp] theorem State.writeReg_flags (i : Fin 26) (v : Byte) : (s.writeReg i v).flags = s.flags := rfl
@[simp] theorem State.writeReg_pc (i : Fin 26) (v : Byte) : (s.writeReg i v).pc = s.pc := rfl
@[simp] theorem State.writeReg_status (i : Fin 26) (v : Byte) : (s.writeReg i v).status = s.status := rfl
@[simp] theorem State.writeReg_mem (i : Fin 26) (v : Byte) : (s.writeReg i v).mem = s.mem := rfl
@[simp] theorem State.writeReg_memSize (i : Fin 26) (v : Byte) : (s.writeReg i v).memSize = s.memSize := rfl
@[simp] theorem State.writeReg_draws (i : Fin 26) (v : Byte) : (s.writeReg i v).draws = s.draws := rfl

end writeReg

section setBits

@[simp] theorem State.setBits_regs (j : Fin 16) (v : Word) : (s.setBits j v).regs = s.regs := rfl
@[simp] theorem State.setBits_fregs (j : Fin 16) (v : Word) : (s.setBits j v).fregs = s.fregs.set j v := rfl
@[simp] theorem State.setBits_flags (j : Fin 16) (v : Word) : (s.setBits j v).flags = s.flags := rfl
@[simp] theorem State.setBits_pc (j : Fin 16) (v : Word) : (s.setBits j v).pc = s.pc := rfl
@[simp] theorem State.setBits_status (j : Fin 16) (v : Word) : (s.setBits j v).status = s.status := rfl
@[simp] theorem State.setBits_mem (j : Fin 16) (v : Word) : (s.setBits j v).mem = s.mem := rfl
@[simp] theorem State.setBits_memSize (j : Fin 16) (v : Word) : (s.setBits j v).memSize = s.memSize := rfl
@[simp] theorem State.setBits_draws (j : Fin 16) (v : Word) : (s.setBits j v).draws = s.draws := rfl

end setBits

section store

@[simp] theorem State.store_regs (a : Word) (n v : Nat) : (s.store a n v).regs = s.regs := rfl
@[simp] theorem State.store_fregs (a : Word) (n v : Nat) : (s.store a n v).fregs = s.fregs := rfl
@[simp] theorem State.store_flags (a : Word) (n v : Nat) : (s.store a n v).flags = s.flags := rfl
@[simp] theorem State.store_pc (a : Word) (n v : Nat) : (s.store a n v).pc = s.pc := rfl
@[simp] theorem State.store_status (a : Word) (n v : Nat) : (s.store a n v).status = s.status := rfl
@[simp] theorem State.store_mem (a : Word) (n v : Nat) : (s.store a n v).mem = s.mem.writeBytes a.toNat (beBytes n v) := rfl
@[simp] theorem State.store_memSize (a : Word) (n v : Nat) : (s.store a n v).memSize = s.memSize := rfl
@[simp] theorem State.store_draws (a : Word) (n v : Nat) : (s.store a n v).draws = s.draws := rfl

end store

section setFlags

@[simp] theorem State.setFlags_regs (f : Flags) : (s.setFlags f).regs = s.regs := rfl
@[simp] theorem State.setFlags_fregs (f : Flags) : (s.setFlags f).fregs = s.fregs := rfl
@[simp] theorem State.setFlags_flags (f : Flags) : (s.setFlags f).flags = f := rfl
@[simp] theorem State.setFlags_pc (f : Flags) : (s.setFlags f).pc = s.pc := rfl
@[simp] theorem State.setFlags_status (f : Flags) : (s.setFlags f).status = s.status := rfl
@[simp] theorem State.setFlags_mem (f : Flags) : (s.setFlags f).mem = s.mem := rfl
@[simp] theorem State.setFlags_memSize (f : Flags) : (s.setFlags f).memSize = s.memSize := rfl
@[simp] theorem State.setFlags_draws (f : Flags) : (s.setFlags f).draws = s.draws := rfl

end setFlags

section setZero

@[simp] theorem State.setZero_regs (z : Bool) : (s.setZero z).regs = s.regs := rfl
@[simp] theorem State.setZero_fregs (z : Bool) : (s.setZero z).fregs = s.fregs := rfl
@[simp] theorem State.setZero_flags (z : Bool) : (s.setZero z).flags = s.flags.setZero z := rfl
@[simp] theorem State.setZero_pc (z : Bool) : (s.setZero z).pc = s.pc := rfl
@[simp] theorem State.setZero_status (z : Bool) : (s.setZero z).status = s.status := rfl
@[simp] theorem State.setZero_mem (z : Bool) : (s.setZero z).mem = s.mem := rfl
@[simp] theorem State.setZero_memSize (z : Bool) : (s.setZero z).memSize = s.memSize := rfl
@[simp] theorem State.setZero_draws (z : Bool) : (s.setZero z).draws = s.draws := rfl

end setZero

section advance

@[simp] theorem State.advance_regs (len : Nat) : (s.advance len).regs = s.regs := rfl
@[simp] theorem State.advance_fregs (len : Nat) : (s.advance len).fregs = s.fregs := rfl
@[simp] theorem State.advance_flags (len : Nat) : (s.advance len).flags = s.flags := rfl
@[simp] theorem State.advance_pc (len : Nat) : (s.advance len).pc = s.pc + BitVec.ofNat 32 len := rfl
@[simp] theorem State.advance_status (len : Nat) : (s.advance len).status = s.status := rfl
@[simp] theorem State.advance_mem (len : Nat) : (s.advance len).mem = s.mem := rfl
@[simp] theorem State.advance_memSize (len : Nat) : (s.advance len).memSize = s.memSize := rfl
@[simp] theorem State.advance_draws (len : Nat) : (s.advance len).draws = s.draws := rfl

end advance

section draw

@[simp] theorem State.draw_regs : s.draw.2.regs = s.regs := rfl
@[simp] theorem State.draw_fregs : s.draw.2.fregs = s.fregs := rfl
@[simp] theorem State.draw_flags : s.draw.2.flags = s.flags := rfl
@[simp] theorem State.draw_pc : s.draw.2.pc = s.pc := rfl
@[simp] theorem State.draw_status : s.draw.2.status = s.status := rfl
@[simp] theorem State.draw_mem : s.draw.2.mem = s.mem := rfl
@[simp] theorem State.draw_memSize : s.draw.2.memSize = s.memSize := rfl
@[simp] theorem State.draw_draws : s.draw.2.draws = s.draws + 1 := rfl

end draw

section raiseFault

@[simp] theorem State.raiseFault_regs (f : FaultRecord) : (s.raiseFault f).regs = s.regs := rfl
@[simp] theorem State.raiseFault_fregs (f : FaultRecord) : (s.raiseFault f).fregs = s.fregs := rfl
@[simp] theorem State.raiseFault_flags (f : FaultRecord) : (s.raiseFault f).flags = s.flags := rfl
@[simp] theorem State.raiseFault_pc (f : FaultRecord) : (s.raiseFault f).pc = s.pc := rfl
@[simp] theorem State.raiseFault_status (f : FaultRecord) : (s.raiseFault f).status = .faulted f := rfl
@[simp] theorem State.raiseFault_mem (f : FaultRecord) : (s.raiseFault f).mem = s.mem := rfl
@[simp] theorem State.raiseFault_memSize (f : FaultRecord) : (s.raiseFault f).memSize = s.memSize := rfl
@[simp] theorem State.raiseFault_draws (f : FaultRecord) : (s.raiseFault f).draws = s.draws := rfl

end raiseFault

section halt

@[simp] theorem State.halt_regs : s.halt.regs = s.regs := rfl
@[simp] theorem State.halt_fregs : s.halt.fregs = s.fregs := rfl
@[simp] theorem State.halt_flags : s.halt.flags = s.flags := rfl
@[simp] theorem State.halt_pc : s.halt.pc = s.pc := rfl
@[simp] theorem State.halt_status : s.halt.status = .halted := rfl
@[simp] theorem State.halt_mem : s.halt.mem = s.mem := rfl
@[simp] theorem State.halt_memSize : s.halt.memSize = s.memSize := rfl
@[simp] theorem State.halt_draws : s.halt.draws = s.draws := rfl

end halt

@[simp] theorem State.draw_fst : s.draw.1 = Config.draw s.draws := rfl

@[simp] theorem Flags.setZero_zero (f : Flags) (z : Bool) : (f.setZero z).zero = z := rfl
@[simp] theorem Flags.setZero_eq (f : Flags) (z : Bool) : (f.setZero z).eq = f.eq := rfl
@[simp] theorem Flags.setZero_gt (f : Flags) (z : Bool) : (f.setZero z).gt = f.gt := rfl
@[simp] theorem Flags.setZero_lt (f : Flags) (z : Bool) : (f.setZero z).lt = f.lt := rfl
@[simp] theorem Flags.setZero_gte (f : Flags) (z : Bool) : (f.setZero z).gte = f.gte := rfl
@[simp] theorem Flags.setZero_lte (f : Flags) (z : Bool) : (f.setZero z).lte = f.lte := rfl
@[simp] theorem Flags.setZero_setZero (f : Flags) (y z : Bool) : (f.setZero y).setZero z = f.setZero z := rfl
@[simp] theorem Flags.setZero_consistent (f : Flags) (z : Bool) : (f.setZero z).consistent = f.consistent := rfl

theorem State.readReg_congr {s t : State} (h : t.regs = s.regs) (i : Fin 26) : t.readReg i = s.readReg i := by
  unfold State.readReg; rw [h]

theorem State.getBits_congr {s t : State} (h : t.fregs = s.fregs) (j : Fin 16) : t.getBits j = s.getBits j := by
  unfold State.getBits; rw [h]

/-- Writing a register: its own cell, and no other. -/
theorem State.readReg_writeReg (i k : Fin 26) (v : Byte) :
    (s.writeReg i v).readReg k = if i = k then v else s.readReg k := by
  simp [State.readReg, State.writeReg, Vector.get_eq_getElem, Vector.getElem_set, Fin.ext_iff]

/-- Writing a float register: its own cell, and no other. -/
theorem State.getBits_setBits (j k : Fin 16) (v : Word) :
    (s.setBits j v).getBits k = if j = k then v else s.getBits k := by
  simp [State.getBits, State.setBits, Vector.get_eq_getElem, Vector.getElem_set, Fin.ext_iff]

end Sys2Proof.Machine
end

