-- ==== Sys2Proof/Laws/Ops.lean ====
section
/-! SUPPORT. The laws of the operations over register chains and memory: what a read after a write gives, and what a
write leaves alone. -/

namespace Sys2Proof.Machine

@[simp] theorem State.readCells_length (s : State) (i : Fin 26) (n : Nat) : (s.readCells i n).length = n := by
  induction n generalizing i with
  | zero => rfl
  | succ n ih => simp [State.readCells, ih]

theorem State.readChain_lt (s : State) (i : Fin 26) (w : Nat) : s.readChain i w < 256 ^ w := by
  simpa [State.readChain] using be_lt (s.readCells i w)

theorem State.load_lt (s : State) (a : Word) (n : Nat) : s.load a n < 256 ^ n := by
  simpa [State.load] using be_lt (s.mem.readBytes a.toNat n)

/-- Register cells after writing a run of at most 26 cells: inside the run, the byte of the run; outside, as before. -/
theorem State.readReg_writeCells (s : State) (i r : Fin 26) (bs : List Byte) (h : bs.length ≤ 26) :
    (s.writeCells i bs).readReg r = (bs[(r - i).val]?).getD (s.readReg r) := by
  induction bs generalizing s i with
  | nil => simp [State.writeCells]
  | cons b bs ih =>
    simp only [List.length_cons] at h
    rw [State.writeCells, ih _ _ (by omega), State.readReg_writeReg]
    by_cases e : i = r
    · subst e
      have h1 : ((i - (i + 1) : Fin 26)).val = 25 := by omega
      have h2 : ((i - i : Fin 26)).val = 0 := by omega
      rw [h1, h2, List.getElem?_eq_none (by omega)]
      simp
    · have h1 : ((r - i : Fin 26)).val = ((r - (i + 1) : Fin 26)).val + 1 := by omega
      rw [h1, List.getElem?_cons_succ, if_neg e]

@[simp] theorem State.writeCells_fregs (s : State) (i : Fin 26) (bs : List Byte) :
    (s.writeCells i bs).fregs = s.fregs := by
  induction bs generalizing s i with
  | nil => rfl
  | cons b bs ih => simp [State.writeCells, ih]

@[simp] theorem State.writeCells_flags (s : State) (i : Fin 26) (bs : List Byte) :
    (s.writeCells i bs).flags = s.flags := by
  induction bs generalizing s i with
  | nil => rfl
  | cons b bs ih => simp [State.writeCells, ih]

@[simp] theorem State.writeCells_pc (s : State) (i : Fin 26) (bs : List Byte) : (s.writeCells i bs).pc = s.pc := by
  induction bs generalizing s i with
  | nil => rfl
  | cons b bs ih => simp [State.writeCells, ih]

@[simp] theorem State.writeCells_status (s : State) (i : Fin 26) (bs : List Byte) :
    (s.writeCells i bs).status = s.status := by
  induction bs generalizing s i with
  | nil => rfl
  | cons b bs ih => simp [State.writeCells, ih]

@[simp] theorem State.writeCells_mem (s : State) (i : Fin 26) (bs : List Byte) :
    (s.writeCells i bs).mem = s.mem := by
  induction bs generalizing s i with
  | nil => rfl
  | cons b bs ih => simp [State.writeCells, ih]

@[simp] theorem State.writeCells_memSize (s : State) (i : Fin 26) (bs : List Byte) :
    (s.writeCells i bs).memSize = s.memSize := by
  induction bs generalizing s i with
  | nil => rfl
  | cons b bs ih => simp [State.writeCells, ih]

@[simp] theorem State.writeCells_draws (s : State) (i : Fin 26) (bs : List Byte) :
    (s.writeCells i bs).draws = s.draws := by
  induction bs generalizing s i with
  | nil => rfl
  | cons b bs ih => simp [State.writeCells, ih]

theorem State.readCells_getElem? (s : State) (i : Fin 26) (n k : Nat) (h : k < n) :
    (s.readCells i n)[k]? = some (s.readReg (i + Fin.ofNat 26 k)) := by
  induction n generalizing i k with
  | zero => omega
  | succ n ih =>
    cases k with
    | zero => simp [State.readCells]
    | succ k =>
      rw [State.readCells, List.getElem?_cons_succ, ih (i + 1) k (by omega)]
      congr 2
      ext
      simp only [Fin.val_add, Fin.ofNat, Fin.val_one]
      omega

/-- Each cell of a chain is its byte of the chain's value (10_state.md R33). -/
theorem State.readReg_of_readChain (s : State) (i : Fin 26) (n k : Nat) (h : k < n) :
    s.readReg (i + Fin.ofNat 26 k) = BitVec.ofNat 8 (s.readChain i n / 2 ^ (8 * (n - 1 - k))) := by
  have e := beBytes_be (s.readCells i n)
  have hk := beBytes_getElem? n (be (s.readCells i n)) k h
  rw [s.readCells_length] at e
  rw [e, s.readCells_getElem? i n k h, pow256_eq] at hk
  exact Option.some.inj hk

/-- Each byte of an access is its byte of the value read (20_memory.md R72). -/
theorem State.read_of_load (s : State) (a : Word) (n k : Nat) (h : k < n) :
    s.mem.read (a.toNat + k) = BitVec.ofNat 8 (s.load a n / 2 ^ (8 * (n - 1 - k))) := by
  have e := beBytes_be (s.mem.readBytes a.toNat n)
  have hk := beBytes_getElem? n (be (s.mem.readBytes a.toNat n)) k h
  rw [Memory.readBytes_length] at e
  rw [e, Memory.readBytes_getElem? _ _ _ _ h, pow256_eq] at hk
  exact Option.some.inj hk

/-- Reading back the cells written, for a run that does not meet itself. -/
theorem State.readCells_writeCells (s : State) (i : Fin 26) (bs : List Byte) (h : bs.length ≤ 26) :
    (s.writeCells i bs).readCells i bs.length = bs := by
  apply List.ext_getElem?
  intro k
  by_cases hk : k < bs.length
  · rw [State.readCells_getElem? _ _ _ _ hk, State.readReg_writeCells _ _ _ _ h]
    have : ((i + Fin.ofNat 26 k - i : Fin 26)).val = k := by
      simp only [add_sub_cancel_left, Fin.ofNat]
      omega
    rw [this, List.getElem?_eq_getElem hk, Option.getD_some]
  · rw [List.getElem?_eq_none (by simpa using hk), List.getElem?_eq_none (by simpa using hk)]

theorem State.readCells_congr {s t : State} {i : Fin 26} {n : Nat}
    (h : ∀ k < n, t.readReg (i + Fin.ofNat 26 k) = s.readReg (i + Fin.ofNat 26 k)) :
    t.readCells i n = s.readCells i n := by
  apply List.ext_getElem?
  intro k
  by_cases hk : k < n
  · rw [State.readCells_getElem? _ _ _ _ hk, State.readCells_getElem? _ _ _ _ hk, h k hk]
  · rw [List.getElem?_eq_none (by simpa using hk), List.getElem?_eq_none (by simpa using hk)]

theorem State.readChain_congr {s t : State} (h : t.regs = s.regs) (i : Fin 26) (w : Nat) :
    t.readChain i w = s.readChain i w := by
  unfold State.readChain
  rw [State.readCells_congr fun k _ => State.readReg_congr h _]

theorem State.load_congr {s t : State} (h : t.mem = s.mem) (a : Word) (n : Nat) : t.load a n = s.load a n := by
  unfold State.load; rw [h]

end Sys2Proof.Machine
end

