-- ==== Sys2Proof/Laws/Operands.lean ====
section
/-! SUPPORT. The laws of resolution and of the Location accessors: what resolving can answer, the bound of a read, and
what a write does to its Location and leaves alone. -/

namespace Sys2Proof

theorem Width.bytes_pos (w : Width) : 0 < w.bytes := by cases w <;> decide

theorem Width.bytes_le (w : Width) : w.bytes ≤ 4 := by cases w <;> decide

theorem TypeCode.size_le (t : TypeCode) : t.size ≤ 4 := by cases t <;> decide

theorem TypeCode.size_pos (t : TypeCode) : 0 < t.size := by cases t <;> decide

@[simp] theorem Width.intType_size (w : Width) : w.intType.size = w.bytes := by cases w <;> rfl

@[simp] theorem Width.intType_isFloat (w : Width) : w.intType.isFloat = false := by cases w <;> rfl

end Sys2Proof

namespace Sys2Proof.Machine

theorem Loc.size_le (l : Loc) : l.size ≤ 4 := by
  cases l
  · exact Width.bytes_le _
  · exact Nat.le_refl _
  · exact TypeCode.size_le _
  · exact TypeCode.size_le _

theorem Loc.size_pos (l : Loc) : 0 < l.size := by
  cases l
  · exact Width.bytes_pos _
  · exact Nat.succ_pos _
  · exact TypeCode.size_pos _
  · exact TypeCode.size_pos _

theorem Loc.bits_pos (l : Loc) : 0 < l.bits := by
  have := l.size_pos
  unfold Loc.bits
  omega

/-- A float-domain Location has 32 bits. -/
theorem Loc.bits_of_isFloat {l : Loc} (h : l.isFloat = true) : l.bits = 32 := by
  cases l with
  | reg i w => simp [Loc.isFloat] at h
  | freg j => rfl
  | mem ea t => cases t <;> simp_all [Loc.isFloat, TypeCode.isFloat, Loc.bits, Loc.size, TypeCode.size]
  | imm t raw => cases t <;> simp_all [Loc.isFloat, TypeCode.isFloat, Loc.bits, Loc.size, TypeCode.size]

/-- The bounds check of a memory Location (20_memory.md R93). -/
theorem resolveMem_cases (s : State) (ea : Word) (t : TypeCode) :
    (ea.toNat + t.size ≤ s.memSize ∧ resolveMem s ea t = .ok (.mem ea t)) ∨
    (s.memSize < ea.toNat + t.size ∧ resolveMem s ea t = .error (.memOutOfRange s.pc ea t.size)) := by
  unfold resolveMem State.inRange
  by_cases h : ea.toNat + t.size ≤ s.memSize
  · exact .inl ⟨h, if_pos (decide_eq_true h)⟩
  · exact .inr ⟨by omega, if_neg (by simpa using h)⟩

/-- A memory operand resolves through its effective address, at its own type or at a block form's width. -/
theorem resolve_of_isMem (s : State) {o : Operand} (h : o.isMem = true) :
    ∃ ea t, effectiveAddress s o = some (ea, t) ∧ o.isFloat = t.isFloat ∧ resolve s o = resolveMem s ea t ∧
      ∀ w, resolveBlock s w o = resolveMem s ea w.intType := by
  cases o <;> first | exact ⟨_, _, rfl, rfl, rfl, fun _ => rfl⟩ | simp [Operand.isMem] at h

/-- All that resolving an operand can answer (40_engine.md R165). -/
theorem resolve_cases (s : State) (o : Operand) :
    (∃ c, o = .reg c ∧ resolve s o = .ok (.reg c.start c.width)) ∨
    (∃ j, o = .freg j ∧ resolve s o = .ok (.freg j)) ∨
    (∃ t raw, o = .imm t raw ∧ resolve s o = .ok (.imm t raw)) ∨
    (∃ ea t, o.isMem = true ∧ effectiveAddress s o = some (ea, t) ∧ o.isFloat = t.isFloat ∧
      ((ea.toNat + t.size ≤ s.memSize ∧ resolve s o = .ok (.mem ea t)) ∨
        (s.memSize < ea.toNat + t.size ∧ resolve s o = .error (.memOutOfRange s.pc ea t.size)))) := by
  cases hm : o.isMem with
  | false =>
    cases o <;> simp [Operand.isMem] at hm
    · exact .inl ⟨_, rfl, rfl⟩
    · exact .inr (.inl ⟨_, rfl, rfl⟩)
    · exact .inr (.inr (.inl ⟨_, _, rfl, rfl⟩))
  | true =>
    obtain ⟨ea, t, ha, hf, hr, -⟩ := resolve_of_isMem s hm
    exact .inr (.inr (.inr ⟨ea, t, rfl, ha, hf, hr ▸ resolveMem_cases s ea t⟩))

/-- A resolved Location lies in memory (20_memory.md R93). -/
theorem resolve_inBounds {s : State} {o : Operand} {l : Loc} (h : resolve s o = .ok l) : l.inBounds s := by
  rcases resolve_cases s o with ⟨c, -, e⟩ | ⟨j, -, e⟩ | ⟨t, raw, -, e⟩ | ⟨ea, t, -, -, -, ⟨hb, e⟩ | ⟨-, e⟩⟩ <;>
    rw [e] at h <;> cases h <;> trivial

/-- A resolution fault is MEM_OUT_OF_RANGE at pc (60_exceptions.md R334). -/
theorem resolve_error {s : State} {o : Operand} {f : FaultRecord} (h : resolve s o = .error f) :
    ∃ ea t, effectiveAddress s o = some (ea, t) ∧ s.memSize < ea.toNat + t.size ∧
      f = .memOutOfRange s.pc ea t.size := by
  rcases resolve_cases s o with ⟨c, -, e⟩ | ⟨j, -, e⟩ | ⟨t, raw, -, e⟩ | ⟨ea, t, -, ha, -, ⟨hb, e⟩ | ⟨hb, e⟩⟩ <;>
    rw [e] at h <;> cases h
  exact ⟨ea, t, ha, hb, rfl⟩

/-- The domain of a resolved Location is its operand's (40_engine.md R165). -/
theorem resolve_isFloat {s : State} {o : Operand} {l : Loc} (h : resolve s o = .ok l) :
    l.isFloat = o.isFloat := by
  rcases resolve_cases s o with ⟨c, he, e⟩ | ⟨j, he, e⟩ | ⟨t, raw, he, e⟩ | ⟨ea, t, -, -, hf, ⟨hb, e⟩ | ⟨-, e⟩⟩ <;>
    rw [e] at h <;> cases h <;> first | (subst he; rfl) | exact hf.symm

/-- An operand of class LOC resolves to a Location that can be written. -/
theorem resolve_writable {s : State} {o : Operand} {l : Loc} (h : resolve s o = .ok l) (hi : o.isImm = false) :
    l.writable = true := by
  rcases resolve_cases s o with ⟨c, -, e⟩ | ⟨j, -, e⟩ | ⟨t, raw, he, e⟩ | ⟨ea, t, -, -, -, ⟨hb, e⟩ | ⟨-, e⟩⟩ <;>
    rw [e] at h <;> cases h
  · rfl
  · rfl
  · subst he; simp [Operand.isImm] at hi
  · rfl

/-- Resolution reads the registers, `MEM_SIZE` and pc, and nothing else (20_memory.md R92). -/
theorem resolve_congr {s t : State} (hr : t.regs = s.regs) (hs : t.memSize = s.memSize) (hp : t.pc = s.pc)
    (o : Operand) : resolve t o = resolve s o := by
  have hc : ∀ c, t.chainWord c = s.chainWord c := fun c => by
    unfold State.chainWord State.chain; rw [State.readChain_congr hr]
  cases o <;> simp [resolve, effectiveAddress, resolveMem, State.inRange, hc, hs, hp]

/-- All that resolving a block destination can answer: of class BDEST the first two cases (40_engine.md R169,
60_exceptions.md R334); outside the class, a Location that no decoded instruction has. -/
theorem resolveBlock_cases (s : State) (w : Width) (o : Operand) :
    (∃ c, o = .reg c ∧ resolveBlock s w o = .ok (.reg c.start w)) ∨
    (∃ ea t, o.isMem = true ∧ effectiveAddress s o = some (ea, t) ∧
      ((ea.toNat + w.bytes ≤ s.memSize ∧ resolveBlock s w o = .ok (.mem ea w.intType)) ∨
        (s.memSize < ea.toNat + w.bytes ∧ resolveBlock s w o = .error (.memOutOfRange s.pc ea w.bytes)))) ∨
    (SlotClass.bdest.accepts o = false ∧
      ((∃ j, resolveBlock s w o = .ok (.freg j)) ∨ ∃ t raw, resolveBlock s w o = .ok (.imm t raw))) := by
  cases hm : o.isMem with
  | false =>
    cases o <;> simp [Operand.isMem] at hm
    · exact .inl ⟨_, rfl, rfl⟩
    · exact .inr (.inr ⟨rfl, .inl ⟨_, rfl⟩⟩)
    · exact .inr (.inr ⟨rfl, .inr ⟨_, _, rfl⟩⟩)
  | true =>
    obtain ⟨ea, t, ha, -, -, hr⟩ := resolve_of_isMem s hm
    have h := resolveMem_cases s ea w.intType
    rw [Width.intType_size] at h
    exact .inr (.inl ⟨ea, t, rfl, ha, hr w ▸ h⟩)

/-- Whatever a block destination resolves to lies in memory. -/
theorem resolveBlock_inBounds {s : State} {w : Width} {o : Operand} {l : Loc} (h : resolveBlock s w o = .ok l) :
    l.inBounds s := by
  rcases resolveBlock_cases s w o with ⟨c, -, e⟩ | ⟨ea, t, -, -, ⟨hb, e⟩ | ⟨-, e⟩⟩ | ⟨-, ⟨j, e⟩ | ⟨t, raw, e⟩⟩ <;>
    rw [e] at h <;> cases h <;> first | trivial | simpa [Loc.inBounds] using hb

/-- A resolution fault of a block destination is MEM_OUT_OF_RANGE at pc. -/
theorem resolveBlock_error_pc {s : State} {w : Width} {o : Operand} {f : FaultRecord}
    (h : resolveBlock s w o = .error f) : f.pc = s.pc := by
  rcases resolveBlock_cases s w o with ⟨c, -, e⟩ | ⟨ea, t, -, -, ⟨hb, e⟩ | ⟨-, e⟩⟩ | ⟨-, ⟨j, e⟩ | ⟨t, raw, e⟩⟩ <;>
    rw [e] at h <;> cases h
  rfl

/-- A block destination of class BDEST is an integer Location of the given width that can be written. -/
theorem resolveBlock_shape {s : State} {w : Width} {o : Operand} {l : Loc} (hb : SlotClass.bdest.accepts o = true)
    (h : resolveBlock s w o = .ok l) : l.isFloat = false ∧ l.writable = true ∧ l.size = w.bytes := by
  rcases resolveBlock_cases s w o with ⟨c, -, e⟩ | ⟨ea, t, -, -, ⟨-, e⟩ | ⟨-, e⟩⟩ | ⟨hn, -⟩
  · rw [e] at h; cases h; exact ⟨rfl, rfl, rfl⟩
  · rw [e] at h; cases h; exact ⟨Width.intType_isFloat w, rfl, Width.intType_size w⟩
  · rw [e] at h; cases h
  · rw [hn] at hb; cases hb

theorem resolve_error_pc {s : State} {o : Operand} {f : FaultRecord} (h : resolve s o = .error f) :
    f.pc = s.pc := by
  obtain ⟨ea, t, -, -, rfl⟩ := resolve_error h
  rfl

/-! ### Pairs and triples -/

/-- What resolving two operands can answer (60_exceptions.md R343, item 2). -/
theorem resolve2_cases (s : State) (a b : Operand) :
    (∃ f, resolve s a = .error f ∧ resolve2 s a b = .error f) ∨
    (∃ la f, resolve s a = .ok la ∧ resolve s b = .error f ∧ resolve2 s a b = .error f) ∨
    (∃ la lb, resolve s a = .ok la ∧ resolve s b = .ok lb ∧ resolve2 s a b = .ok (la, lb)) := by
  unfold resolve2
  cases ha : resolve s a with
  | error f => exact .inl ⟨f, rfl, rfl⟩
  | ok la =>
    cases hb : resolve s b with
    | error f => exact .inr (.inl ⟨la, f, rfl, rfl, rfl⟩)
    | ok lb => exact .inr (.inr ⟨la, lb, rfl, rfl, rfl⟩)

theorem resolve2_ok {s : State} {a b : Operand} {la lb : Loc} (ha : resolve s a = .ok la)
    (hb : resolve s b = .ok lb) : resolve2 s a b = .ok (la, lb) := by
  simp [resolve2, ha, hb]

theorem resolve2_error_pc {s : State} {a b : Operand} {f : FaultRecord} (h : resolve2 s a b = .error f) :
    f.pc = s.pc := by
  rcases resolve2_cases s a b with ⟨g, ha, e⟩ | ⟨la, g, -, hb, e⟩ | ⟨la, lb, -, -, e⟩ <;> rw [e] at h <;> cases h
  · exact resolve_error_pc ha
  · exact resolve_error_pc hb

theorem resolve3_ok {s : State} {a b c : Operand} {la lb lc : Loc} (ha : resolve s a = .ok la)
    (hb : resolve s b = .ok lb) (hc : resolve s c = .ok lc) : resolve3 s a b c = .ok (la, lb, lc) := by
  simp [resolve3, resolve2_ok ha hb, hc]

/-- What resolving three operands can answer. -/
theorem resolve3_cases (s : State) (a b c : Operand) :
    (∃ f, f.pc = s.pc ∧ resolve3 s a b c = .error f) ∨
    (∃ la lb lc, resolve s a = .ok la ∧ resolve s b = .ok lb ∧ resolve s c = .ok lc ∧
      resolve3 s a b c = .ok (la, lb, lc)) := by
  rcases resolve2_cases s a b with ⟨f, ha, e⟩ | ⟨la, f, -, hb, e⟩ | ⟨la, lb, ha, hb, e⟩
  · exact .inl ⟨f, resolve_error_pc ha, by simp [resolve3, e]⟩
  · exact .inl ⟨f, resolve_error_pc hb, by simp [resolve3, e]⟩
  · cases hc : resolve s c with
    | error f => exact .inl ⟨f, resolve_error_pc hc, by simp [resolve3, e, hc]⟩
    | ok lc => exact .inr ⟨la, lb, lc, ha, hb, rfl, resolve3_ok ha hb hc⟩

/-! ### Reading and writing a Location -/

/-- A read is within the Location's width; an immediate's is bounded by its well-formedness. -/
theorem readBits_lt {s : State} {l : Loc} (h : l.writable = true) : readBits s l < 2 ^ l.bits := by
  rw [Loc.bits, ← pow256_eq]
  cases l with
  | reg i w => exact State.readChain_lt s i w.bytes
  | freg j => exact (s.getBits j).isLt
  | mem ea t => exact State.load_lt s ea t.size
  | imm t raw => simp [Loc.writable] at h

/-- A read of a resolved well-formed operand is within its width (40_engine.md R165, 30_encoding.md R118). -/
theorem readBits_lt_of_resolve {s : State} {o : Operand} {l : Loc} (hw : o.wf = true) (h : resolve s o = .ok l) :
    readBits s l < 2 ^ l.bits := by
  cases hi : o.isImm with
  | false => exact readBits_lt (resolve_writable h hi)
  | true =>
    cases o <;> simp [Operand.isImm] at hi
    cases h
    rw [Loc.bits, ← pow256_eq]
    simpa [Operand.wf, readBits, Loc.size] using hw

theorem readBits_congr {s t : State} (hr : t.regs = s.regs) (hf : t.fregs = s.fregs) (hm : t.mem = s.mem)
    (l : Loc) : readBits t l = readBits s l := by
  cases l with
  | reg i w => exact State.readChain_congr hr i w.bytes
  | freg j => simp only [readBits, State.getBits_congr hf]
  | mem ea t => exact State.load_congr hm ea t.size
  | imm t raw => rfl

@[simp] theorem readBits_draw (s : State) (l : Loc) : readBits s.draw.2 l = readBits s l :=
  readBits_congr (s := s) (t := s.draw.2) rfl rfl rfl l

@[simp] theorem readBits_setZero (s : State) (z : Bool) (l : Loc) : readBits (s.setZero z) l = readBits s l :=
  readBits_congr (s := s) (t := s.setZero z) rfl rfl rfl l

@[simp] theorem readBits_setFlags (s : State) (f : Flags) (l : Loc) : readBits (s.setFlags f) l = readBits s l :=
  readBits_congr (s := s) (t := s.setFlags f) rfl rfl rfl l

@[simp] theorem writeBits_flags (s : State) (l : Loc) (v : Nat) : (writeBits s l v).flags = s.flags := by
  cases l <;> simp [writeBits, State.writeChain]

@[simp] theorem writeBits_pc (s : State) (l : Loc) (v : Nat) : (writeBits s l v).pc = s.pc := by
  cases l <;> simp [writeBits, State.writeChain]

@[simp] theorem writeBits_status (s : State) (l : Loc) (v : Nat) : (writeBits s l v).status = s.status := by
  cases l <;> simp [writeBits, State.writeChain]

@[simp] theorem writeBits_memSize (s : State) (l : Loc) (v : Nat) : (writeBits s l v).memSize = s.memSize := by
  cases l <;> simp [writeBits, State.writeChain]

@[simp] theorem writeBits_draws (s : State) (l : Loc) (v : Nat) : (writeBits s l v).draws = s.draws := by
  cases l <;> simp [writeBits, State.writeChain]

/-- A write keeps memory canonical. -/
theorem writeBits_mem_wf {s : State} (h : s.mem.wf = true) (l : Loc) (v : Nat) :
    (writeBits s l v).mem.wf = true := by
  cases l with
  | reg i w => simpa [writeBits, State.writeChain] using h
  | freg j => exact h
  | mem ea t => exact Memory.writeBytes_wf h _ _
  | imm t raw => exact h

/-- A write to a Location in bounds keeps memory inside the backing store. -/
theorem writeBits_mem_within {s : State} (h : s.mem.within s.memSize = true) {l : Loc} (hl : l.inBounds s)
    (v : Nat) : (writeBits s l v).mem.within (writeBits s l v).memSize = true := by
  rw [writeBits_memSize]
  cases l with
  | reg i w => simpa [writeBits, State.writeChain] using h
  | freg j => exact h
  | mem ea t => exact Memory.writeBytes_within h _ (by simpa [Loc.inBounds] using hl)
  | imm t raw => exact h

/-- Reading a Location after writing it gives the value modulo its width (10_state.md R34, 20_memory.md R73). -/
theorem readBits_writeBits {s : State} (h : s.mem.wf = true) {l : Loc} (hw : l.writable = true) (v : Nat) :
    readBits (writeBits s l v) l = v % 2 ^ l.bits := by
  rw [Loc.bits, ← pow256_eq]
  cases l with
  | reg i w =>
    simp only [readBits, writeBits, State.readChain, State.writeChain, Loc.size]
    have e := State.readCells_writeCells s i (beBytes w.bytes v) (by have := Width.bytes_le w; simp; omega)
    rw [beBytes_length] at e
    rw [e, be_beBytes]
  | freg j =>
    simp [readBits, writeBits, State.getBits_setBits, Loc.size]
  | mem ea t =>
    simp only [readBits, writeBits, State.load, Loc.size, State.store_mem]
    have e := Memory.readBytes_writeBytes h ea.toNat (beBytes t.size v)
    rw [beBytes_length] at e
    rw [e, be_beBytes]
  | imm t raw => simp [Loc.writable] at hw

/-- A write changes nothing outside its Location (10_state.md R34, 20_memory.md R73). -/
theorem writeBits_frame {s : State} (h : s.mem.wf = true) (l : Loc) (v : Nat) : l.Frame s (writeBits s l v) := by
  refine ⟨?_, ?_, ?_, writeBits_pc s l v, writeBits_status s l v, writeBits_memSize s l v⟩
  · intro r hr
    cases l with
    | reg i w =>
      simp only [writeBits, State.writeChain]
      have hb := Width.bytes_le w
      rw [State.readReg_writeCells _ _ _ _ (by simp; omega), List.getElem?_eq_none, Option.getD_none]
      rw [beBytes_length]
      by_contra hlt
      refine hr ⟨((r - i : Fin 26)).val, by omega, by omega⟩
    | freg j => rfl
    | mem ea t => rfl
    | imm t raw => rfl
  · intro j hj
    cases l with
    | reg i w => simp [writeBits, State.writeChain, State.getBits]
    | freg k =>
      simp only [writeBits, State.getBits_setBits]
      rw [if_neg]
      exact fun e => hj e.symm
    | mem ea t => rfl
    | imm t raw => rfl
  · intro a ha
    cases l with
    | reg i w => simp [writeBits, State.writeChain]
    | freg k => rfl
    | mem ea t =>
      simp only [writeBits, State.store_mem]
      rw [Memory.read_writeBytes h]
      split
      · rename_i hle
        rw [List.getElem?_eq_none, Option.getD_none]
        rw [beBytes_length]
        by_contra hlt
        exact ha ⟨hle, by omega⟩
      · rfl
    | imm t raw => rfl

theorem UnchangedOutside.refl {p : Fin 26 → Prop} {q : Fin 16 → Prop} {r : Nat → Prop} {s t : State}
    (hr : t.regs = s.regs) (hf : t.fregs = s.fregs) (hm : t.mem = s.mem) (hp : t.pc = s.pc)
    (hs : t.status = s.status) (hz : t.memSize = s.memSize) : UnchangedOutside p q r s t :=
  ⟨fun i _ => State.readReg_congr hr i, fun j _ => State.getBits_congr hf j, fun a _ => by rw [hm], hp, hs, hz⟩

theorem UnchangedOutside.trans {p : Fin 26 → Prop} {q : Fin 16 → Prop} {r : Nat → Prop} {s t u : State}
    (h : UnchangedOutside p q r s t) (k : UnchangedOutside p q r t u) : UnchangedOutside p q r s u :=
  ⟨fun i hi => (k.regs i hi).trans (h.regs i hi), fun j hj => (k.fregs j hj).trans (h.fregs j hj),
    fun a ha => (k.bytes a ha).trans (h.bytes a ha), k.pc.trans h.pc, k.status.trans h.status,
    k.memSize.trans h.memSize⟩

theorem UnchangedOutside.mono {p p' : Fin 26 → Prop} {q q' : Fin 16 → Prop} {r r' : Nat → Prop} {s t : State}
    (h : UnchangedOutside p q r s t) (hp : ∀ i, p i → p' i) (hq : ∀ i, q i → q' i) (hr : ∀ i, r i → r' i) :
    UnchangedOutside p' q' r' s t :=
  ⟨fun i hi => h.regs i fun k => hi (hp i k), fun i hi => h.fregs i fun k => hi (hq i k),
    fun i hi => h.bytes i fun k => hi (hr i k), h.pc, h.status, h.memSize⟩

/-- A state that agrees outside a Location reads a disjoint Location the same. -/
theorem readBits_of_frame {s t : State} {l m : Loc} (h : l.Frame s t) (hd : l.Disjoint m) :
    readBits t m = readBits s m := by
  cases m with
  | reg i w =>
    simp only [readBits, State.readChain]
    rw [State.readCells_congr]
    intro k hk
    refine h.regs _ fun ho => hd.1 _ ⟨ho, k, hk, ?_⟩
    simp only [Fin.val_add, Fin.ofNat]
    omega
  | freg j =>
    simp only [readBits]
    rw [h.fregs j fun ho => hd.2.1 j ⟨ho, rfl⟩]
  | mem ea t =>
    simp only [readBits, State.load]
    congr 1
    apply List.ext_getElem?
    intro k
    by_cases hk : k < t.size
    · rw [Memory.readBytes_getElem? _ _ _ _ hk, Memory.readBytes_getElem? _ _ _ _ hk,
        h.bytes _ fun ho => hd.2.2 _ ⟨ho, by omega, by omega⟩]
    · rw [List.getElem?_eq_none (by simpa using hk), List.getElem?_eq_none (by simpa using hk)]
  | imm t raw => rfl

end Sys2Proof.Machine
end

