-- ==== Sys2Proof/Laws/Bodies.lean ====
section
/-! SUPPORT. What the shared operations under the meanings can do, each said once: conversions and draws, numeric
writes, division, shifts, comparisons and the block loop. -/

namespace Sys2Proof.Machine

/-! ### Flags -/

theorem flagsOf_decided {eq gt lt : Bool} (h : (eq && !gt && !lt || !eq && gt && !lt || !eq && !gt && lt) = true) :
    (flagsOf eq gt lt).decided = true := by
  revert h
  cases eq <;> cases gt <;> cases lt <;> decide

theorem setFromComparison_decided (x y : Int) : (setFromComparison x y).decided = true := by
  apply flagsOf_decided
  rcases lt_trichotomy x y with h | h | h
  · simp [h, h.ne, h.le]
  · simp [h]
  · simp [h, h.ne', h.le]

theorem flagsOfDraw_decided (w : Word) : (flagsOfDraw w).decided = true := by
  apply flagsOf_decided
  have : w.toNat % 3 < 3 := Nat.mod_lt _ (by decide)
  rcases (by omega : w.toNat % 3 = 0 ∨ w.toNat % 3 = 1 ∨ w.toNat % 3 = 2) with h | h | h <;> simp [h]

theorem Flags.consistent_of_decided {f : Flags} (h : f.decided = true) : f.consistent = true := by
  unfold Flags.decided at h
  exact (Bool.and_eq_true _ _ ▸ h).1

/-! ### Conversions and draws -/

/-- F2I answers the stated integer and takes no draw, or takes one (40_engine.md R177). -/
theorem f2i_cases (s : State) (f : Word) (n : Nat) :
    (∃ x, f32ToInt? f = some x ∧ f2i s f n = (residue n x, s)) ∨
    (f32ToInt? f = none ∧ f2i s f n = ((Config.draw s.draws).toNat % 2 ^ n, s.draw.2)) := by
  unfold f2i
  cases f32ToInt? f with
  | some x => exact .inl ⟨x, rfl, rfl⟩
  | none => exact .inr ⟨rfl, rfl⟩

/-- readCount answers the stated count and takes no draw, or takes one (40_engine.md R173). -/
theorem readCount_cases (s : State) (l : Loc) :
    (l.isFloat = false ∧ readCount s l = (readBits s l, s)) ∨
    (l.isFloat = true ∧ ∃ k, f32ToCount? (readPattern s l) = some k ∧ readCount s l = (k, s)) ∨
    (l.isFloat = true ∧ f32ToCount? (readPattern s l) = none ∧
      readCount s l = ((Config.draw s.draws).toNat, s.draw.2)) := by
  unfold readCount
  cases hf : l.isFloat with
  | false => exact .inl ⟨rfl, rfl⟩
  | true =>
    cases hc : f32ToCount? (readPattern s l) with
    | some k => exact .inr (.inl ⟨rfl, k, rfl, rfl⟩)
    | none => exact .inr (.inr ⟨rfl, rfl, rfl⟩)

theorem readCount_state (s : State) (l : Loc) : (readCount s l).2 = s ∨ (readCount s l).2 = s.draw.2 := by
  rcases readCount_cases s l with ⟨-, e⟩ | ⟨-, k, -, e⟩ | ⟨-, -, e⟩ <;> rw [e] <;> simp

/-- The pattern writeNum stores, and whether it takes a draw: the table of 40_engine.md R175. -/
theorem numBits_cases (s : State) (l : Loc) (x : Value) :
    (∃ i, x = .int i ∧ l.isFloat = true ∧ numBits s l x = ((i2f i).toNat, s)) ∨
    (∃ i, x = .int i ∧ l.isFloat = false ∧ numBits s l x = (residue l.bits i, s)) ∨
    (∃ f, x = .flt f ∧ l.isFloat = true ∧ numBits s l x = (f.toNat, s)) ∨
    (∃ f, x = .flt f ∧ l.isFloat = false ∧ numBits s l x = f2i s f l.bits) := by
  cases x with
  | int i =>
    cases hf : l.isFloat with
    | true => exact .inl ⟨i, rfl, rfl, by simp [numBits, hf]⟩
    | false => exact .inr (.inl ⟨i, rfl, rfl, by simp [numBits, hf]⟩)
  | flt f =>
    cases hf : l.isFloat with
    | true => exact .inr (.inr (.inl ⟨f, rfl, rfl, by simp [numBits, hf]⟩))
    | false => exact .inr (.inr (.inr ⟨f, rfl, rfl, by simp [numBits, hf]⟩))

theorem numBits_lt (s : State) (l : Loc) (x : Value) : (numBits s l x).1 < 2 ^ l.bits := by
  rcases numBits_cases s l x with ⟨i, -, hf, e⟩ | ⟨i, -, -, e⟩ | ⟨f, -, hf, e⟩ | ⟨f, -, -, e⟩
  · rw [e, Loc.bits_of_isFloat hf]; exact (i2f i).isLt
  · rw [e]; exact residue_lt _ _
  · rw [e, Loc.bits_of_isFloat hf]; exact f.isLt
  · rw [e]
    rcases f2i_cases s f l.bits with ⟨x, -, e⟩ | ⟨-, e⟩ <;> rw [e]
    · exact residue_lt _ _
    · exact Nat.mod_lt _ (by positivity)

theorem numBits_state (s : State) (l : Loc) (x : Value) : (numBits s l x).2 = s ∨ (numBits s l x).2 = s.draw.2 := by
  rcases numBits_cases s l x with ⟨i, -, -, e⟩ | ⟨i, -, -, e⟩ | ⟨f, -, -, e⟩ | ⟨f, -, -, e⟩ <;> rw [e]
  · simp
  · simp
  · simp
  · rcases f2i_cases s f l.bits with ⟨x, -, e⟩ | ⟨-, e⟩ <;> rw [e] <;> simp

/-! ### What a step of a body keeps -/

/-- What no write of a body touches: pc, `MEM_SIZE` and status; and the draw counter never falls. -/
structure Steady (s t : State) : Prop where
  pc : t.pc = s.pc
  memSize : t.memSize = s.memSize
  status : t.status = s.status
  draws : s.draws ≤ t.draws

theorem Steady.refl (s : State) : Steady s s := ⟨rfl, rfl, rfl, Nat.le_refl _⟩

theorem Steady.trans {s t u : State} (h : Steady s t) (k : Steady t u) : Steady s u :=
  ⟨k.pc.trans h.pc, k.memSize.trans h.memSize, k.status.trans h.status, h.draws.trans k.draws⟩

theorem draw_steady (s : State) : Steady s s.draw.2 := ⟨rfl, rfl, rfl, Nat.le_succ _⟩

theorem setZero_steady (s : State) (z : Bool) : Steady s (s.setZero z) := ⟨rfl, rfl, rfl, Nat.le_refl _⟩

theorem setFlags_steady (s : State) (f : Flags) : Steady s (s.setFlags f) := ⟨rfl, rfl, rfl, Nat.le_refl _⟩

theorem writeBits_steady (s : State) (l : Loc) (v : Nat) : Steady s (writeBits s l v) :=
  ⟨by simp, by simp, by simp, by simp⟩

theorem numBits_steady (s : State) (l : Loc) (x : Value) : Steady s (numBits s l x).2 := by
  rcases numBits_state s l x with h | h <;> rw [h]
  · exact Steady.refl s
  · exact draw_steady s

theorem readCount_steady (s : State) (l : Loc) : Steady s (readCount s l).2 := by
  rcases readCount_state s l with h | h <;> rw [h]
  · exact Steady.refl s
  · exact draw_steady s

theorem writeNum_steady (s : State) (l : Loc) (x : Value) : Steady s (writeNum s l x) :=
  (numBits_steady s l x).trans (writeBits_steady _ _ _)

theorem numBits_mem (s : State) (l : Loc) (x : Value) :
    (numBits s l x).2.mem = s.mem ∧ (numBits s l x).2.flags = s.flags ∧ (numBits s l x).2.regs = s.regs ∧
      (numBits s l x).2.fregs = s.fregs := by
  rcases numBits_state s l x with h | h <;> rw [h] <;> simp

theorem readCount_mem (s : State) (l : Loc) :
    (readCount s l).2.mem = s.mem ∧ (readCount s l).2.flags = s.flags ∧ (readCount s l).2.regs = s.regs ∧
      (readCount s l).2.fregs = s.fregs := by
  rcases readCount_state s l with h | h <;> rw [h] <;> simp

@[simp] theorem writeNum_flags (s : State) (l : Loc) (x : Value) : (writeNum s l x).flags = s.flags := by
  simp [writeNum, (numBits_mem s l x).2.1]

theorem Loc.inBounds_congr {s t : State} (h : t.memSize = s.memSize) {l : Loc} (hl : l.inBounds s) :
    l.inBounds t := by
  cases l <;> simp_all [Loc.inBounds]

theorem writeNum_mem_wf {s : State} (h : s.mem.wf = true) (l : Loc) (x : Value) :
    (writeNum s l x).mem.wf = true :=
  writeBits_mem_wf (by rw [(numBits_mem s l x).1]; exact h) _ _

theorem writeNum_mem_within {s : State} (h : s.mem.within s.memSize = true) {l : Loc} (hl : l.inBounds s)
    (x : Value) : (writeNum s l x).mem.within (writeNum s l x).memSize = true :=
  writeBits_mem_within (by rw [(numBits_mem s l x).1, (numBits_steady s l x).memSize]; exact h)
    (Loc.inBounds_congr (numBits_steady s l x).memSize hl) _

/-- A numeric write: the Location holds the pattern of R175, and nothing else changes. -/
theorem writeNum_spec {s : State} (h : s.mem.wf = true) {l : Loc} (hw : l.writable = true) (x : Value) :
    readBits (writeNum s l x) l = (numBits s l x).1 ∧ l.Frame s (writeNum s l x) := by
  have hm := numBits_mem s l x
  have hwf : (numBits s l x).2.mem.wf = true := by rw [hm.1]; exact h
  constructor
  · rw [writeNum, readBits_writeBits hwf hw, Nat.mod_eq_of_lt (numBits_lt s l x)]
  · have hs := numBits_steady s l x
    exact (UnchangedOutside.refl hm.2.2.1 hm.2.2.2 hm.1 hs.pc hs.status hs.memSize).trans
      (writeBits_frame hwf l _)

/-! ### Division -/

/-- All that the division body can answer (45_division.md R299). -/
theorem divBody_cases (sgn : Bool) (s : State) (d x : Loc) :
    (d.isFloat = false ∧ x.isFloat = false ∧ readInt sgn s x = 0 ∧
      divBody sgn s d x = .error (.divByZero s.pc)) ∨
    (d.isFloat = false ∧ x.isFloat = false ∧ readInt sgn s x ≠ 0 ∧
      divBody sgn s d x =
        .ok (writeQuotient s d (.int (intQuotient sgn (readInt sgn s d) (readInt sgn s x))),
          some (readInt sgn s d - intQuotient sgn (readInt sgn s d) (readInt sgn s x) * readInt sgn s x))) ∨
    ((d.isFloat || x.isFloat) = true ∧ f32IsZero (readFloat sgn s x) = true ∧
      divBody sgn s d x = .error (.divByZero s.pc)) ∨
    ((d.isFloat || x.isFloat) = true ∧ f32IsZero (readFloat sgn s x) = false ∧
      divBody sgn s d x =
        .ok (writeQuotient (floatQuotient s (readFloat sgn s d) (readFloat sgn s x)).2 d
          (.flt (floatQuotient s (readFloat sgn s d) (readFloat sgn s x)).1), none)) := by
  unfold divBody
  cases hf : (d.isFloat || x.isFloat) with
  | false =>
    have hd : d.isFloat = false := by cases h : d.isFloat <;> simp_all
    have hx : x.isFloat = false := by cases h : x.isFloat <;> simp_all
    by_cases hz : readInt sgn s x = 0
    · exact .inl ⟨hd, hx, hz, by simp [hz]⟩
    · exact .inr (.inl ⟨hd, hx, hz, by simp [hz]⟩)
  | true =>
    cases hz : f32IsZero (readFloat sgn s x) with
    | true => exact .inr (.inr (.inl ⟨rfl, rfl, by simp [hz]⟩))
    | false => exact .inr (.inr (.inr ⟨rfl, rfl, by simp [hz]⟩))

theorem floatQuotient_state (s : State) (a b : Word) :
    (floatQuotient s a b).2 = s ∨ (floatQuotient s a b).2 = s.draw.2 := by
  unfold floatQuotient
  cases f32Div a b <;> simp

theorem floatQuotient_steady (s : State) (a b : Word) : Steady s (floatQuotient s a b).2 := by
  rcases floatQuotient_state s a b with h | h <;> rw [h]
  · exact Steady.refl s
  · exact draw_steady s

theorem floatQuotient_mem (s : State) (a b : Word) :
    (floatQuotient s a b).2.mem = s.mem ∧ (floatQuotient s a b).2.flags = s.flags ∧
      (floatQuotient s a b).2.regs = s.regs ∧ (floatQuotient s a b).2.fregs = s.fregs := by
  rcases floatQuotient_state s a b with h | h <;> rw [h] <;> simp

theorem writeQuotient_steady (s : State) (l : Loc) (x : Value) : Steady s (writeQuotient s l x) :=
  (writeNum_steady s l x).trans (setZero_steady _ _)

/-- A faulting division is DIV_BY_ZERO at pc (60_exceptions.md R335). -/
theorem divBody_error {sgn : Bool} {s : State} {d x : Loc} {f : FaultRecord} (h : divBody sgn s d x = .error f) :
    f = .divByZero s.pc := by
  rcases divBody_cases sgn s d x with ⟨-, -, -, e⟩ | ⟨-, -, -, e⟩ | ⟨-, -, e⟩ | ⟨-, -, e⟩ <;> rw [e] at h <;>
    cases h <;> rfl

/-- A division that completes writes a quotient, in a state that differs from the first by draws alone. -/
theorem divBody_ok {sgn : Bool} {s t : State} {d x : Loc} {m : Option Int} (h : divBody sgn s d x = .ok (t, m)) :
    ∃ u q, (u = s ∨ u = s.draw.2) ∧ t = writeQuotient u d q := by
  rcases divBody_cases sgn s d x with ⟨-, -, -, e⟩ | ⟨-, -, -, e⟩ | ⟨-, -, e⟩ | ⟨-, -, e⟩ <;> rw [e] at h <;>
    cases h
  · exact ⟨s, _, .inl rfl, rfl⟩
  · exact ⟨_, _, floatQuotient_state s _ _, rfl⟩

theorem divStep_error {sgn : Bool} {s : State} {d x : Loc} {f : FaultRecord} (h : divStep sgn s d x = .error f) :
    f = .divByZero s.pc := by
  unfold divStep at h
  split at h
  · rename_i g hg
    cases h
    exact divBody_error hg
  · cases h

theorem divStep_ok {sgn : Bool} {s t : State} {d x : Loc} (h : divStep sgn s d x = .ok t) :
    ∃ m, divBody sgn s d x = .ok (t, m) := by
  unfold divStep at h
  split at h
  · cases h
  · rename_i t' m hg
    cases h
    exact ⟨m, hg⟩

/-! ### Shifts -/

theorem shiftL_steady (s : State) (d c : Loc) : Steady s (shiftL s d c) :=
  (readCount_steady s c).trans (writeBits_steady _ _ _)

theorem shiftR_steady (s : State) (d c : Loc) : Steady s (shiftR s d c) :=
  (readCount_steady s c).trans (writeBits_steady _ _ _)

@[simp] theorem shiftL_flags (s : State) (d c : Loc) : (shiftL s d c).flags = s.flags := by
  simp [shiftL, (readCount_mem s c).2.1]

@[simp] theorem shiftR_flags (s : State) (d c : Loc) : (shiftR s d c).flags = s.flags := by
  simp [shiftR, (readCount_mem s c).2.1]

/-! ### Comparisons -/

/-- A comparison writes the flags, decided, and may take a draw: nothing else (42_compare.md R225). -/
theorem compareLocs_cases (sgn : Bool) (s : State) (a b : Loc) :
    ∃ u f, (u = s ∨ u = s.draw.2) ∧ f.decided = true ∧ f.zero = f.eq ∧ compareLocs sgn s a b = u.setFlags f := by
  unfold compareLocs compareFloat
  split
  · split
    · exact ⟨_, _, .inr rfl, flagsOfDraw_decided _, rfl, rfl⟩
    · exact ⟨_, _, .inl rfl, setFromComparison_decided _ _, rfl, rfl⟩
  · exact ⟨_, _, .inl rfl, setFromComparison_decided _ _, rfl, rfl⟩

/-! ### The block loop -/

/-- What every iteration and every fault of a block form keeps, the whole form keeps (40_engine.md R169). -/
theorem blockLoop_keeps {body : Body} {dst : Loc} {src : Operand} (P : State → Prop)
    (hfault : ∀ s f, P s →
      (resolve s src = .error f ∨ ∃ x, resolve s src = .ok x ∧ body s dst x = .error f) → P (s.raiseFault f))
    (hbody : ∀ s x t, P s → resolve s src = .ok x → body s dst x = .ok t → P t) (n : Nat) (s : State) (h : P s) :
    P (blockLoop body dst src n s) := by
  induction n generalizing s with
  | zero => exact h
  | succ n ih =>
    unfold blockLoop
    cases hr : resolve s src with
    | error f => exact hfault s f h (.inl hr)
    | ok x =>
      cases hb : body s dst x with
      | error f => simpa only [hb] using hfault s f h (.inr ⟨x, hr, hb⟩)
      | ok t => simpa only [hb] using ih t (hbody s x t h hr hb)

end Sys2Proof.Machine
end

