-- ==== Sys2Proof/Laws/Decode.lean ====
section
/-! SUPPORT. The small laws of the decoder's stages and of the encoder: what each stage reads from the bytes the encoder
writes, and the lengths. -/

namespace Sys2Proof

@[simp] theorem takeByte_nil : takeByte [] = .error .truncated := rfl

@[simp] theorem takeByte_cons (b : Byte) (bs : List Byte) : takeByte (b :: bs) = .ok (b, bs) := rfl

@[simp] theorem takeNum_zero (bs : List Byte) : takeNum 0 bs = .ok (0, bs) := rfl

/-- Reading n bytes that are there. -/
theorem takeNum_append (bs rest : List Byte) : takeNum bs.length (bs ++ rest) = .ok (be bs, rest) := by
  induction bs with
  | nil => rfl
  | cons b bs ih => simp [takeNum, ih]

/-- Reading back an n-byte literal. -/
theorem takeNum_beBytes (n v : Nat) (rest : List Byte) :
    takeNum n (beBytes n v ++ rest) = .ok (v % 256 ^ n, rest) := by
  have h := takeNum_append (beBytes n v) rest
  rwa [beBytes_length, be_beBytes] at h

/-- Reading n bytes takes n bytes. -/
theorem takeNum_ok {n v : Nat} {bs rest : List Byte} (h : takeNum n bs = .ok (v, rest)) :
    ∃ pre, pre.length = n ∧ bs = pre ++ rest ∧ v = be pre := by
  induction n generalizing v bs with
  | zero => cases h; exact ⟨[], rfl, rfl, rfl⟩
  | succ n ih =>
    cases bs with
    | nil => simp [takeNum] at h
    | cons b bs =>
      simp only [takeNum, takeByte_cons] at h
      cases hn : takeNum n bs with
      | error e => simp [hn] at h
      | ok p =>
        obtain ⟨v', r⟩ := p
        simp only [hn, Except.ok.injEq, Prod.mk.injEq] at h
        obtain ⟨hv, rfl⟩ := h
        obtain ⟨pre, hl, hb, hbe⟩ := ih hn
        exact ⟨b :: pre, by simp [hl], by simp [hb], by simp [← hv, hl, hbe]⟩

/-- Reading n bytes stops only where the bytes end. -/
theorem takeNum_error {n : Nat} {bs : List Byte} {e : DecodeError} (h : takeNum n bs = .error e) :
    e = .truncated ∧ bs.length < n := by
  induction n generalizing bs with
  | zero => cases h
  | succ n ih =>
    cases bs with
    | nil => simp [takeNum] at h; exact ⟨h.symm, by simp⟩
    | cons b bs =>
      simp only [takeNum, takeByte_cons] at h
      cases hn : takeNum n bs with
      | error e' =>
        simp only [hn, Except.error.injEq] at h
        subst h
        have := ih hn
        exact ⟨this.1, by simp; omega⟩
      | ok p => simp [hn] at h

theorem Width.bits_lt (w : Width) : w.bits < 4 := by cases w <;> decide

theorem TypeCode.bits_lt (t : TypeCode) : t.bits < 5 := by cases t <;> decide

@[simp] theorem widthOfBits_bits (w : Width) : widthOfBits w.bits = w := by cases w <;> rfl

@[simp] theorem typeOfBits_bits (t : TypeCode) : typeOfBits t.bits = .ok t := by cases t <;> rfl

@[simp] theorem widthOfSpec_bytes (w : Width) : widthOfSpec w.bytes = some w := by cases w <;> rfl

/-- A chain's byte reads back as the chain (30_encoding.md R115). -/
theorem chainOfByte_byte (c : Chain) : chainOfByte c.byte = .ok c := by
  obtain ⟨⟨i, hi⟩, w⟩ := c
  have h : (BitVec.ofNat 8 (w.bits * 64 + i)).toNat = w.bits * 64 + i := by
    have := w.bits_lt
    simp only [BitVec.toNat_ofNat, Nat.reducePow]
    omega
  have h1 : (w.bits * 64 + i) / 32 % 2 = 0 := by omega
  have h2 : (w.bits * 64 + i) % 32 = i := by omega
  have h3 : (w.bits * 64 + i) / 64 = w.bits := by omega
  simp only [chainOfByte, Chain.byte, h, h1, h2, h3, if_true, hi, dite_true, widthOfBits_bits]

/-- A legal register-reference byte is its chain's byte. -/
theorem byte_of_chainOfByte {b : Byte} {c : Chain} (h : chainOfByte b = .ok c) : c.byte = b := by
  unfold chainOfByte at h
  split at h
  · split at h
    · cases h
      rename_i h1 h2
      have hb : b.toNat < 256 := b.isLt
      apply BitVec.eq_of_toNat_eq
      have hw : (widthOfBits (b.toNat / 64)).bits = b.toNat / 64 := by
        have : b.toNat / 64 < 4 := by omega
        rcases (by omega : b.toNat / 64 = 0 ∨ b.toNat / 64 = 1 ∨ b.toNat / 64 = 2 ∨ b.toNat / 64 = 3) with
          e | e | e | e <;> rw [e] <;> rfl
      simp only [Chain.byte, hw, BitVec.toNat_ofNat, Nat.reducePow]
      omega
    · cases h
  · cases h

/-- The fields of a descriptor byte (30_encoding.md R113). -/
theorem descByte_fields {k sub : Nat} (hk : k < 16) (hs : sub < 16) :
    (descByte k sub).toNat / 16 = k ∧ (descByte k sub).toNat % 16 = sub := by
  have h : (descByte k sub).toNat = k * 16 + sub := by
    simp only [descByte, BitVec.toNat_ofNat, Nat.reducePow]
    omega
  rw [h]
  omega

/-- A descriptor's bytes are as many as its length says (30_encoding.md R117, R125). -/
@[simp] theorem encodeOperand_length (o : Operand) : (encodeOperand o).length = o.length := by
  cases o <;> simp [encodeOperand, Operand.length] <;> omega

theorem Operand.length_le {o : Operand} (h : o.wf = true) : o.length ≤ 7 := by
  cases o with
  | imm t raw => cases t <;> simp [Operand.length, TypeCode.size]
  | mabsOff t a n o =>
    simp only [Operand.wf, offsetFits, Bool.and_eq_true] at h
    cases n <;> simp_all [Operand.length, Width.bytes]
  | mptrOff t a n o =>
    simp only [Operand.wf, offsetFits, Bool.and_eq_true] at h
    cases n <;> simp_all [Operand.length, Width.bytes]
  | _ => simp [Operand.length]

theorem Operand.wf_of_fits {o : Operand} {c : SlotClass} (h : o.fits c = true) : o.wf = true := by
  unfold Operand.fits at h
  exact (Bool.and_eq_true _ _ ▸ h).1

theorem Operand.accepts_of_fits {o : Operand} {c : SlotClass} (h : o.fits c = true) : c.accepts o = true := by
  unfold Operand.fits at h
  exact (Bool.and_eq_true _ _ ▸ h).2

theorem Operand.length_le_of_cnt {o : Operand} (h : o.fits .cnt = true) : o.length ≤ 5 := by
  have ha := Operand.accepts_of_fits h
  cases o with
  | imm t raw => cases t <;> simp [Operand.length, TypeCode.size]
  | _ => simp_all [SlotClass.accepts, Operand.isMem, Operand.length]

end Sys2Proof
end

