-- ==== Sys2Proof/Laws/Float.lean ====
section
/-! SUPPORT. The small laws of binary32 patterns: the fields of a packed pattern, zeros, and what rounding to the nearest
integer gives. -/

namespace Sys2Proof.Machine

theorem f32Frac_lt (b : Word) : f32Frac b < 2 ^ 23 := Nat.mod_lt _ (by decide)

theorem f32Exp_lt (b : Word) : f32Exp b < 256 := Nat.mod_lt _ (by decide)

/-- Bits 30:0 are the exponent and the fraction (10_state.md R39). -/
theorem f32Abs_eq (b : Word) : f32Abs b = f32Exp b * 2 ^ 23 + f32Frac b := by
  unfold f32Abs f32Exp f32Frac
  have := b.isLt
  omega

/-- The two zeros are the patterns 0 and 0x80000000. -/
theorem f32IsZero_iff (b : Word) : f32IsZero b = true ↔ b = 0 ∨ b = 0x80000000 := by
  unfold f32IsZero f32Abs
  simp only [beq_iff_eq]
  constructor
  · intro h
    have := b.isLt
    rcases (by omega : b.toNat = 0 ∨ b.toNat = 2 ^ 31) with h | h
    · exact .inl (BitVec.eq_of_toNat_eq h)
    · exact .inr (BitVec.eq_of_toNat_eq h)
  · rintro (rfl | rfl) <;> decide

/-! ### Packing -/

theorem f32Pack_toNat (neg : Bool) {m : Nat} (h : m < 2 ^ 31) :
    (f32Pack neg m).toNat = m + if neg then 2 ^ 31 else 0 := by
  unfold f32Pack
  rw [BitVec.toNat_ofNat]
  cases neg <;> simp <;> omega

theorem f32Neg_pack (neg : Bool) {m : Nat} (h : m < 2 ^ 31) : f32Neg (f32Pack neg m) = neg := by
  unfold f32Neg
  rw [f32Pack_toNat neg h]
  cases neg <;> simp
  omega

theorem f32Abs_pack (neg : Bool) {m : Nat} (h : m < 2 ^ 31) : f32Abs (f32Pack neg m) = m := by
  unfold f32Abs
  rw [f32Pack_toNat neg h]
  cases neg <;> simp <;> omega

theorem f32Exp_pack (neg : Bool) {m : Nat} (h : m < 2 ^ 31) : f32Exp (f32Pack neg m) = m / 2 ^ 23 := by
  unfold f32Exp
  rw [f32Pack_toNat neg h]
  cases neg <;> simp <;> omega

theorem f32Frac_pack (neg : Bool) {m : Nat} (h : m < 2 ^ 31) : f32Frac (f32Pack neg m) = m % 2 ^ 23 := by
  unfold f32Frac
  rw [f32Pack_toNat neg h]
  cases neg <;> simp
  omega

/-- Every draw gives a NaN pattern (40_engine.md R179). -/
theorem f32IsNaN_f32NaNOf (w : Word) : f32IsNaN (f32NaNOf w) = true := by
  have hf := f32Frac_lt w
  have e : f32InfMag = 255 * 2 ^ 23 := rfl
  have hm : f32InfMag + (if f32Frac w = 0 then 1 else f32Frac w) < 2 ^ 31 := by split <;> omega
  unfold f32IsNaN f32NaNOf
  rw [f32Exp_pack _ hm, f32Frac_pack _ hm, e]
  have h : (255 * 2 ^ 23 + (if f32Frac w = 0 then 1 else f32Frac w)) / 2 ^ 23 = 255 ∧
      (255 * 2 ^ 23 + (if f32Frac w = 0 then 1 else f32Frac w)) % 2 ^ 23 ≠ 0 := by
    split <;> omega
  rw [h.1]
  simpa using h.2

/-! ### Rounding to an integer -/

/-- The rounded integer is within half a unit, and even where it is exactly half a unit away. -/
theorem roundEven_spec (n : Nat) {d : Nat} (hd : 0 < d) :
    2 * ((n : Int) - roundEven n d * d).natAbs ≤ d ∧
      (2 * ((n : Int) - roundEven n d * d).natAbs = d → roundEven n d % 2 = 0) := by
  have hn := Nat.div_add_mod n d
  have hr := Nat.mod_lt n hd
  unfold roundEven
  dsimp only
  set q := n / d
  set r := n % d
  have e : (n : Int) = d * q + r := by exact_mod_cast hn.symm
  split
  · have : (n : Int) - (q : Int) * d = r := by rw [e]; ring
    rw [this]
    exact ⟨by simp; omega, fun h2 => by simp at h2; omega⟩
  · split
    · rcases Nat.mod_two_eq_zero_or_one q with h2 | h2
      · rw [h2]
        have : (n : Int) - ((q + 0 : Nat) : Int) * d = r := by rw [e]; push_cast; ring
        rw [this]; simp; omega
      · rw [h2]
        have : (n : Int) - ((q + 1 : Nat) : Int) * d = r - d := by rw [e]; push_cast; ring
        rw [this]; omega
    · have : (n : Int) - ((q + 1 : Nat) : Int) * d = r - d := by rw [e]; push_cast; ring
      rw [this]; omega

theorem le_roundEven {n d q : Nat} (hd : 0 < d) (h : q * d ≤ n) : q ≤ roundEven n d := by
  have : q ≤ n / d := (Nat.le_div_iff_mul_le hd).mpr h
  unfold roundEven
  dsimp only
  split
  · exact this
  · split <;> omega

theorem roundEven_le {n d q : Nat} (hd : 0 < d) (h : n ≤ q * d) : roundEven n d ≤ q := by
  have h1 : n / d ≤ q := Nat.div_le_of_le_mul (by rw [Nat.mul_comm]; exact h)
  have hn := Nat.div_add_mod n d
  unfold roundEven
  dsimp only
  by_cases hq : n / d = q
  · have : n % d = 0 := by rw [hq] at hn; have := Nat.mul_comm d q; omega
    rw [this]; simp [hd]; omega
  · split
    · exact h1
    · split <;> omega

end Sys2Proof.Machine
end

