-- ==== Sys2Proof/Laws/Launch.lean ====
section
/-! SUPPORT. What the host's operations around a run can answer, each said once. -/

namespace Sys2Proof.Machine

theorem hostLoad_cases (s : State) (base : Word) (bytes : List Byte) :
    (base.toNat + bytes.length ≤ s.memSize ∧
      hostLoad s base bytes = some { s with mem := s.mem.writeBytes base.toNat bytes }) ∨
    (s.memSize < base.toNat + bytes.length ∧ hostLoad s base bytes = none) := by
  unfold hostLoad
  by_cases h : base.toNat + bytes.length ≤ s.memSize
  · exact .inl ⟨h, if_pos h⟩
  · exact .inr ⟨Nat.lt_of_not_le h, if_neg h⟩

theorem hostSetBytes_cases (s : State) (cells : List Host.Cell) :
    ((∀ c ∈ cells, c.1 < s.memSize) ∧ hostSetBytes s cells = some { s with mem := s.mem.setBytes cells }) ∨
    ((∃ c ∈ cells, s.memSize ≤ c.1) ∧ hostSetBytes s cells = none) := by
  unfold hostSetBytes
  by_cases h : ∀ c ∈ cells, c.1 < s.memSize
  · exact .inl ⟨h, if_pos (by simpa using h)⟩
  · refine .inr ⟨?_, if_neg (by simpa using h)⟩
    simpa using h

/-- What steps 1 to 3 of the boot order can answer: the prepared state, or none where the program or a byte set lies
outside memory. -/
theorem hostPrepare_cases (p : LaunchParams) :
    (p.loadBase.toNat + p.program.length ≤ p.memSize ∧ (∀ c ∈ p.setBytes, c.1 < p.memSize) ∧
      hostPrepare p = some { p.prepared with
        mem := (p.memInit.writeBytes p.loadBase.toNat p.program).setBytes p.setBytes }) ∨
    ((p.memSize < p.loadBase.toNat + p.program.length ∨ ∃ c ∈ p.setBytes, p.memSize ≤ c.1) ∧
      hostPrepare p = none) := by
  unfold hostPrepare
  rcases hostLoad_cases p.prepared p.loadBase p.program with ⟨h, e⟩ | ⟨h, e⟩ <;> rw [e]
  · exact (hostSetBytes_cases { p.prepared with mem := p.memInit.writeBytes p.loadBase.toNat p.program } p.setBytes).imp
      (fun k => ⟨h, k⟩) (fun k => ⟨.inr k.1, k.2⟩)
  · exact .inr ⟨.inl h, rfl⟩

/-- What a launch can answer: the launch state, or none as `hostPrepare`. -/
theorem launch_cases (p : LaunchParams) :
    (p.loadBase.toNat + p.program.length ≤ p.memSize ∧ (∀ c ∈ p.setBytes, c.1 < p.memSize) ∧
      launch p = some { p.prepared with
        pc := p.loadBase
        status := .running
        mem := (p.memInit.writeBytes p.loadBase.toNat p.program).setBytes p.setBytes }) ∨
    ((p.memSize < p.loadBase.toNat + p.program.length ∨ ∃ c ∈ p.setBytes, p.memSize ≤ c.1) ∧ launch p = none) := by
  unfold launch
  rcases hostPrepare_cases p with ⟨h, k, e⟩ | ⟨h, e⟩ <;> rw [e]
  · exact .inl ⟨h, k, rfl⟩
  · exact .inr ⟨h, rfl⟩

end Sys2Proof.Machine
end

