-- ==== Sys2Proof/Laws/PerInstr.lean ====
section
/-! SUPPORT. The family `EncodedLength` of statements per instruction: its encoding has the length of 30_encoding.md
R111 and R125, which is at most that of the longest instruction. -/

namespace Sys2Proof.Laws.EncodedLength

/-- The encoding of a well-formed instruction is as long as `Instr.length` says, 1 to 22 bytes. -/
def Statement (i : Instr) : Prop :=
  i.wf = true → (encode i).length = i.length ∧ 1 ≤ i.length ∧ i.length ≤ maxLength

theorem two_operands {i : Instr} {a b : Operand} {c1 c2 : SlotClass}
    (hw : i.wf = true → (a.fits c1 && b.fits c2) = true) (hb : i.operandBytes = encodeOperand a ++ encodeOperand b)
    (hl : i.length = 1 + a.length + b.length) : Statement i := by
  intro h
  have h := hw h
  simp only [Bool.and_eq_true] at h
  have h1 := Operand.length_le (Operand.wf_of_fits h.1)
  have h2 := Operand.length_le (Operand.wf_of_fits h.2)
  refine ⟨?_, by omega, by unfold maxLength; omega⟩
  simp only [encode, List.length_cons, hb, List.length_append, encodeOperand_length, hl]
  omega

theorem ld (d s : Operand) : Statement (.ld d s) := two_operands (fun h => h) rfl rfl

theorem cp (a b : Operand) : Statement (.cp a b) := two_operands (fun h => h) rfl rfl

theorem scp (a b : Operand) : Statement (.scp a b) := two_operands (fun h => h) rfl rfl

theorem and (d s : Operand) : Statement (.and d s) := two_operands (fun h => h) rfl rfl

theorem or (d s : Operand) : Statement (.or d s) := two_operands (fun h => h) rfl rfl

theorem xor (d s : Operand) : Statement (.xor d s) := two_operands (fun h => h) rfl rfl

theorem nand (d s : Operand) : Statement (.nand d s) := two_operands (fun h => h) rfl rfl

theorem nor (d s : Operand) : Statement (.nor d s) := two_operands (fun h => h) rfl rfl

theorem xnor (d s : Operand) : Statement (.xnor d s) := two_operands (fun h => h) rfl rfl

theorem bit (d m : Operand) : Statement (.bit d m) := two_operands (fun h => h) rfl rfl

theorem sl (d k : Operand) : Statement (.sl d k) := two_operands (fun h => h) rfl rfl

theorem sr (d k : Operand) : Statement (.sr d k) := two_operands (fun h => h) rfl rfl

theorem div (d s : Operand) : Statement (.div d s) := two_operands (fun h => h) rfl rfl

theorem sdiv (d s : Operand) : Statement (.sdiv d s) := two_operands (fun h => h) rfl rfl

theorem rgb2hsb (d s : Operand) : Statement (.rgb2hsb d s) := two_operands (fun h => h) rfl rfl

theorem divR (d s r : Operand) : Statement (.divR d s r) := by
  intro h
  simp only [Instr.wf, Bool.and_eq_true] at h
  have h1 := Operand.length_le (Operand.wf_of_fits h.1.1)
  have h2 := Operand.length_le (Operand.wf_of_fits h.1.2)
  have h3 := Operand.length_le (Operand.wf_of_fits h.2)
  refine ⟨?_, by simp only [Instr.length]; omega, by simp only [Instr.length, maxLength]; omega⟩
  simp only [encode, Instr.operandBytes, List.length_cons, List.length_append, encodeOperand_length, Instr.length]
  omega

theorem sdivR (d s r : Operand) : Statement (.sdivR d s r) := divR d s r

theorem slW (d k : Operand) (w : Width) : Statement (.slW d k w) := by
  intro h
  simp only [Instr.wf, Bool.and_eq_true] at h
  have h1 := Operand.length_le (Operand.wf_of_fits h.1)
  have h2 := Operand.length_le (Operand.wf_of_fits h.2)
  refine ⟨?_, by simp only [Instr.length]; omega, by simp only [Instr.length, maxLength]; omega⟩
  simp only [encode, Instr.operandBytes, encodeSpec, List.length_cons, List.length_append, encodeOperand_length,
    Instr.length, List.length_nil]
  omega

theorem divW (d s : Operand) (w : Width) : Statement (.divW d s w) := slW d s w

theorem slWN (d k : Operand) (w : Width) (n : Operand) : Statement (.slWN d k w n) := by
  intro h
  simp only [Instr.wf, Bool.and_eq_true] at h
  have h1 := Operand.length_le (Operand.wf_of_fits h.1.1)
  have h2 := Operand.length_le (Operand.wf_of_fits h.1.2)
  have h3 := Operand.length_le_of_cnt h.2
  refine ⟨?_, by simp only [Instr.length]; omega, by simp only [Instr.length, maxLength]; omega⟩
  simp only [encode, Instr.operandBytes, encodeSpec, List.length_cons, List.length_append, encodeOperand_length,
    Instr.length, List.length_nil]
  omega

theorem divWN (d s : Operand) (w : Width) (n : Operand) : Statement (.divWN d s w n) := slWN d s w n

theorem brk : Statement .brk := fun _ => ⟨rfl, Nat.le_refl _, by decide⟩

end Sys2Proof.Laws.EncodedLength
end

