-- ==== Sys2Proof/Laws/Ready.lean ====
section
/-! SUPPORT. What the premises of the statements give: resolved operands, Locations that can be written, values within
their widths; and the integer readings of a value. -/

namespace Sys2Proof.Machine

/-! ### Numbers -/

theorem residue_cast (n : Nat) (x : Int) : (residue n x : Int) = x % 2 ^ n := by
  unfold residue
  rw [Int.toNat_of_nonneg (Int.emod_nonneg _ (by positivity))]

/-- `sext` is the two's-complement reading (00_scope.md R12). -/
theorem sext_eq_toInt {n v : Nat} (hn : 0 < n) : sext n (v % 2 ^ n) = (BitVec.ofNat n v).toInt := by
  rw [BitVec.toInt_eq_toNat_cond, BitVec.toNat_ofNat, sext]
  have h2 : 2 ^ n = 2 * 2 ^ (n - 1) := by
    obtain ⟨k, rfl⟩ : ∃ k, n = k + 1 := ⟨n - 1, by omega⟩
    simp [pow_succ]; omega
  by_cases h : v % 2 ^ n < 2 ^ (n - 1)
  · rw [if_pos h, if_pos (by omega)]
  · rw [if_neg h, if_neg (by omega)]; norm_cast

theorem readInt_signed {s : State} {l : Loc} (hl : readBits s l < 2 ^ l.bits) :
    readInt true s l = (BitVec.ofNat l.bits (readBits s l)).toInt := by
  have := sext_eq_toInt (v := readBits s l) l.bits_pos
  rw [Nat.mod_eq_of_lt hl] at this
  simpa [readInt] using this

theorem readInt_eq_zero {sgn : Bool} {s : State} {l : Loc} (hl : readBits s l < 2 ^ l.bits) :
    readInt sgn s l = 0 ↔ readBits s l = 0 := by
  have hp : 0 < 2 ^ (l.bits - 1) := by positivity
  unfold readInt sext
  cases sgn
  · simp
  · simp only [if_true]
    split
    · simp
    · have : ((2 : Int) ^ l.bits) = ((2 ^ l.bits : Nat) : Int) := by push_cast; rfl
      omega

theorem readPattern_of_readBits {s : State} {l : Loc} {w : Word} (h : readBits s l = w.toNat) : readPattern s l = w := by
  rw [readPattern, h]; simp

/-- `trunc` of a finite pattern, by its exact value (00_scope.md R14). -/
theorem f32Trunc_eq (b : Word) : f32Trunc b = truncValue b := by
  unfold f32Trunc truncValue f32Fix
  split
  · rw [Int.neg_tdiv]; norm_cast
  · norm_cast

/-! ### Operands -/

theorem Operand.isImm_of_fits {c : SlotClass} {o : Operand} (h : o.fits c = true)
    (hc : c = .loc ∨ c = .iloc ∨ c = .bdest) : o.isImm = false := by
  have := Operand.accepts_of_fits h
  rcases hc with rfl | rfl | rfl <;> simp_all [SlotClass.accepts]

theorem Ready.resolve2 {c1 c2 : SlotClass} {s : State} {d x : Operand} {ld lx : Loc} (h : Ready c1 c2 s d x ld lx) :
    resolve2 s d x = .ok (ld, lx) := resolve2_ok h.dst h.src

theorem Ready.writable {c2 : SlotClass} {s : State} {d x : Operand} {ld lx : Loc} (h : Ready .loc c2 s d x ld lx) :
    ld.writable = true := resolve_writable h.dst (Operand.isImm_of_fits h.dstFits (.inl rfl))

theorem Ready.src_lt {c1 c2 : SlotClass} {s : State} {d x : Operand} {ld lx : Loc} (h : Ready c1 c2 s d x ld lx) :
    readBits s lx < 2 ^ lx.bits := readBits_lt_of_resolve (Operand.wf_of_fits h.srcFits) h.src

theorem ReadyRem.facts {s : State} {d x r : Operand} {ld lx lr : Loc} (h : ReadyRem s d x r ld lx lr) :
    ld.writable = true ∧ ld.isFloat = false ∧ lx.isFloat = false ∧ lr.writable = true := by
  have a1 := Operand.accepts_of_fits h.operands.dstFits
  have a2 := Operand.accepts_of_fits h.operands.srcFits
  refine ⟨resolve_writable h.operands.dst (Operand.isImm_of_fits h.operands.dstFits (.inr (.inl rfl))), ?_, ?_,
    resolve_writable h.rem (Operand.isImm_of_fits h.remFits (.inl rfl))⟩
  · rw [resolve_isFloat h.operands.dst]
    simp only [SlotClass.accepts, Bool.and_eq_true, Bool.not_eq_true'] at a1
    exact a1.2
  · rw [resolve_isFloat h.operands.src]
    simpa [SlotClass.accepts] using a2

/-- A block destination is an integer Location of the form's width. -/
theorem ReadyBlock.shape {s : State} {d x : Operand} {w : Width} {dst lx : Loc} (h : ReadyBlock s d x w dst lx) :
    dst.isFloat = false ∧ dst.writable = true ∧ dst.bits = 8 * w.bytes := by
  have := resolveBlock_shape (Operand.accepts_of_fits h.dstFits) h.dst
  exact ⟨this.1, this.2.1, by rw [Loc.bits, this.2.2]⟩

theorem ReadyBlock.src_lt {s : State} {d x : Operand} {w : Width} {dst lx : Loc} (h : ReadyBlock s d x w dst lx) :
    readBits s lx < 2 ^ lx.bits := readBits_lt_of_resolve (Operand.wf_of_fits h.srcFits) h.src

/-- The block destination depends on registers, `MEM_SIZE` and pc alone, as `resolve_congr` says of an operand. -/
theorem resolveBlock_congr {s t : State} (hr : t.regs = s.regs) (hs : t.memSize = s.memSize) (hp : t.pc = s.pc)
    (w : Width) (o : Operand) : resolveBlock t w o = resolveBlock s w o := by
  have hc : ∀ c, t.chainWord c = s.chainWord c := fun c => by
    unfold State.chainWord State.chain; rw [State.readChain_congr hr]
  cases o <;> simp [resolveBlock, Machine.resolve, effectiveAddress, resolveMem, State.inRange, hc, hs, hp]

/-! ### Quotients -/

/-- A quotient's write: the Location holds its pattern, nothing else changes, and Zero says whether it is zero
(45_division.md R291). -/
theorem writeQuotient_spec {s : State} (h : s.mem.wf = true) {l : Loc} (hw : l.writable = true) (x : Value) :
    readBits (writeQuotient s l x) l = (numBits s l x).1 ∧ l.Frame s (writeQuotient s l x) ∧
      OnlyZeroSet s (writeQuotient s l x) (wroteZero l (numBits s l x).1 = true) := by
  obtain ⟨h1, h2⟩ := writeNum_spec h hw x
  refine ⟨by rw [writeQuotient, readBits_setZero, h1], ⟨h2.regs, h2.fregs, h2.bytes, h2.pc, h2.status, h2.memSize⟩,
    ⟨?_, ?_, ?_, ?_, ?_⟩, ?_⟩ <;> simp [writeQuotient, State.setZero, Flags.setZero]

end Sys2Proof.Machine
end

