-- ==== Sys2Proof/Laws/Run.lean ====
section
/-! SUPPORT. The laws of `run()`'s loop. -/

namespace Sys2Proof.Machine

@[simp] theorem startRun_status (s : State) (base : Word) : (startRun s base).status = .running := rfl

@[simp] theorem startRun_pc (s : State) (base : Word) : (startRun s base).pc = base := rfl

@[simp] theorem startRun_memSize (s : State) (base : Word) : (startRun s base).memSize = s.memSize := rfl

@[simp] theorem stepsWith_zero (e : Encoding) (s : State) : stepsWith e 0 s = s := rfl

/-- No step is taken from a state that has ended. -/
theorem stepsWith_of_ended {e : Encoding} {s : State} (h : s.status ≠ .running) (n : Nat) : stepsWith e n s = s := by
  cases n with
  | zero => rfl
  | succ n => exact if_neg h

/-- The loop takes the step, then goes on. -/
theorem stepsWith_succ {e : Encoding} {s t : State} (hs : s.status = .running) (h : stepWith e s = .next t) (n : Nat) :
    stepsWith e (n + 1) s = stepsWith e n t := by
  simp only [stepsWith, if_pos hs, h]

/-- What a run that has a result says: the loop, from the start, has ended in it. -/
theorem runWith_eq_some {e : Encoding} {n : Nat} {s t : State} {base : Word} :
    runWith e n s base = some t ↔ stepsWith e n (startRun s base) = t ∧ t.status ≠ .running := by
  unfold runWith
  by_cases h : (stepsWith e n (startRun s base)).status = .running
  · rw [if_pos h]
    exact ⟨nofun, fun k => absurd (k.1 ▸ h) k.2⟩
  · rw [if_neg h, Option.some.injEq]
    exact ⟨fun k => ⟨k, k ▸ h⟩, fun k => k.1⟩

end Sys2Proof.Machine
end

