-- ==== Sys2Proof/Laws/Step.lean ====
section
/-! SUPPORT. What a step can do, said once; the fetch window; and the advance phase. -/

namespace Sys2Proof.Machine

/-! ### Fetching -/

theorem word_add_succ (a : Word) (k : Nat) : a + BitVec.ofNat 32 (k + 1) = a + 1 + BitVec.ofNat 32 k := by
  rw [BitVec.add_assoc, Nat.add_comm k 1, BitVec.ofNat_add]
  rfl

theorem fetchByte_cases (s : State) (a : Word) :
    (a.toNat < s.memSize ∧ fetchByte s a = .ok (s.mem.read a.toNat)) ∨
    (s.memSize ≤ a.toNat ∧ fetchByte s a = .error (.memOutOfRange s.pc a 1)) := by
  unfold fetchByte State.inRange
  by_cases h : a.toNat + 1 ≤ s.memSize
  · exact .inl ⟨h, if_pos (decide_eq_true h)⟩
  · exact .inr ⟨by omega, if_neg (by simpa using h)⟩

theorem fetchFrom_length_le (s : State) (a : Word) (n : Nat) : (fetchFrom s a n).length ≤ n := by
  induction n generalizing a with
  | zero => simp [fetchFrom]
  | succ n ih =>
    unfold fetchFrom
    rcases fetchByte_cases s a with ⟨-, e⟩ | ⟨-, e⟩ <;> rw [e]
    · simpa using ih (a + 1)
    · simp

/-- The window holds the bytes of memory from `a` up, in address order. -/
theorem fetchFrom_getElem? (s : State) (a : Word) (n k : Nat) (h : k < (fetchFrom s a n).length) :
    (a + BitVec.ofNat 32 k).toNat < s.memSize ∧
      (fetchFrom s a n)[k]? = some (s.mem.read (a + BitVec.ofNat 32 k).toNat) := by
  induction n generalizing a k with
  | zero => simp [fetchFrom] at h
  | succ n ih =>
    unfold fetchFrom at h ⊢
    rcases fetchByte_cases s a with ⟨hb, e⟩ | ⟨-, e⟩
    · rw [e] at h ⊢
      cases k with
      | zero => simpa using hb
      | succ k =>
        rw [word_add_succ]
        simpa using ih (a + 1) k (by simpa using h)
    · rw [e] at h
      simp at h

/-- The window ends early only at a byte that cannot be fetched. -/
theorem fetchFrom_end (s : State) (a : Word) (n : Nat) (h : (fetchFrom s a n).length < n) :
    s.memSize ≤ (a + BitVec.ofNat 32 (fetchFrom s a n).length).toNat := by
  induction n generalizing a with
  | zero => simp at h
  | succ n ih =>
    unfold fetchFrom at h ⊢
    rcases fetchByte_cases s a with ⟨hb, e⟩ | ⟨hb, e⟩
    · rw [e] at h ⊢
      have := ih (a + 1) (by simpa using h)
      simp only [List.length_cons]
      rw [word_add_succ]
      exact this
    · rw [e]
      simpa using hb

/-- All that fetching and decoding can answer. -/
theorem fetchDecode_cases (s : State) :
    (∃ i rest, decode (fetchFrom s s.pc fetchLimit) = .ok (i, rest) ∧
      fetchDecode s = .ok (i, (fetchFrom s s.pc fetchLimit).length - rest.length)) ∨
    (decode (fetchFrom s s.pc fetchLimit) = .error .truncated ∧
      fetchDecode s =
        .error (.memOutOfRange s.pc (s.pc + BitVec.ofNat 32 (fetchFrom s s.pc fetchLimit).length) 1)) ∨
    (∃ e, e ≠ .truncated ∧ decode (fetchFrom s s.pc fetchLimit) = .error e ∧
      fetchDecode s = .error (.decodeIllegal s.pc ((fetchFrom s s.pc fetchLimit).headD 0))) := by
  unfold fetchDecode fetchDecodeWith referenceEncoding
  dsimp only
  cases h : decode (fetchFrom s s.pc fetchLimit) with
  | ok p => exact .inl ⟨p.1, p.2, rfl, rfl⟩
  | error e =>
    cases e
    case truncated => exact .inr (.inl ⟨rfl, rfl⟩)
    all_goals exact .inr (.inr ⟨_, by simp, rfl, rfl⟩)

theorem fetchDecode_error_pc {s : State} {f : FaultRecord} (h : fetchDecode s = .error f) : f.pc = s.pc := by
  rcases fetchDecode_cases s with ⟨i, r, -, e⟩ | ⟨-, e⟩ | ⟨x, -, -, e⟩ <;> rw [e] at h <;> cases h <;> rfl

/-! ### The step -/

@[simp] theorem advancePhase_next (len : Nat) (t : State) :
    advancePhase len (.next t) = if t.status = .running then .next (t.advance len) else .next t := rfl

/-- What the advance phase can answer with a next state. -/
theorem advancePhase_eq_next {len : Nat} {o : Host.Outcome State Fault Refusal} {t : State}
    (h : advancePhase len o = .next t) :
    ∃ u, o = .next u ∧ ((u.status = .running ∧ t = u.advance len) ∨ (u.status ≠ .running ∧ t = u)) := by
  cases o with
  | next u =>
    refine ⟨u, rfl, ?_⟩
    rw [advancePhase_next] at h
    split at h
    · cases h; exact .inl ⟨‹_›, rfl⟩
    · cases h; exact .inr ⟨‹_›, rfl⟩
  | fault r => cases h
  | refused r => cases h

/-- All that a step can do when it answers a next state (40_engine.md R162): the engine was Running, and the step took
a fetch or decode fault, or executed the decoded instruction and advanced. -/
theorem step_cases {s t : State} (h : step s = .next t) :
    s.status = .running ∧
      ((∃ f, fetchDecode s = .error f ∧ t = s.raiseFault f) ∨
        ∃ i len u, fetchDecode s = .ok (i, len) ∧ exec i s = .next u ∧
          ((u.status = .running ∧ t = u.advance len) ∨ (u.status ≠ .running ∧ t = u))) := by
  unfold step stepWith at h
  cases hs : s.status with
  | halted => simp [hs] at h
  | faulted f => simp [hs] at h
  | running =>
    refine ⟨rfl, ?_⟩
    simp only [hs] at h
    cases hd : fetchDecodeWith referenceEncoding s with
    | error f =>
      simp only [hd, Host.Outcome.next.injEq] at h
      exact .inl ⟨f, hd, h.symm⟩
    | ok p =>
      simp only [hd] at h
      obtain ⟨u, hu, hc⟩ := advancePhase_eq_next h
      exact .inr ⟨p.1, p.2, u, hd, hu, hc⟩

/-- A step of a Running state. -/
theorem step_of_fetchDecode_ok {s : State} (hs : s.status = .running) {i : Instr} {len : Nat}
    (h : fetchDecode s = .ok (i, len)) : step s = advancePhase len (exec i s) := by
  have h' : fetchDecodeWith referenceEncoding s = .ok (i, len) := h
  simp only [step, stepWith, hs, h']

theorem step_of_fetchDecode_error {s : State} (hs : s.status = .running) {f : FaultRecord}
    (h : fetchDecode s = .error f) : step s = .next (s.raiseFault f) := by
  have h' : fetchDecodeWith referenceEncoding s = .error f := h
  simp only [step, stepWith, hs, h']

end Sys2Proof.Machine
end

