-- ==== Sys2Proof/Tests/Slice0.lean ====
section
/-! SUPPORT. The model's own tests. Expected results are those of spec/95_test_vectors.md (the vector is named) or hand
readings of 30_encoding.md; then a witness for every statement that has hypotheses. -/

namespace Sys2Proof.Tests

open Sys2Proof.Machine

/-! ### Helpers -/

/-- The state after reset with a program at address 0. -/
def at0 (bytes : List Byte) : State := { State.reset with mem := Memory.writeBytes [] 0 bytes }

/-- The step answers a next state with the property. -/
def steps (s : State) (p : State → Bool) : Bool :=
  match step s with
  | .next t => p t
  | .fault _ => false
  | .refused _ => false

/-- The step answers a next state with this status. -/
def endsIn (s : State) (st : Status) : Bool := steps s fun t => decide (t.status = st)

/-- The six flags as the vectors list them: Zero, EQ, GT, LT, GTE, LTE. -/
def flagsAre (t : State) (z e g l ge le : Bool) : Bool := decide (t.flags = ⟨z, e, g, l, ge, le⟩)

/-- What the decoder makes of bytes: the instruction, and how many bytes are left. -/
def reads (bs : List Byte) (i : Instr) (left : Nat) : Bool :=
  match decode bs with
  | .ok (j, rest) => decide (j = i ∧ rest.length = left)
  | .error _ => false

/-- The decoder's reason to reject bytes. -/
def rejects (bs : List Byte) (e : DecodeError) : Bool :=
  match decode bs with
  | .ok _ => false
  | .error f => decide (f = e)

/-- Register chains by their letters. -/
def cA : Chain := ⟨0, .w1⟩
def cB : Chain := ⟨1, .w1⟩
def cAB : Chain := ⟨0, .w2⟩
def cABC : Chain := ⟨0, .w3⟩
def cBCD : Chain := ⟨1, .w3⟩
def cZA : Chain := ⟨25, .w2⟩

/-! ### Decoding: bytes written out from 30_encoding.md R111 to R122 -/

/-- V12: the source's length examples, each read whole. -/
theorem test_decode_ld : reads [0x01, 0x10, 0x00, 0x10, 0x01, 0xFF] (.ld (.reg cA) (.reg cB)) 1 = true := by decide
theorem test_decode_ld_float_register : reads [0x01, 0x20, 0x00, 0x10, 0x00] (.ld (.freg 0) (.reg cA)) 0 = true := by decide
theorem test_decode_ld_mabs :
    reads [0x01, 0x20, 0x00, 0x44, 0x00, 0x10, 0x00] (.ld (.freg 0) (.mabs .float32 0x001000)) 0 = true := by decide
theorem test_decode_ld_mabs_offset1 :
    reads [0x01, 0x10, 0x00, 0x50, 0x00, 0x10, 0x00, 0x05] (.ld (.reg cA) (.mabsOff .int8 0x001000 .w1 5)) 0 = true := by
  decide
theorem test_decode_ld_mabs_offset3 :
    reads [0x01, 0x10, 0x00, 0x70, 0x00, 0x10, 0x00, 0x01, 0x00, 0x00]
      (.ld (.reg cA) (.mabsOff .int8 0x001000 .w3 0x010000)) 0 = true := by decide
theorem test_decode_ld_mabs_register :
    reads [0x01, 0x10, 0x00, 0x80, 0x00, 0x10, 0x00, 0x04]
      (.ld (.reg cA) (.mabsReg .int8 0x001000 ⟨4, .w1⟩)) 0 = true := by decide
theorem test_decode_ld_pointer :
    reads [0x01, 0x10, 0x00, 0x90, 0x81] (.ld (.reg cA) (.mptr .int8 cBCD)) 0 = true := by decide
theorem test_decode_ld_pointer_offset2 :
    reads [0x01, 0x10, 0x00, 0xB0, 0x81, 0x10, 0x00] (.ld (.reg cA) (.mptrOff .int8 cBCD .w2 0x1000)) 0 = true := by
  decide
theorem test_decode_ld_pointer_register :
    reads [0x01, 0x10, 0x00, 0xD0, 0x81, 0x04] (.ld (.reg cA) (.mptrReg .int8 cBCD ⟨4, .w1⟩)) 0 = true := by decide
theorem test_decode_ld_wrapping_chain :
    reads [0x01, 0x10, 0x59, 0x31, 0xBE, 0xEF] (.ld (.reg cZA) (.imm .int16 0xBEEF)) 0 = true := by decide
theorem test_decode_cp : reads [0x02, 0x10, 0x40, 0x10, 0x02] (.cp (.reg cAB) (.reg ⟨2, .w1⟩)) 0 = true := by decide
theorem test_decode_scp : reads [0x03, 0x20, 0x00, 0x10, 0x00] (.scp (.freg 0) (.reg cA)) 0 = true := by decide
theorem test_decode_and :
    reads [0x04, 0x41, 0x00, 0x10, 0x00, 0x31, 0x00, 0xFF] (.and (.mabs .int16 0x001000) (.imm .int16 0x00FF)) 0 = true := by
  decide
theorem test_decode_or : reads [0x05, 0x10, 0xC0, 0x10, 0x04] (.or (.reg ⟨0, .w4⟩) (.reg ⟨4, .w1⟩)) 0 = true := by decide
theorem test_decode_xor :
    reads [0x06, 0x20, 0x00, 0x33, 0x80, 0x00, 0x00, 0x00] (.xor (.freg 0) (.imm .int32 0x80000000)) 0 = true := by decide
theorem test_decode_nand :
    reads [0x07, 0x10, 0x80, 0x32, 0x01, 0x02, 0x03] (.nand (.reg cABC) (.imm .int24 0x010203)) 0 = true := by decide
theorem test_decode_nor : reads [0x08, 0x10, 0x00, 0x30, 0x30] (.nor (.reg cA) (.imm .int8 0x30)) 0 = true := by decide
theorem test_decode_xnor :
    reads [0x09, 0x10, 0x40, 0x31, 0x12, 0x34] (.xnor (.reg cAB) (.imm .int16 0x1234)) 0 = true := by decide
theorem test_decode_bit : reads [0x0A, 0x10, 0x00, 0x20, 0x0F] (.bit (.reg cA) (.freg 15)) 0 = true := by decide
theorem test_decode_sl : reads [0x0B, 0x10, 0x00, 0x10, 0x41] (.sl (.reg cA) (.reg ⟨1, .w2⟩)) 0 = true := by decide
theorem test_decode_slW :
    reads [0x0C, 0x40, 0x00, 0x10, 0x00, 0x30, 0x04, 0x30, 0x02] (.slW (.mabs .int8 0x001000) (.imm .int8 4) .w2) 0 = true := by
  decide
theorem test_decode_slWN :
    reads [0x0D, 0x40, 0x00, 0x10, 0x00, 0x30, 0x01, 0x30, 0x04, 0x10, 0x06]
      (.slWN (.mabs .int8 0x001000) (.imm .int8 1) .w4 (.reg ⟨6, .w1⟩)) 0 = true := by decide
theorem test_decode_sr : reads [0x0E, 0x20, 0x00, 0x30, 0x01] (.sr (.freg 0) (.imm .int8 1)) 0 = true := by decide
theorem test_decode_div :
    reads [0x0F, 0x10, 0x40, 0x34, 0x40, 0x40, 0x00, 0x00] (.div (.reg cAB) (.imm .float32 0x40400000)) 0 = true := by decide
theorem test_decode_divR :
    reads [0x10, 0x10, 0x40, 0x30, 0x10, 0x10, 0x02] (.divR (.reg cAB) (.imm .int8 16) (.reg ⟨2, .w1⟩)) 0 = true := by decide
theorem test_decode_divW :
    reads [0x11, 0x40, 0x00, 0x20, 0x00, 0x30, 0x02, 0x30, 0x01] (.divW (.mabs .int8 0x002000) (.imm .int8 2) .w1) 0 = true := by
  decide
theorem test_decode_divWN :
    reads [0x12, 0x10, 0x00, 0x90, 0x00, 0x30, 0x03, 0x30, 0x02]
      (.divWN (.reg cA) (.mptr .int8 cA) .w3 (.imm .int8 2)) 0 = true := by decide
theorem test_decode_sdiv : reads [0x13, 0x10, 0x40, 0x10, 0x02] (.sdiv (.reg cAB) (.reg ⟨2, .w1⟩)) 0 = true := by decide
theorem test_decode_sdivR :
    reads [0x14, 0x10, 0x00, 0x30, 0x02, 0x20, 0x00] (.sdivR (.reg cA) (.imm .int8 2) (.freg 0)) 0 = true := by decide
theorem test_decode_rgb2hsb :
    reads [0x15, 0x10, 0xC3, 0x10, 0x80] (.rgb2hsb (.reg ⟨3, .w4⟩) (.reg cABC)) 0 = true := by decide
theorem test_decode_brk : reads [0x16, 0x16] .brk 1 = true := by decide

/-! Rejections: one for each item of 30_encoding.md R126, from the vectors V-DEC-1 to V-DEC-17. -/

theorem test_reject_opcode_00 : rejects [0x00] .badOpcode = true := by decide
theorem test_reject_opcode_17 : rejects [0x17] .badOpcode = true := by decide
theorem test_reject_kind_E : rejects [0x01, 0xE0] .badKind = true := by decide
theorem test_reject_kind_0 : rejects [0x01, 0x00] .badKind = true := by decide
theorem test_reject_register_subfield : rejects [0x01, 0x11, 0x00, 0x30, 0x03] .badSubfield = true := by decide
theorem test_reject_type_code_5 : rejects [0x01, 0x10, 0x00, 0x35, 0, 0, 0, 0] .badTypeCode = true := by decide
theorem test_reject_register_bit5 : rejects [0x01, 0x10, 0x20, 0x30, 0x03] .badRegister = true := by decide
theorem test_reject_register_26 : rejects [0x01, 0x10, 0x1A, 0x30, 0x03] .badRegister = true := by decide
theorem test_reject_pointer_width4 : rejects [0x01, 0x10, 0x00, 0x90, 0xC1] .badPointerWidth = true := by decide
theorem test_reject_float_register_16 : rejects [0x01, 0x20, 0x10, 0x30, 0x03] .badFloatRegister = true := by decide
theorem test_reject_immediate_destination : rejects [0x01, 0x30, 0x03, 0x10, 0x00] .wrongClass = true := by decide
theorem test_reject_spec_int16 : rejects [0x0C, 0x10, 0x00, 0x30, 0x01, 0x31, 0x00, 0x02] .badWidthSpec = true := by decide
theorem test_reject_spec_5 : rejects [0x0C, 0x10, 0x00, 0x30, 0x01, 0x30, 0x05] .badWidthSpec = true := by decide
theorem test_reject_spec_0 : rejects [0x0C, 0x10, 0x00, 0x30, 0x01, 0x30, 0x00] .badWidthSpec = true := by decide
theorem test_reject_float_block_destination : rejects [0x0C, 0x20, 0x00, 0x30, 0x01, 0x30, 0x02] .wrongClass = true := by
  decide
theorem test_reject_float_remainder_dividend : rejects [0x10, 0x20, 0x00, 0x30, 0x02, 0x10, 0x02] .wrongClass = true := by
  decide
theorem test_reject_memory_count :
    rejects [0x0D, 0x40, 0x00, 0x10, 0x00, 0x30, 0x01, 0x30, 0x01, 0x40, 0x00, 0x20, 0x00] .wrongClass = true := by decide
/-- The longest read before a rejection: a count slot with a 7-byte memory descriptor, 24 bytes in all. -/
theorem test_reject_reads_24_bytes :
    rejects [0x0D, 0x70, 0, 0, 0, 0, 0, 0, 0x70, 0, 0, 0, 0, 0, 0, 0x30, 1, 0x70, 0, 0, 0, 0, 0, 0] .wrongClass = true ∧
    rejects [0x0D, 0x70, 0, 0, 0, 0, 0, 0, 0x70, 0, 0, 0, 0, 0, 0, 0x30, 1, 0x70, 0, 0, 0, 0, 0] .truncated = true := by
  decide
theorem test_truncated : rejects [0x01, 0x10, 0x00, 0x30] .truncated = true := by decide

/-! The host's table words (30_encoding.md R122): byte 0 is bits 7..0. Operand bytes of zeros are no descriptor (R126
item 2). -/

theorem test_tableWord_brk : decodeTableWord 8 0x16 = some .brk := by decide
theorem test_tableWord_full : decodeTableWord 40 0x0300301001 = none := by decide
theorem test_tableWord_ld : decodeTableWord 40 0x0330001001 = some (.ld (.reg cA) (.imm .int8 3)) := by decide
theorem test_withFetchWord_runs :
    steps (State.reset.withFetchWord 40 0x0330001001) (fun t => t.readReg 0 == 3 && t.pc == 5) = true := by
  decide +kernel

/-! ### Well-formedness: each check refuses a term (30_encoding.md R115, R117 to R121) -/

theorem test_wf_immediate_too_wide : (Instr.ld (.reg cA) (.imm .int8 0x100)).wf = false := by decide
theorem test_wf_address_too_wide : (Instr.ld (.reg cA) (.mabs .int8 0x01000000)).wf = false := by decide
theorem test_wf_offset_too_wide : (Instr.ld (.reg cA) (.mabsOff .int8 0 .w1 0x100)).wf = false := by decide
theorem test_wf_offset_of_4_bytes : (Instr.ld (.reg cA) (.mptrOff .int8 cA .w4 0)).wf = false := by decide
theorem test_wf_offset_register_width4 : (Instr.ld (.reg cA) (.mabsReg .int8 0 ⟨0, .w4⟩)).wf = false := by decide
theorem test_wf_pointer_width4 : (Instr.ld (.reg cA) (.mptr .int8 ⟨0, .w4⟩)).wf = false := by decide
theorem test_wf_pointer_offset_width4 : (Instr.ld (.reg cA) (.mptrOff .int8 ⟨0, .w4⟩ .w1 0)).wf = false := by decide
theorem test_wf_pointer_register_width4 : (Instr.ld (.reg cA) (.mptrReg .int8 cA ⟨0, .w4⟩)).wf = false := by decide
theorem test_wf_loc_immediate : (Instr.cp (.imm .int8 3) (.reg cA)).wf = false := by decide
theorem test_wf_iloc_float : (Instr.divR (.freg 0) (.imm .int8 2) (.reg cA)).wf = false := by decide
theorem test_wf_isrc_float : (Instr.sdivR (.reg cA) (.imm .float32 0x40000000) (.reg cB)).wf = false := by decide
theorem test_wf_rgb_float_source : (Instr.rgb2hsb (.reg cA) (.freg 0)).wf = false := by decide
theorem test_wf_bdest_float : (Instr.slW (.mabs .float32 0) (.imm .int8 1) .w1).wf = false := by decide
theorem test_wf_bdest_immediate : (Instr.divW (.imm .int8 1) (.imm .int8 1) .w1).wf = false := by decide
theorem test_wf_cnt_memory : (Instr.slWN (.reg cA) (.imm .int8 1) .w1 (.mabs .int8 0)).wf = false := by decide
theorem test_wf_cnt_float : (Instr.divWN (.reg cA) (.imm .int8 1) .w1 (.imm .float32 0)).wf = false := by decide

/-! ### One step of each instruction -/

/-- V-LD-4: -1.0 to a byte register. -/
theorem test_ld_float_to_int :
    steps ((at0 [0x01, 0x10, 0x00, 0x20, 0x00]).setBits 0 0xBF800000) (fun t => t.readReg 0 == 0xFF && t.pc == 5) = true := by
  decide
/-- V-LD-7: an overlapping chain copy reads before it writes. -/
theorem test_ld_overlapping_chains :
    steps ((at0 [0x01, 0x10, 0x41, 0x10, 0x40]).writeChain 0 2 0x1234)
      (fun t => t.readReg 0 == 0x12 && t.readReg 1 == 0x12 && t.readReg 2 == 0x34) = true := by decide
/-- V-CP-2: the wider operand is cut to the narrower width. -/
theorem test_cp_common_width :
    steps ((at0 [0x02, 0x10, 0x40, 0x10, 0x02]).writeChain 0 2 0x0100) (flagsAre · true true false false true true) = true := by
  decide
/-- V-CP-11: an int operand of CP is unsigned in the float domain. -/
theorem test_cp_float_unsigned :
    steps (((at0 [0x02, 0x20, 0x00, 0x10, 0x00]).writeReg 0 0xFF).setBits 0 0xBF800000)
      (flagsAre · false false false true false true) = true := by decide
/-- V-SCP-2: -128 against 127. -/
theorem test_scp_signed :
    steps (((at0 [0x03, 0x10, 0x00, 0x10, 0x01]).writeReg 0 0x80).writeReg 1 0x7F)
      (flagsAre · false false false true false true) = true := by decide
/-- V-SCP-5: an int operand of SCP is signed in the float domain. -/
theorem test_scp_float_signed :
    steps (((at0 [0x03, 0x20, 0x00, 0x10, 0x00]).writeReg 0 0xFF).setBits 0 0xBF800000)
      (flagsAre · true true false false true true) = true := by decide
/-- V-AND-4: a 16-bit memory destination. -/
theorem test_and_memory :
    steps ((at0 [0x04, 0x41, 0x00, 0x10, 0x00, 0x31, 0x00, 0xFF]).store 0x1000 2 0x1234)
      (fun t => t.mem.read 0x1000 == 0 && t.mem.read 0x1001 == 0x34 && flagsAre t false false false false false false) = true := by
  decide
/-- V-OR-3. -/
theorem test_or_zero_extends :
    steps (((at0 [0x05, 0x10, 0xC0, 0x10, 0x04]).writeReg 0 0x80).writeReg 4 1)
      (fun t => t.readChain 0 4 == 0x80000001) = true := by decide
/-- V-XOR-2. -/
theorem test_xor_self_zero :
    steps ((at0 [0x06, 0x10, 0x00, 0x10, 0x00]).writeReg 0 0x5C)
      (fun t => t.readReg 0 == 0 && flagsAre t true false false false false false) = true := by decide
/-- V-NAND-2: the complement stays within the destination's width. -/
theorem test_nand_width :
    steps (at0 [0x07, 0x10, 0x80, 0x32, 0, 0, 0]) (fun t => t.readChain 0 3 == 0xFFFFFF && t.readReg 3 == 0) = true := by
  decide
/-- V-NOR-2. -/
theorem test_nor :
    steps ((at0 [0x08, 0x10, 0x00, 0x30, 0x30]).writeReg 0 0x0F) (fun t => t.readReg 0 == 0xC0) = true := by decide
/-- V-XNOR-3. -/
theorem test_xnor_zero :
    steps ((at0 [0x09, 0x10, 0x00, 0x30, 0x0F]).writeReg 0 0xF0)
      (fun t => t.readReg 0 == 0 && flagsAre t true false false false false false) = true := by decide
/-- V-BIT-4: the mask of a float register is its pattern. -/
theorem test_bit_float_mask :
    steps (((at0 [0x0A, 0x10, 0x00, 0x20, 0x00]).writeReg 0 1).setBits 0 0x3F800000)
      (fun t => t.readReg 0 == 1 && flagsAre t true false false false false false) = true := by decide
/-- V-SL-5: a count above the width, of 24 bits. -/
theorem test_sl_count_modulo_24 :
    steps ((at0 [0x0B, 0x10, 0x80, 0x32, 0x00, 0x00, 0x19]).writeChain 0 3 0x800001)
      (fun t => t.readChain 0 3 == 2) = true := by decide
/-- V-SL-7: a float count is truncated. -/
theorem test_sl_float_count :
    steps (((at0 [0x0B, 0x10, 0x00, 0x20, 0x01]).writeReg 0 1).setBits 1 0x406CCCCD) (fun t => t.readReg 0 == 8) = true := by
  decide
/-- V-SL-14: a chain written 1 wide, operated 2 wide. -/
theorem test_slW_width :
    steps ((at0 [0x0C, 0x10, 0x00, 0x30, 0x01, 0x30, 0x02]).writeChain 0 2 0x8001) (fun t => t.readChain 0 2 == 2) = true := by
  decide
/-- V-SL-13: the count is read afresh in each iteration. -/
theorem test_slWN_self_count :
    steps ((at0 [0x0D, 0x10, 0x00, 0x10, 0x00, 0x30, 0x01, 0x30, 0x02]).writeReg 0 1) (fun t => t.readReg 0 == 8) = true := by
  decide
/-- V-SR-4. -/
theorem test_sr_float_pattern :
    steps ((at0 [0x0E, 0x20, 0x00, 0x30, 0x01]).setBits 0 0xC0000000) (fun t => t.getBits 0 == 0x60000000) = true := by
  decide
/-- V-DIV-9: 1.0 / 3.0 rounds to nearest. -/
theorem test_div_float :
    steps (((at0 [0x0F, 0x20, 0x00, 0x20, 0x01]).setBits 0 0x3F800000).setBits 1 0x40400000)
      (fun t => t.getBits 0 == 0x3EAAAAAB && flagsAre t false false false false false false) = true := by decide
/-- V-DIV-10: -0.0 is a zero divisor. -/
theorem test_div_negative_zero :
    endsIn (((at0 [0x0F, 0x10, 0x00, 0x20, 0x01]).writeReg 0 7).setBits 1 0x80000000) (.faulted (.divByZero 0)) = true := by
  decide
/-- V-DIV-19: the remainder is written after the quotient. -/
theorem test_divR_remainder_last :
    steps ((at0 [0x10, 0x10, 0x00, 0x30, 0x07, 0x10, 0x00]).writeReg 0 100)
      (fun t => t.readReg 0 == 2 && t.flags.zero == false) = true := by decide
/-- By hand from 45_division.md R296: `DIV AB, 2, B` of 0xFFFF leaves the quotient 0x7FFF's high byte in A. -/
theorem test_divR_remainder_over_low_byte :
    steps ((at0 [0x10, 0x10, 0x40, 0x30, 0x02, 0x10, 0x01]).writeChain 0 2 0xFFFF)
      (fun t => t.readReg 0 == 0x7F && t.readReg 1 == 1) = true := by decide
/-- V-DIV-13: two bytes of memory. -/
theorem test_divW_width :
    steps ((at0 [0x11, 0x40, 0x00, 0x20, 0x00, 0x30, 0x02, 0x30, 0x02]).store 0x2000 2 0x0100)
      (fun t => t.mem.read 0x2000 == 0 && t.mem.read 0x2001 == 0x80) = true := by decide
/-- V-DIV-12: the second iteration faults and the first one's quotient stays. -/
theorem test_divWN_fault_keeps_first :
    steps (((at0 [0x12, 0x10, 0x00, 0x90, 0x00, 0x30, 0x01, 0x30, 0x02]).writeReg 0 0x40).store 0x40 1 2)
      (fun t => t.readReg 0 == 0x20 && t.pc == 0 && decide (t.status = .faulted (.divByZero 0))) = true := by decide
/-- V-SDIV-11: each operand is signed at its own width. -/
theorem test_sdiv_own_width :
    steps (((at0 [0x13, 0x10, 0x40, 0x10, 0x02]).writeChain 0 2 0x00F6).writeReg 2 3)
      (fun t => t.readChain 0 2 == 0x52) = true := by decide
/-- V-SDIV-12: a float register as the remainder destination. -/
theorem test_sdivR_float_remainder :
    steps ((at0 [0x14, 0x10, 0x00, 0x30, 0x02, 0x20, 0x00]).writeReg 0 0xF9)
      (fun t => t.readReg 0 == 0xFD && t.getBits 0 == 0xBF800000) = true := by decide
/-- V-SDIV-(-128,-1): the quotient 128 wraps to -128. -/
theorem test_sdivR_overflow :
    steps (((at0 [0x14, 0x10, 0x00, 0x10, 0x01, 0x10, 0x02]).writeReg 0 0x80).writeReg 1 0xFF)
      (fun t => t.readReg 0 == 0x80 && t.readReg 2 == 0) = true := by decide
/-- V-RGB-6: RGB2HSB writes no flag and keeps its source. -/
theorem test_rgb2hsb_flags :
    steps (((at0 [0x15, 0x10, 0xC3, 0x10, 0x80]).writeChain 0 3 0x102030).setFlags ⟨true, true, false, false, true, true⟩)
      (fun t => flagsAre t true true false false true true && t.readChain 0 3 == 0x102030 && t.pc == 5) = true := by decide
/-- V-BRK-2: BREAK at the last address halts there. -/
theorem test_brk_last_byte :
    steps { State.reset with mem := [(0xFFFFFF, 0x16)], pc := 0xFFFFFF }
      (fun t => decide (t.status = .halted) && t.pc == 0xFFFFFF) = true := by decide

/-! Addresses and faults of a step. -/

/-- V-EA-12: the sum of pointer and offset exceeds memory. -/
theorem test_address_sum_out_of_range :
    endsIn ((at0 [0x01, 0x10, 0x00, 0xC0, 0x81, 0xFF, 0xFF, 0xFF]).writeChain 1 3 0xFFFFFF)
      (.faulted (.memOutOfRange 0 0x1FFFFFE 1)) = true := by decide
/-- V-EA-11: a pointer chain that wraps past Z. -/
theorem test_pointer_wraps_past_Z :
    steps (((at0 [0x01, 0x10, 0x02, 0x90, 0x99]).writeChain 25 3 0x003000).store 0x3000 1 0x94)
      (fun t => t.readReg 2 == 0x94) = true := by decide
/-- V-DEC-18: the instruction runs off the end of memory. -/
theorem test_fetch_off_the_end :
    endsIn { State.reset with mem := Memory.writeBytes [] 0xFFFFFD [0x01, 0x10, 0x00], pc := 0xFFFFFD }
      (.faulted (.memOutOfRange 0xFFFFFD 0x1000000 1)) = true := by decide
/-- V-DEC-22: a decode fault is found before the first operand is resolved. -/
theorem test_decode_before_resolve :
    endsIn (at0 [0x01, 0x41, 0xFF, 0xFF, 0xFF, 0xE0]) (.faulted (.decodeIllegal 0 0x01)) = true := by decide
/-- V-DEC-20: resolution is before the zero divisor. -/
theorem test_resolve_before_zero_divisor :
    endsIn (at0 [0x0F, 0x41, 0xFF, 0xFF, 0xFF, 0x31, 0x00, 0x00]) (.faulted (.memOutOfRange 0 0xFFFFFF 2)) = true := by
  decide

/-! ### Witnesses: concrete states and operands that meet the hypotheses of each statement -/

/-- A = 0xF9, B = 2, C = 0, F0 = 7.0, F1 = NaN, F2 = -0.0, F3 = the largest float below 2^32, F4 = +infinity;
memory 12 34 at 0x1000, and 0x80 in the last byte. -/
def sW : State :=
  (((((((at0 [0x01, 0x10, 0x00, 0x30, 0x03, 0x16]).writeReg 0 0xF9).writeReg 1 2).setBits 0 0x40E00000).setBits 1
    0x7FC00001).setBits 2 0x80000000).setBits 3 0x4F7FFFFF).setBits 4 0x7F800000 |>.store 0x1000 2 0x1234 |>.store
      0xFFFFFF 1 0x80

/-- The last byte of memory as an operand. -/
def lastByte : Operand := .mabs .int8 0xFFFFFF
def lastByteLoc : Loc := .mem 0xFFFFFF .int8

/-- An operand one byte past the end: two bytes from the last address. -/
def pastEnd : Operand := .mabs .int16 0xFFFFFF

/-! Encoding. -/

/-- The longest well-formed instructions: 22 bytes each. -/
theorem witness_DecodeInvertsEncode :
    (Instr.divR (.mabsOff .int8 0xFFFFFF .w3 0xFFFFFF) (.mabsOff .int32 0 .w3 0) (.mabsOff .float32 0 .w3 1)).wf = true ∧
    (Instr.slWN (.mabsOff .int8 0xFFFFFF .w3 0xFFFFFF) (.mabsOff .float32 0 .w3 0) .w4 (.imm .int32 0xFFFFFFFF)).wf = true := by
  decide
theorem witness_EncodeInvertsDecode :
    decode [0x01, 0x10, 0xD9, 0x30, 0xFF, 0x16] = .ok (.ld (.reg ⟨25, .w4⟩) (.imm .int8 0xFF), [0x16]) := rfl
theorem witness_DecodeFaultIgnoresLaterBytes :
    decode [0x0C, 0x10, 0x00, 0x30, 0x01, 0x30, 0x05] = .error .badWidthSpec ∧
      DecodeError.badWidthSpec ≠ .truncated := ⟨rfl, by decide⟩
/-- The opcode bytes 0x00, 0x17 and 0xFF. -/
theorem witness_UnassignedOpcodeFaults :
    (State.reset.status = .running ∧ State.reset.pc.toNat < State.reset.memSize ∧ State.reset.mem.read State.reset.pc.toNat = 0) ∧
    0x17 ≤ ((at0 [0x17]).mem.read (at0 [0x17]).pc.toNat).toNat ∧
    0x17 ≤ ((at0 [0xFF]).mem.read (at0 [0xFF]).pc.toNat).toNat := by decide

/-! Fetch and step. -/

/-- Bytes up to the last one of memory that are illegal there (kind 0xE), and bytes that need one more. -/
theorem witness_FetchFaultsAtFirstBadByte_priority :
    let s : State := { State.reset with mem := [(0xFFFFFE, 0x01), (0xFFFFFF, 0xE0)], pc := 0xFFFFFE }
    let t : State := { State.reset with mem := [(0xFFFFFE, 0x01), (0xFFFFFF, 0x10)], pc := 0xFFFFFE }
    decode [0x01, 0xE0] = .error .badKind ∧ decode [0x01, 0x10] = .error .truncated ∧
    (∀ k < 2, (s.pc + BitVec.ofNat 32 k).toNat < s.memSize ∧
      [0x01, 0xE0][k]? = some (s.mem.read (s.pc + BitVec.ofNat 32 k).toNat) ∧
      [0x01, 0x10][k]? = some (t.mem.read (t.pc + BitVec.ofNat 32 k).toNat)) ∧
    t.memSize ≤ (t.pc + BitVec.ofNat 32 2).toNat := ⟨rfl, rfl, by decide, by decide⟩
/-- An illegal encoding; a missing byte after the opcode byte; and a pc at the first address outside memory. -/
theorem witness_FetchFaultsAtFirstBadByte :
    fetchDecode State.reset = .error (.decodeIllegal 0 0) ∧ State.reset.status = .running ∧
    fetchDecode { State.reset with mem := [(0xFFFFFF, 0x01)], pc := 0xFFFFFF } =
      .error (.memOutOfRange 0xFFFFFF 0x1000000 1) ∧
    ({ State.reset with pc := 0x1000000 } : State).memSize ≤ ({ State.reset with pc := 0x1000000 } : State).pc.toNat :=
  ⟨rfl, rfl, rfl, by decide⟩
theorem witness_StepRunsDecodedInstruction :
    sW.status = .running ∧ (Instr.ld (.reg cA) (.imm .int8 3)).wf = true ∧
    ∀ (k : Nat) (b : Byte), (encode (.ld (.reg cA) (.imm .int8 3)))[k]? = some b →
      (sW.pc + BitVec.ofNat 32 k).toNat < sW.memSize ∧ sW.mem.read (sW.pc + BitVec.ofNat 32 k).toNat = b := by
  refine ⟨rfl, by decide, fun k b h => ?_⟩
  match k, h with
  | 0, h => cases h; decide
  | 1, h => cases h; decide
  | 2, h => cases h; decide
  | 3, h => cases h; decide
  | 4, h => cases h; decide
  | k + 5, h => cases h
/-- Two states that differ in registers and in the byte after the instruction. -/
theorem witness_DecodeDependsOnOwnBytes :
    fetchDecode sW = .ok (.ld (.reg cA) (.imm .int8 3), 5) ∧ (at0 [0x01, 0x10, 0x00, 0x30, 0x03, 0x17]).pc = sW.pc ∧
    ∀ k < 5, (sW.pc + BitVec.ofNat 32 k).toNat < (at0 [0x01, 0x10, 0x00, 0x30, 0x03, 0x17]).memSize ∧
      (at0 [0x01, 0x10, 0x00, 0x30, 0x03, 0x17]).mem.read (sW.pc + BitVec.ofNat 32 k).toNat =
        sW.mem.read (sW.pc + BitVec.ofNat 32 k).toNat := ⟨rfl, rfl, by decide⟩
/-- A step that moves pc, and one that ends the run. -/
theorem witness_PcMovesOnlyByLength :
    (∃ t, step sW = .next t ∧ t.status = .running ∧ t.pc = 5) ∧
    ∃ t, step (at0 [0x16]) = .next t ∧ t.status = .halted ∧ t.pc = 0 :=
  ⟨⟨_, rfl, by decide, by decide⟩, ⟨_, rfl, by decide, by decide⟩⟩
theorem witness_EndedRunTakesNoStep :
    sW.halt.status = .halted ∧ (sW.raiseFault (.divByZero 0)).status = .faulted (.divByZero 0) := ⟨rfl, rfl⟩
theorem witness_RunningStateSteps : sW.status = .running := rfl

/-! Invariants and launch. -/

theorem witness_StepKeepsInvariant : sW.Inv ∧ ∃ t, step sW = .next t :=
  ⟨⟨by decide, by decide, by decide, by decide, fun f h => by cases h⟩, _, rfl⟩
theorem witness_StepKeepsMemorySize : ∃ t, step sW = .next t ∧ t.readReg 0 = 3 := ⟨_, rfl, by decide⟩
/-- A program that ends in the last byte of memory, with one of its two bytes set by the host and set again; one that
is a byte longer than what is left; and a byte set at the first address outside memory. -/
theorem witness_LaunchSetsEveryPieceOfState :
    let fits : LaunchParams :=
      { LaunchParams.default with loadBase := 0xFFFFFE, program := [0x17, 0x16], setBytes := [(0xFFFFFE, 1), (0xFFFFFE, 0)] }
    let tooLong : LaunchParams := { fits with program := [0x00, 0x00, 0x16] }
    let outside : LaunchParams := { fits with setBytes := [(0x1000000, 0)] }
    (fits.memInit.wf = true ∧ fits.loadBase.toNat + fits.program.length ≤ fits.memSize ∧
      (∀ c ∈ fits.setBytes, c.1 < fits.memSize) ∧ fits.setBytes = [(0xFFFFFE, 1)] ++ (0xFFFFFE, 0) :: [] ∧
      (∀ c ∈ fits.setBytes, c.1 ≠ 0xFFFFFF) ∧ fits.program[1]? = some 0x16) ∧
    tooLong.memSize < tooLong.loadBase.toNat + tooLong.program.length ∧
    ∃ c ∈ outside.setBytes, outside.memSize ≤ c.1 := by decide
/-- By hand from 70_reset_and_hazards.md R364: a byte the host sets inside the program replaces the program's, here an
illegal opcode by BREAK. -/
theorem test_launch_set_byte_replaces_program_byte :
    (match launch { LaunchParams.default with program := [0x00], setBytes := [(0, 0x16)] } with
      | some s => endsIn s .halted
      | none => false) = true := by decide
/-- A program of one byte at 0 and a host byte in the last byte of memory. -/
theorem witness_LaunchMeetsInvariant :
    let p : LaunchParams := { LaunchParams.default with program := [0x16], setBytes := [(0xFFFFFF, 0x80)] }
    p.memInit.wf = true ∧ p.memInit.within p.memSize = true ∧ 1 ≤ p.memSize ∧ p.memSize ≤ 2 ^ 32 ∧
    ∃ s, launch p = some s := ⟨by decide, by decide, by decide, by decide, _, rfl⟩

/-- P3 of 95_test_vectors.md, booted: the LD writes the BREAK that ends the run. -/
theorem test_boot_self_modifying :
    (match boot 2 { LaunchParams.default with program := [0x01, 0x40, 0x00, 0x00, 0x07, 0x30, 0x16, 0x00] } with
      | some t => decide (t.status = .halted) && t.pc == 7
      | none => false) = true := by decide
/-- A run that ends in one step, and one that has not ended within no step. -/
theorem witness_RunStepsUntilNotRunning :
    (∃ t, run 1 (at0 [0x16]) 0 = some t ∧ t.status = .halted) ∧ run 0 (at0 [0x16]) 0 = none :=
  ⟨⟨_, rfl, by decide⟩, by decide⟩
theorem witness_EveryRunEnds : State.reset.memSize < 2 ^ 32 := by decide
theorem witness_BootRunsTheLaunchState :
    (∃ s, launch { LaunchParams.default with program := [0x16] } = some s) ∧
    launch { LaunchParams.default with setBytes := [(0x1000000, 0)] } = none := ⟨⟨_, rfl⟩, by decide⟩

/-! Faults. -/

/-- A division by zero; and a repeat form with count 1 whose source lies outside memory. -/
theorem witness_FaultingInstructionChangesOnlyStatus :
    (∃ t, exec (.div (.reg cA) (.imm .int8 0)) sW = .next t ∧ t.status = .faulted (.divByZero 0) ∧
      repeatOperand (.div (.reg cA) (.imm .int8 0)) = none) ∧
    ∃ t, exec (.divWN (.reg cA) pastEnd .w1 (.imm .int8 1)) sW = .next t ∧
      t.status = .faulted (.memOutOfRange 0 0xFFFFFF 2) ∧ sW.status = .running ∧
      ∀ n c, repeatOperand (.divWN (.reg cA) pastEnd .w1 (.imm .int8 1)) = some n → resolve sW n = .ok c →
        readBits sW c ≤ 1 := by
  refine ⟨⟨_, rfl, rfl, rfl⟩, _, rfl, rfl, rfl, fun n c hn hc => ?_⟩
  cases hn
  cases hc
  decide
/-- An operand outside memory and one in its last byte, in each of the slots; and a block destination written one byte
wide in the last byte, which fits at w = 1 and leaves memory at w = 2. -/
theorem witness_ResolutionFaultsInSlotOrder :
    resolve sW pastEnd = .error (.memOutOfRange 0 0xFFFFFF 2) ∧ resolve sW lastByte = .ok lastByteLoc ∧
    resolveBlock sW .w1 lastByte = .ok lastByteLoc ∧ effectiveAddress sW lastByte = some (0xFFFFFF, .int8) ∧
    sW.memSize < (0xFFFFFF : Word).toNat + Width.w2.bytes ∧ (Operand.reg cA).fits .cnt = true :=
  ⟨rfl, rfl, rfl, rfl, by decide, by decide⟩

theorem ready_float_zero : Ready .loc .any sW (.reg cA) (.freg 2) (.reg 0 .w1) (.freg 2) :=
  ⟨by decide, by decide, by decide, rfl, rfl⟩
theorem ready_int_zero : Ready .loc .any sW (.freg 0) (.imm .int8 0) (.freg 0) (.imm .int8 0) :=
  ⟨by decide, by decide, by decide, rfl, rfl⟩
theorem readyRem_zero :
    ReadyRem sW (.reg cA) (.reg ⟨2, .w1⟩) (.freg 0) (.reg 0 .w1) (.reg 2 .w1) (.freg 0) :=
  ⟨⟨by decide, by decide, by decide, rfl, rfl⟩, by decide, rfl⟩
theorem readyBlock_zero : ReadyBlock sW lastByte (.freg 2) .w1 lastByteLoc (.freg 2) :=
  ⟨by decide, by decide, by decide, rfl, rfl⟩
/-- The three clauses, with the integer 0 and with -0.0, and a repeat count of 1. -/
theorem witness_ZeroDivisorFaults :
    ZeroDivisor sW (.freg 2) ∧ ZeroDivisor sW (.imm .int8 0) ∧ ZeroDivisor sW (.reg 2 .w1) ∧
    (Operand.imm .int8 1).fits .cnt = true ∧ resolve sW (.imm .int8 1) = .ok (.imm .int8 1) ∧
    1 ≤ readBits sW (.imm .int8 1) := by
  refine ⟨.inr (by decide), (by decide : readBits sW (.imm .int8 0) = 0), (by decide : readBits sW (.reg 2 .w1) = 0),
    by decide, rfl, by decide⟩

/-! Flags, registers, memory, addresses. -/

theorem witness_RelationalFlagsComeFromComparisons :
    resolve sW (.freg 1) = .ok (.freg 1) ∧ resolve sW lastByte = .ok lastByteLoc ∧
    isCompare (.bit (.reg cA) (.reg cB)) = false ∧ ∃ t, exec (.bit (.reg cA) (.reg cB)) sW = .next t :=
  ⟨rfl, rfl, rfl, _, rfl⟩
theorem witness_MovesAndShiftsKeepFlags :
    writesZero (.sr (.reg cA) (.reg cA)) = false ∧ ∃ t, exec (.sr (.reg cA) (.reg cA)) sW = .next t := ⟨rfl, _, rfl⟩
/-- The chain ZABC: A is its second cell, D is the first register outside it. -/
theorem witness_ChainWriteIsBigEndian :
    1 < Width.w4.bytes ∧ (25 : Fin 26) + Fin.ofNat 26 1 = 0 ∧ ∀ k < Width.w4.bytes, (3 : Fin 26) ≠ 25 + Fin.ofNat 26 k := by
  decide
/-- An access that ends in the last byte, and one that ends a byte later. -/
theorem witness_MemoryWriteIsBigEndian :
    sW.mem.wf = true ∧ (0xFFFFFC : Word).toNat + 4 ≤ sW.memSize ∧ sW.memSize < (0xFFFFFD : Word).toNat + 4 := by decide
/-- The same boundary for a resolved operand, and a sum that wraps at 2^32. -/
theorem witness_EffectiveAddressOfEachMode :
    (0xFFFFFE + 0) % 2 ^ 32 + TypeCode.int16.size ≤ sW.memSize ∧ (0xFFFFFFFF + 1) % 2 ^ 32 + 1 ≤ sW.memSize ∧
    sW.memSize < (0xFFFFFE + 1) % 2 ^ 32 + TypeCode.int16.size ∧
    (0xFFFFFC + 0) % 2 ^ 32 + Width.w4.bytes ≤ sW.memSize ∧ sW.memSize < (0xFFFFFC + 1) % 2 ^ 32 + Width.w4.bytes := by
  decide

/-! Load, conversions, comparisons. -/

theorem ready_int_int : Ready .loc .any sW (.reg cA) (.mabs .int16 0x1000) (.reg 0 .w1) (.mem 0x1000 .int16) :=
  ⟨by decide, by decide, by decide, rfl, rfl⟩
theorem ready_int_float : Ready .loc .any sW lastByte (.freg 3) lastByteLoc (.freg 3) :=
  ⟨by decide, by decide, by decide, rfl, rfl⟩
theorem ready_float_int : Ready .loc .any sW (.freg 15) (.reg ⟨25, .w4⟩) (.freg 15) (.reg 25 .w4) :=
  ⟨by decide, by decide, by decide, rfl, rfl⟩
theorem ready_float_float : Ready .loc .any sW (.freg 0) (.freg 3) (.freg 0) (.freg 3) :=
  ⟨by decide, by decide, by decide, rfl, rfl⟩
theorem ready_float_nan : Ready .loc .any sW (.freg 0) (.freg 1) (.freg 0) (.freg 1) :=
  ⟨by decide, by decide, by decide, rfl, rfl⟩
/-- The float to int clause at the largest float below 2^32; the other clauses are `ready_int_int`, `ready_float_int`
and `ready_float_float`. -/
theorem witness_LdWritesConvertedValue :
    f32IsFinite (readPattern sW (.freg 3)) = true ∧ (truncValue (readPattern sW (.freg 3))).natAbs < 2 ^ 32 := by
  decide +kernel
/-- The largest and the least integer of the range, the bound of the exact ones, and the largest finite value. -/
theorem witness_IntToFloatIsNearest :
    (2 ^ 32 - 1 : Int).natAbs < 2 ^ 32 ∧ (1 - 2 ^ 32 : Int).natAbs < 2 ^ 32 ∧ (2 ^ 24 : Int).natAbs ≤ 2 ^ 24 ∧
    f32IsFinite 0x7F7FFFFF = true := by decide
theorem witness_IntegerComparisonFlags :
    Loc.isFloat (.reg 0 .w1) = false ∧ Loc.isFloat (.mem 0x1000 .int16) = false := ⟨rfl, rfl⟩
/-- Values on both sides of the order's end, and a NaN. -/
theorem witness_FloatComparisonFlags :
    Loc.isFloat (.freg 0) = true ∧ f32IsNaN (readFloat false sW (.freg 0)) = false ∧
    f32IsNaN (readFloat true sW (.freg 4)) = false ∧ f32IsNaN (readFloat false sW (.freg 1)) = true := by decide

/-! Bitwise and shifts. -/

theorem witness_BitwiseResults : Ready .loc .any sW lastByte (.freg 1) lastByteLoc (.freg 1) :=
  ⟨by decide, by decide, by decide, rfl, rfl⟩
theorem witness_BitTestsMask : Ready .loc .any sW (.freg 1) lastByte (.freg 1) lastByteLoc :=
  ⟨by decide, by decide, by decide, rfl, rfl⟩
/-- A count register equal to the destination, and a float count just below 2^32. -/
theorem witness_ShiftResults :
    Ready .loc .any sW (.reg cA) (.reg cA) (.reg 0 .w1) (.reg 0 .w1) ∧
    Ready .loc .any sW (.reg cA) (.freg 3) (.reg 0 .w1) (.freg 3) :=
  ⟨⟨by decide, by decide, by decide, rfl, rfl⟩, ⟨by decide, by decide, by decide, rfl, rfl⟩⟩
/-- A chain written 4 wide and operated 1 wide. -/
theorem witness_BlockShiftResult : ReadyBlock sW (.reg ⟨0, .w4⟩) (.reg cA) .w1 (.reg 0 .w1) (.reg 0 .w1) :=
  ⟨by decide, by decide, by decide, rfl, rfl⟩
theorem readyBlock_immediate : ReadyBlock sW lastByte (.imm .int16 9) .w1 lastByteLoc (.imm .int16 9) :=
  ⟨by decide, by decide, by decide, rfl, rfl⟩
/-- A count from a register that is 0, and the largest count. -/
theorem witness_RepeatedShiftByImmediate :
    TypeCode.int16.isFloat = false ∧ (Operand.reg ⟨2, .w1⟩).fits .cnt = true ∧
    resolve sW (.reg ⟨2, .w1⟩) = .ok (.reg 2 .w1) ∧ (Operand.imm .int32 0xFFFFFFFF).fits .cnt = true ∧
    resolve sW (.imm .int32 0xFFFFFFFF) = .ok (.imm .int32 0xFFFFFFFF) := ⟨rfl, by decide, rfl, by decide, rfl⟩

/-! Division. -/

theorem witness_DivIntegerResult :
    Loc.isFloat (.reg 0 .w1) = false ∧ Loc.isFloat (.mem 0x1000 .int16) = false ∧
    readBits sW (.mem 0x1000 .int16) ≠ 0 := by decide
/-- -7 and 2. -/
theorem witness_SdivIntegerResult :
    Ready .loc .any sW (.reg cA) (.reg cB) (.reg 0 .w1) (.reg 1 .w1) ∧ readBits sW (.reg 1 .w1) ≠ 0 :=
  ⟨⟨by decide, by decide, by decide, rfl, rfl⟩, by decide⟩
theorem readyRem_disjoint :
    ReadyRem sW (.reg cA) (.reg cB) lastByte (.reg 0 .w1) (.reg 1 .w1) lastByteLoc :=
  ⟨⟨by decide, by decide, by decide, rfl, rfl⟩, by decide, rfl⟩
/-- Disjoint destinations; the remainder to the dividend's own register is `readyRem_same`. -/
theorem witness_DivRemainderResult : readBits sW (.reg 1 .w1) ≠ 0 ∧ lastByteLoc.Disjoint (.reg 0 .w1) :=
  ⟨by decide, fun r h => h.1.elim, fun j h => h.1.elim, fun a h => h.2.elim⟩
theorem readyRem_same : ReadyRem sW (.reg cA) (.reg cB) (.reg cA) (.reg 0 .w1) (.reg 1 .w1) (.reg 0 .w1) :=
  ⟨⟨by decide, by decide, by decide, rfl, rfl⟩, by decide, rfl⟩
/-- Destinations that share a part: AB with the remainder in B, and two bytes of memory with it in the second. -/
theorem witness_DivRemainderResult_overlap :
    ReadyRem sW (.reg cAB) (.imm .int8 2) (.reg cB) (.reg 0 .w2) (.imm .int8 2) (.reg 1 .w1) ∧
    ¬Loc.ownsReg (.reg 1 .w1) (0 + Fin.ofNat 26 0) ∧
    ReadyRem sW (.mabs .int16 0x1000) (.imm .int8 2) (.mabs .int8 0x1001) (.mem 0x1000 .int16) (.imm .int8 2)
      (.mem 0x1001 .int8) ∧
    ¬Loc.ownsByte (.mem 0x1001 .int8) ((0x1000 : Word).toNat + 0) ∧ readBits sW (.imm .int8 2) ≠ 0 := by
  refine ⟨⟨⟨by decide, by decide, by decide, rfl, rfl⟩, by decide, rfl⟩, fun ⟨k, hk, h⟩ => ?_,
    ⟨⟨by decide, by decide, by decide, rfl, rfl⟩, by decide, rfl⟩, fun h => absurd h.1 (by decide), by decide⟩
  simp only [Width.bytes] at hk
  obtain rfl : k = 0 := by omega
  simp at h
/-- The remainder to a float register. -/
theorem witness_SdivRemainderResult :
    ReadyRem sW (.reg cA) (.reg cB) (.freg 0) (.reg 0 .w1) (.reg 1 .w1) (.freg 0) ∧ readBits sW (.reg 1 .w1) ≠ 0 :=
  ⟨⟨⟨by decide, by decide, by decide, rfl, rfl⟩, by decide, rfl⟩, by decide⟩
theorem readyBlock_float : ReadyBlock sW (.mabs .int16 0x1000) (.freg 0) .w2 (.mem 0x1000 .int16) (.freg 0) :=
  ⟨by decide, by decide, by decide, rfl, rfl⟩
/-- A quotient that is a NaN, one that is not, one below 2^32 to an int; no divisor is a zero. -/
theorem witness_FloatDivisionResult :
    ¬ZeroDivisor sW (.freg 1) ∧ ¬ZeroDivisor sW (.freg 3) ∧ ¬ZeroDivisor sW (.freg 0) ∧
    f32Div (readFloat false sW (.freg 0)) (readFloat false sW (.freg 1)) = none ∧
    f32Div (readFloat false sW (.freg 0)) (readFloat false sW (.freg 0)) = some 0x3F800000 ∧
    f32IsFinite 0x3F800000 = true ∧ (truncValue 0x3F800000).natAbs < 2 ^ 32 := by
  refine ⟨?_, ?_, ?_, by decide +kernel, by decide +kernel, by decide, by decide +kernel⟩ <;>
    (intro h; rcases h with h | h <;> exact absurd h (by decide))
/-- The largest finite value by 1.0 stays finite; by the float below 1.0 it overflows. -/
theorem witness_FloatDivisionIsNearest :
    f32IsFinite 0x7F7FFFFF = true ∧ f32IsFinite 0x3F800000 = true ∧ f32Mag 0x3F800000 ≠ 0 ∧ f32Mag 0x3F7FFFFF ≠ 0 ∧
    2 * (f32Mag 0x7F7FFFFF * 2 ^ 149) < (2 ^ 25 - 1) * 2 ^ 253 * f32Mag 0x3F800000 ∧
    (2 ^ 25 - 1) * 2 ^ 253 * f32Mag 0x3F7FFFFF ≤ 2 * (f32Mag 0x7F7FFFFF * 2 ^ 149) ∧
    f32IsNaN 0x7FC00001 = true ∧ f32IsInf 0x7F800000 = true := by decide +kernel
theorem witness_BlockDivisionResult :
    ReadyBlock sW (.mabs .int8 0x1000) (.reg cB) .w2 (.mem 0x1000 .int16) (.reg 1 .w1) ∧
    Loc.isFloat (.reg 1 .w1) = false ∧ readBits sW (.reg 1 .w1) ≠ 0 :=
  ⟨⟨by decide, by decide, by decide, rfl, rfl⟩, rfl, by decide⟩
/-- A count of 0 and the largest count, as for `RepeatedShiftByImmediate`. -/
theorem witness_RepeatedDivisionByImmediate :
    ReadyBlock sW lastByte (.imm .int8 2) .w1 lastByteLoc (.imm .int8 2) ∧ (2 : Word) ≠ 0 ∧
    readBits sW (.reg 2 .w1) = 0 ∧ 1 ≤ readBits sW (.imm .int32 0xFFFFFFFF) :=
  ⟨⟨by decide, by decide, by decide, rfl, rfl⟩, by decide, by decide, by decide⟩
/-- Counts of 0 and of 1, and a source that reads the destination. -/
theorem witness_RepeatEqualsSequence :
    sW.status = .running ∧ (Operand.reg cA).fits .bdest = true ∧ (Operand.mptr .int8 cA).fits .any = true ∧
    resolveBlock sW .w1 (.reg cA) = .ok (.reg 0 .w1) ∧ resolve sW (.mptr .int8 cA) = .ok (.mem 0xF9 .int8) ∧
    (Operand.imm .int8 1).fits .cnt = true ∧ resolve sW (.imm .int8 1) = .ok (.imm .int8 1) ∧
    1 ≤ readBits sW (.imm .int8 1) ∧ readBits sW (.reg 2 .w1) = 0 :=
  ⟨rfl, by decide, by decide, rfl, rfl, by decide, rfl, by decide, by decide⟩
theorem witness_RepeatWritesOnlyDestination :
    ReadyBlock sW (.reg cA) (.mptr .int8 cA) .w1 (.reg 0 .w1) (.mem 0xF9 .int8) ∧
    ¬Loc.ownsReg (.reg 0 .w1) 1 ∧ ¬Loc.ownsByte (.reg 0 .w1) 0xF9 := by
  refine ⟨⟨by decide, by decide, by decide, rfl, rfl⟩, fun ⟨k, hk, h⟩ => ?_, fun h => h⟩
  simp only [Width.bytes] at hk
  obtain rfl : k = 0 := by omega
  simp at h

/-! Fixed function and BREAK. -/

theorem witness_Rgb2hsbMovesBits : Ready .loc .isrc sW (.freg 0) (.reg cABC) (.freg 0) (.reg 0 .w3) :=
  ⟨by decide, by decide, by decide, rfl, rfl⟩
theorem witness_BreakHalts :
    (at0 [0x16]).status = .running ∧ (at0 [0x16]).pc.toNat < (at0 [0x16]).memSize ∧
    (at0 [0x16]).mem.read (at0 [0x16]).pc.toNat = 0x16 := by decide

end Sys2Proof.Tests
end

section
/-! PROOFS. What the instructions leave unchanged in the state (10_state.md): one principle, `exec_keeps`, says what any
instruction may do to a state, and each frame or invariant of the state follows from it. -/

namespace Sys2Proof.Machine

/-! ### One shape for the two-operand instructions -/

/-- Two operands resolved, first operand first, then one body on their Locations (40_engine.md R166): the shape of the
meaning of every two-operand instruction, as the lemmas `exec_ld` to `exec_rgb2hsb` say. -/
def onOperands (body : Body) (d x : Operand) (s : State) : Host.Outcome State Fault Refusal :=
  match resolve2 s d x with
  | .error f => .next (s.raiseFault f)
  | .ok (ld, lx) => settle s (body s ld lx)

/-- The body of AND, OR, XOR, NAND, NOR and XNOR (43_bitwise.md R240). -/
def bitwiseBody (op2 : Nat → Nat → Nat → Nat) : Body := fun s d x =>
  let r := op2 d.bits (readBits s d) (readBits s x % 2 ^ d.bits) % 2 ^ d.bits
  .ok ((writeBits s d r).setZero (decide (r = 0)))

/-- The body of BIT (43_bitwise.md R250). -/
def bitBody : Body := fun s d m =>
  .ok (s.setZero (decide (readBits s d &&& (readBits s m % 2 ^ d.bits) = 0)))

/-- The body of LD (41_load.md R200). -/
def ldBody : Body := fun s d x => .ok (writeNum s d (readNum false s x))

/-- The body of CP and SCP (42_compare.md R222, R227). -/
def compareBody (signed : Bool) : Body := fun s a b => .ok (compareLocs signed s a b)

/-- The body of SR (44_shift.md R278). -/
def shiftRBody : Body := fun s d c => .ok (shiftR s d c)

/-- The body of RGB2HSB (46_fixed_function.md R321). -/
def rgb2hsbBody : Body := fun s d x =>
  .ok (writeBits s d (Config.rgb2hsbFn (BitVec.ofNat 24 (readBits s x))).toNat)

section execEquations

variable (d x : Operand) (s : State)

theorem exec_ld : exec (.ld d x) s = onOperands ldBody d x s := rfl
theorem exec_cp : exec (.cp d x) s = onOperands (compareBody false) d x s := rfl
theorem exec_scp : exec (.scp d x) s = onOperands (compareBody true) d x s := rfl
theorem exec_and : exec (.and d x) s = onOperands (bitwiseBody fun _ a b => a &&& b) d x s := rfl
theorem exec_or : exec (.or d x) s = onOperands (bitwiseBody fun _ a b => a ||| b) d x s := rfl
theorem exec_xor : exec (.xor d x) s = onOperands (bitwiseBody fun _ a b => a ^^^ b) d x s := rfl
theorem exec_nand : exec (.nand d x) s = onOperands (bitwiseBody fun n a b => (2 ^ n - 1) ^^^ (a &&& b)) d x s := rfl
theorem exec_nor : exec (.nor d x) s = onOperands (bitwiseBody fun n a b => (2 ^ n - 1) ^^^ (a ||| b)) d x s := rfl
theorem exec_xnor : exec (.xnor d x) s = onOperands (bitwiseBody fun n a b => (2 ^ n - 1) ^^^ (a ^^^ b)) d x s := rfl
theorem exec_bit : exec (.bit d x) s = onOperands bitBody d x s := rfl
theorem exec_sl : exec (.sl d x) s = onOperands shiftBody d x s := rfl
theorem exec_sr : exec (.sr d x) s = onOperands shiftRBody d x s := rfl
theorem exec_div : exec (.div d x) s = onOperands (divStep false) d x s := rfl
theorem exec_sdiv : exec (.sdiv d x) s = onOperands (divStep true) d x s := rfl
theorem exec_rgb2hsb : exec (.rgb2hsb d x) s = onOperands rgb2hsbBody d x s := rfl

end execEquations

theorem onOperands_of_resolve {body : Body} {s : State} {d x : Operand} {ld lx : Loc} (hd : resolve s d = .ok ld)
    (hx : resolve s x = .ok lx) : onOperands body d x s = settle s (body s ld lx) := by
  simp only [onOperands, resolve2_ok hd hx]

/-! ### What an instruction may do to a state -/

/-- `P` survives what every instruction may do: take a fault at pc, take a draw, write a Location that lies in the
memory of the instruction's first state `s`. -/
structure Keeps (s : State) (P : State → Prop) : Prop where
  fault : ∀ {u : State} {f : FaultRecord}, f.pc = u.pc → P u → P (u.raiseFault f)
  draw : ∀ {u : State}, P u → P u.draw.2
  write : ∀ {u : State} {l : Loc} {v : Nat}, l.inBounds s → P u → P (writeBits u l v)

/-- `P` survives the setting of Zero alone. -/
def KeepsZero (P : State → Prop) : Prop := ∀ {u : State} {z : Bool}, P u → P (u.setZero z)

/-- `P` survives the writing of a comparison's flags (42_compare.md R220). -/
def KeepsCompare (P : State → Prop) : Prop :=
  ∀ {u : State} {f : Flags}, f.decided = true → f.zero = f.eq → P u → P (u.setFlags f)

/-- `P` survives everything `i` may do: besides what every instruction may, BREAK halts, the comparisons write all six
flags, and Zero alone is set by the other instructions that write it (10_state.md R42, R43). -/
structure KeepsInstr (i : Instr) (s : State) (P : State → Prop) : Prop extends Keeps s P where
  halt : i = .brk → ∀ {u : State}, P u → P u.halt
  zero : writesZero i = true → isCompare i = false → KeepsZero P
  compare : isCompare i = true → KeepsCompare P

/-- A body keeps `P` where it completes, and a fault of it is at pc. -/
structure BodyKeeps (s : State) (P : State → Prop) (body : Body) : Prop where
  ok : ∀ {u t : State} {d x : Loc}, d.inBounds s → P u → body u d x = .ok t → P t
  error : ∀ {u : State} {d x : Loc} {f : FaultRecord}, body u d x = .error f → f.pc = u.pc

section keeps

variable {s t u : State} {P : State → Prop} {body : Body}

/-! #### The shared operations -/

/-- A body that raises no fault. -/
theorem BodyKeeps.of_ok {g : State → Loc → Loc → State} (hbody : body = fun u d x => .ok (g u d x))
    (h : ∀ {u : State} {d x : Loc}, d.inBounds s → P u → P (g u d x)) : BodyKeeps s P body := by
  subst hbody
  exact ⟨fun hd hu e => by cases e; exact h hd hu, fun e => by cases e⟩

theorem Keeps.self_or_draw (K : Keeps s P) {v : State} (hv : v = u ∨ v = u.draw.2) (hu : P u) : P v := by
  rcases hv with rfl | rfl
  · exact hu
  · exact K.draw hu

theorem Keeps.of_writeNum (K : Keeps s P) {l : Loc} (hl : l.inBounds s) (x : Value) (hu : P u) : P (writeNum u l x) :=
  K.write hl (K.self_or_draw (numBits_state u l x) hu)

theorem Keeps.bodyKeeps_ldBody (K : Keeps s P) : BodyKeeps s P ldBody :=
  .of_ok rfl fun hd hu => K.of_writeNum hd _ hu

theorem Keeps.bodyKeeps_shiftBody (K : Keeps s P) : BodyKeeps s P shiftBody :=
  .of_ok rfl fun hd hu => K.write hd (K.self_or_draw (readCount_state _ _) hu)

theorem Keeps.bodyKeeps_shiftRBody (K : Keeps s P) : BodyKeeps s P shiftRBody :=
  .of_ok rfl fun hd hu => K.write hd (K.self_or_draw (readCount_state _ _) hu)

theorem Keeps.bodyKeeps_rgb2hsbBody (K : Keeps s P) : BodyKeeps s P rgb2hsbBody :=
  .of_ok rfl fun hd hu => K.write hd hu

theorem Keeps.bodyKeeps_bitwiseBody (K : Keeps s P) (Z : KeepsZero P) (op2 : Nat → Nat → Nat → Nat) :
    BodyKeeps s P (bitwiseBody op2) :=
  .of_ok rfl fun hd hu => Z (K.write hd hu)

theorem KeepsZero.bodyKeeps_bitBody (Z : KeepsZero P) : BodyKeeps s P bitBody :=
  .of_ok rfl fun _ hu => Z hu

theorem Keeps.bodyKeeps_compareBody (K : Keeps s P) (C : KeepsCompare P) (signed : Bool) :
    BodyKeeps s P (compareBody signed) := by
  refine .of_ok rfl fun {u a b} _ hu => ?_
  obtain ⟨v, f, hv, hf, hz, e⟩ := compareLocs_cases signed u a b
  rw [e]
  exact C hf hz (K.self_or_draw hv hu)

/-- A division that completes has written a quotient and set Zero, after at most a draw. -/
theorem Keeps.of_divBody (K : Keeps s P) (Z : KeepsZero P) {signed : Bool} {d x : Loc} {m : Option Int}
    (hd : d.inBounds s) (hu : P u) (h : divBody signed u d x = .ok (t, m)) : P t := by
  obtain ⟨v, q, hv, rfl⟩ := divBody_ok h
  exact Z (K.of_writeNum hd q (K.self_or_draw hv hu))

theorem Keeps.bodyKeeps_divStep (K : Keeps s P) (Z : KeepsZero P) (signed : Bool) : BodyKeeps s P (divStep signed) where
  ok hd hu h := by
    obtain ⟨m, hm⟩ := divStep_ok h
    exact K.of_divBody Z hd hu hm
  error h := by rw [divStep_error h]; rfl

/-! #### The instruction formats -/

theorem Keeps.of_settle (K : Keeps s P) (B : BodyKeeps s P body) {d x : Loc} (hd : d.inBounds s) (hu : P u)
    (h : settle u (body u d x) = .next t) : P t := by
  cases hb : body u d x with
  | error f =>
    rw [hb] at h; cases h
    exact K.fault (B.error hb) hu
  | ok v =>
    rw [hb] at h; cases h
    exact B.ok hd hu hb

theorem Keeps.of_onOperands (K : Keeps s P) (B : BodyKeeps s P body) {d x : Operand} (hs : P s)
    (h : onOperands body d x s = .next t) : P t := by
  unfold onOperands at h
  rcases resolve2_cases s d x with ⟨f, hf, e⟩ | ⟨ld, f, -, hf, e⟩ | ⟨ld, lx, hd, -, e⟩ <;> rw [e] at h
  · cases h; exact K.fault (resolve_error_pc hf) hs
  · cases h; exact K.fault (resolve_error_pc hf) hs
  · exact K.of_settle B (resolve_inBounds hd) hs h

theorem Keeps.of_block (K : Keeps s P) (B : BodyKeeps s P body) {d x : Operand} {w : Width} (hs : P s)
    (h : block body d x w s = .next t) : P t := by
  unfold block at h
  cases hd : resolveBlock s w d with
  | error f =>
    rw [hd] at h; cases h
    exact K.fault (resolveBlock_error_pc hd) hs
  | ok dst =>
    cases hx : resolve s x with
    | error f =>
      simp only [hd, hx] at h; cases h
      exact K.fault (resolve_error_pc hx) hs
    | ok lx =>
      simp only [hd, hx] at h
      exact K.of_settle B (resolveBlock_inBounds hd) hs h

theorem Keeps.of_blockLoop (K : Keeps s P) (B : BodyKeeps s P body) {dst : Loc} (hd : dst.inBounds s) (x : Operand)
    (n : Nat) (hu : P u) : P (blockLoop body dst x n u) := by
  refine blockLoop_keeps P (fun v f hv hf => K.fault ?_ hv) (fun v lx t hv _ ht => B.ok hd hv ht) n u hu
  rcases hf with hf | ⟨lx, -, hf⟩
  · exact resolve_error_pc hf
  · exact B.error hf

theorem Keeps.of_blockRepeat (K : Keeps s P) (B : BodyKeeps s P body) {d x n : Operand} {w : Width} (hs : P s)
    (h : blockRepeat body d x w n s = .next t) : P t := by
  unfold blockRepeat at h
  cases hd : resolveBlock s w d with
  | error f =>
    rw [hd] at h; cases h
    exact K.fault (resolveBlock_error_pc hd) hs
  | ok dst =>
    cases hx : resolve2 s x n with
    | error f =>
      simp only [hd, hx] at h; cases h
      exact K.fault (resolve2_error_pc hx) hs
    | ok p =>
      simp only [hd, hx] at h; cases h
      exact K.of_blockLoop B (resolveBlock_inBounds hd) x _ hs

theorem Keeps.of_divideRem (K : Keeps s P) (Z : KeepsZero P) {signed : Bool} {d x r : Operand} (hs : P s)
    (h : divideRem signed d x r s = .next t) : P t := by
  unfold divideRem at h
  rcases resolve3_cases s d x r with ⟨f, hf, e⟩ | ⟨ld, lx, lr, hd, -, hr, e⟩
  · rw [e] at h; cases h
    exact K.fault hf hs
  · cases hb : divBody signed s ld lx with
    | error f =>
      simp only [e, hb] at h; cases h
      exact K.fault (by rw [divBody_error hb]; rfl) hs
    | ok p =>
      obtain ⟨v, m⟩ := p
      have hv : P v := K.of_divBody Z (resolve_inBounds hd) hs hb
      cases m with
      | none => simp only [e, hb] at h; cases h; exact hv
      | some m => simp only [e, hb] at h; cases h; exact K.of_writeNum (resolve_inBounds hr) _ hv

/-! #### Every instruction -/

/-- What survives everything an instruction may do holds after the instruction, also where it faults. -/
theorem exec_keeps {i : Instr} (K : KeepsInstr i s P) (hs : P s) (h : exec i s = .next t) : P t := by
  have k : Keeps s P := K.toKeeps
  cases i with
  | ld d x => exact k.of_onOperands k.bodyKeeps_ldBody hs (exec_ld d x s ▸ h)
  | cp a b => exact k.of_onOperands (k.bodyKeeps_compareBody (K.compare rfl) false) hs (exec_cp a b s ▸ h)
  | scp a b => exact k.of_onOperands (k.bodyKeeps_compareBody (K.compare rfl) true) hs (exec_scp a b s ▸ h)
  | and d x => exact k.of_onOperands (k.bodyKeeps_bitwiseBody (K.zero rfl rfl) _) hs (exec_and d x s ▸ h)
  | or d x => exact k.of_onOperands (k.bodyKeeps_bitwiseBody (K.zero rfl rfl) _) hs (exec_or d x s ▸ h)
  | xor d x => exact k.of_onOperands (k.bodyKeeps_bitwiseBody (K.zero rfl rfl) _) hs (exec_xor d x s ▸ h)
  | nand d x => exact k.of_onOperands (k.bodyKeeps_bitwiseBody (K.zero rfl rfl) _) hs (exec_nand d x s ▸ h)
  | nor d x => exact k.of_onOperands (k.bodyKeeps_bitwiseBody (K.zero rfl rfl) _) hs (exec_nor d x s ▸ h)
  | xnor d x => exact k.of_onOperands (k.bodyKeeps_bitwiseBody (K.zero rfl rfl) _) hs (exec_xnor d x s ▸ h)
  | bit d m => exact k.of_onOperands (KeepsZero.bodyKeeps_bitBody (K.zero rfl rfl)) hs (exec_bit d m s ▸ h)
  | sl d c => exact k.of_onOperands k.bodyKeeps_shiftBody hs (exec_sl d c s ▸ h)
  | slW d c w => exact k.of_block k.bodyKeeps_shiftBody hs h
  | slWN d c w n => exact k.of_blockRepeat k.bodyKeeps_shiftBody hs h
  | sr d c => exact k.of_onOperands k.bodyKeeps_shiftRBody hs (exec_sr d c s ▸ h)
  | div d x => exact k.of_onOperands (k.bodyKeeps_divStep (K.zero rfl rfl) false) hs (exec_div d x s ▸ h)
  | divR d x r => exact k.of_divideRem (K.zero rfl rfl) hs h
  | divW d x w => exact k.of_block (k.bodyKeeps_divStep (K.zero rfl rfl) false) hs h
  | divWN d x w n => exact k.of_blockRepeat (k.bodyKeeps_divStep (K.zero rfl rfl) false) hs h
  | sdiv d x => exact k.of_onOperands (k.bodyKeeps_divStep (K.zero rfl rfl) true) hs (exec_sdiv d x s ▸ h)
  | sdivR d x r => exact k.of_divideRem (K.zero rfl rfl) hs h
  | rgb2hsb d x => exact k.of_onOperands k.bodyKeeps_rgb2hsbBody hs (exec_rgb2hsb d x s ▸ h)
  | brk => cases h; exact K.halt rfl hs

end keeps

/-! ### The flags -/

/-- What `decided` says of the flags, in the words of 10_state.md R42. -/
theorem Flags.spec_of_decided {f : Flags} (h : f.decided = true) :
    f.eq.toNat + f.gt.toNat + f.lt.toNat = 1 ∧ f.gte = (f.gt || f.eq) ∧ f.lte = (f.lt || f.eq) := by
  obtain ⟨zero, eq, gt, lt, gte, lte⟩ := f
  revert zero eq gt lt gte lte
  decide

theorem SameRelational.of_flags {s t : State} (h : t.flags = s.flags) : SameRelational s t := by
  simp only [SameRelational, h, and_self]

theorem SameRelational.trans {s t u : State} (h : SameRelational s t) (k : SameRelational t u) :
    SameRelational s u := by
  obtain ⟨heq, hgt, hlt, hgte, hlte⟩ := h
  obtain ⟨keq, kgt, klt, kgte, klte⟩ := k
  exact ⟨keq.trans heq, kgt.trans hgt, klt.trans hlt, kgte.trans hgte, klte.trans hlte⟩

/-- The comparisons are among the instructions that write Zero (10_state.md R43, the table). -/
theorem writesZero_of_isCompare {i : Instr} (h : isCompare i = true) : writesZero i = true := by
  cases i with
  | cp | scp => rfl
  | _ => cases h

/-- Outside the comparisons, all that an instruction may do to the flags is to set Zero (10_state.md R42). -/
theorem keepsInstr_sameRelational {i : Instr} (hi : isCompare i = false) (s : State) :
    KeepsInstr i s (SameRelational s) where
  fault _ hu := hu
  draw hu := hu
  write _ hu := hu.trans (.of_flags (writeBits_flags _ _ _))
  halt _ _ hu := hu
  zero _ _ _ _ hu := hu
  compare hc := by rw [hi] at hc; cases hc

/-- An instruction that does not write Zero may do nothing to the flags (10_state.md R43). -/
theorem keepsInstr_flags {i : Instr} (hi : writesZero i = false) (s : State) :
    KeepsInstr i s (fun u => u.flags = s.flags) where
  fault _ hu := hu
  draw hu := hu
  write _ hu := (writeBits_flags _ _ _).trans hu
  halt _ _ hu := hu
  zero hz := by rw [hi] at hz; cases hz
  compare hc := by rw [writesZero_of_isCompare hc] at hi; cases hi

/-- A comparison on operands that resolve writes decided flags, may take a draw, and changes nothing else
(42_compare.md R220, R225). -/
theorem onOperands_compareBody (signed : Bool) {s : State} {a b : Operand} {la lb : Loc} (ha : resolve s a = .ok la)
    (hb : resolve s b = .ok lb) :
    ∃ t, onOperands (compareBody signed) a b s = .next t ∧ t.flags.decided = true ∧ t.flags.zero = t.flags.eq ∧
      { t with flags := s.flags, draws := s.draws } = s := by
  obtain ⟨u, f, hu, hf, hz, e⟩ := compareLocs_cases signed s la lb
  refine ⟨u.setFlags f, ?_, hf, hz, ?_⟩
  · rw [onOperands_of_resolve ha hb, compareBody, e]; rfl
  · rcases hu with rfl | rfl <;> rfl

/-- Settles O20: the first half by what a comparison may write, the second by `exec_keeps`. -/
theorem relationalFlagsComeFromComparisons : Obligations.RelationalFlagsComeFromComparisons := by
  refine ⟨fun mk hmk s a b la lb ha hb => ?_, fun i s t hi h =>
    exec_keeps (keepsInstr_sameRelational hi s) (.of_flags rfl) h⟩
  have hexec : ∃ signed, exec (mk a b) s = onOperands (compareBody signed) a b s := by
    simp only [List.mem_cons, List.not_mem_nil, or_false] at hmk
    rcases hmk with rfl | rfl
    · exact ⟨false, exec_cp a b s⟩
    · exact ⟨true, exec_scp a b s⟩
  obtain ⟨signed, e⟩ := hexec
  obtain ⟨t, ht, hdecided, hzero, hframe⟩ := onOperands_compareBody signed ha hb
  obtain ⟨hone, hgte, hlte⟩ := Flags.spec_of_decided hdecided
  exact ⟨t, e.trans ht, hone, hgte, hlte, hzero, hframe⟩

/-- Settles O21, by `exec_keeps`. -/
theorem movesAndShiftsKeepFlags : Obligations.MovesAndShiftsKeepFlags :=
  fun _ s _ hi h => exec_keeps (keepsInstr_flags hi s) rfl h

/-! ### Register chains -/

/-- Writing a chain: a cell of the chain holds its byte of the value (10_state.md R34). -/
theorem State.readReg_writeChain_of_lt (s : State) (i : Fin 26) {w k : Nat} (v : Nat) (hw : w ≤ 26) (hk : k < w) :
    (s.writeChain i w v).readReg (i + Fin.ofNat 26 k) = BitVec.ofNat 8 (v / 2 ^ (8 * (w - 1 - k))) := by
  have hplace : ((i + Fin.ofNat 26 k - i : Fin 26)).val = k := by
    simp only [add_sub_cancel_left, Fin.ofNat]
    omega
  rw [State.writeChain, State.readReg_writeCells _ _ _ _ (by rwa [beBytes_length]), hplace,
    beBytes_getElem? _ _ _ hk, Option.getD_some, pow256_eq]

/-- Writing a chain: every cell outside it is as before (10_state.md R34). -/
theorem State.readReg_writeChain_of_ne (s : State) (i r : Fin 26) {w : Nat} (v : Nat) (hw : w ≤ 26)
    (hr : ∀ k < w, r ≠ i + Fin.ofNat 26 k) : (s.writeChain i w v).readReg r = s.readReg r := by
  have hplace : w ≤ ((r - i : Fin 26)).val := by
    by_contra hlt
    refine hr _ (Nat.lt_of_not_le hlt) ?_
    simp
  rw [State.writeChain, State.readReg_writeCells _ _ _ _ (by rwa [beBytes_length]),
    List.getElem?_eq_none (by rwa [beBytes_length]), Option.getD_none]

/-- Reading a chain back gives the value modulo its width (10_state.md R34). -/
theorem State.readChain_writeChain (s : State) (i : Fin 26) {w : Nat} (v : Nat) (hw : w ≤ 26) :
    (s.writeChain i w v).readChain i w = v % 2 ^ (8 * w) := by
  have hcells := State.readCells_writeCells s i (beBytes w v) (by rwa [beBytes_length])
  rw [beBytes_length] at hcells
  rw [State.readChain, State.writeChain, hcells, be_beBytes, pow256_eq]

/-- Settles O22: a chain of at most 4 cells does not meet itself. -/
theorem chainWriteIsBigEndian : Obligations.ChainWriteIsBigEndian := by
  intro s i w v
  have hw : w.bytes ≤ 26 := w.bytes_le.trans (by decide)
  exact ⟨fun k hk => s.readReg_writeChain_of_lt i v hw hk, fun r hr => s.readReg_writeChain_of_ne i r v hw hr,
    s.readChain_writeChain i v hw⟩

/-! ### The state after reset -/

/-- Settles O13: memory is empty, no flag is set and no fault recorded. -/
theorem resetMeetsInvariant : Obligations.ResetMeetsInvariant where
  memCanonical := rfl
  memWithin := rfl
  sizeRange := by decide
  flagsConsistent := rfl
  faultAtPc := fun _ h => by cases h

/-- Settles O16: with no program and no byte set, the load leaves the memory the host provides. -/
theorem resetIsALaunch : Obligations.ResetIsALaunch := ⟨rfl, rfl, rfl⟩

end Sys2Proof.Machine
end

section
/-! PROOFS. Memory (20_memory.md): what every step keeps of it and of the machine's invariant, MemRead and MemWrite, and
the effective address of each memory mode. -/

namespace Sys2Proof.Machine

/-! ### What every step keeps -/

/-- What survives everything an instruction may do, and the advance of pc in a Running state, survives a step: a fetch
or decode fault is one that every instruction may take, BREAK among them. -/
theorem step_keeps {s t : State} {P : State → Prop} (K : ∀ i, KeepsInstr i s P)
    (A : ∀ {u : State} {len : Nat}, u.status = .running → P u → P (u.advance len)) (hs : P s)
    (h : step s = .next t) : P t := by
  obtain ⟨-, ⟨f, hf, rfl⟩ | ⟨i, len, u, -, hu, hadvance⟩⟩ := step_cases h
  · exact (K .brk).fault (fetchDecode_error_pc hf) hs
  · have hPu : P u := exec_keeps (K i) hs hu
    rcases hadvance with ⟨hrun, rfl⟩ | ⟨-, rfl⟩
    · exact A hrun hPu
    · exact hPu

/-! #### The invariant under each operation -/

section invariant

variable {u : State}

theorem State.Inv.raiseFault {f : FaultRecord} (hf : f.pc = u.pc) (h : u.Inv) : (u.raiseFault f).Inv where
  __ := h
  faultAtPc := fun _ hg => by cases hg; exact hf

theorem State.Inv.halt (h : u.Inv) : u.halt.Inv where
  __ := h
  faultAtPc := fun _ hg => by cases hg

/-- No fault is recorded in a Running state, so pc may move. -/
theorem State.Inv.advance {len : Nat} (hrun : u.status = .running) (h : u.Inv) : (u.advance len).Inv where
  __ := h
  faultAtPc := fun _ hg => by
    rw [State.advance_status, hrun] at hg
    cases hg

theorem State.Inv.draw (h : u.Inv) : u.draw.2.Inv where
  __ := h

theorem State.Inv.setZero {z : Bool} (h : u.Inv) : (u.setZero z).Inv where
  __ := h

theorem State.Inv.setFlags {f : Flags} (hf : f.decided = true) (h : u.Inv) : (u.setFlags f).Inv where
  __ := h
  flagsConsistent := Flags.consistent_of_decided hf

theorem State.Inv.writeBits {l : Loc} (hl : l.inBounds u) (v : Nat) (h : u.Inv) : (writeBits u l v).Inv where
  memCanonical := writeBits_mem_wf h.memCanonical l v
  memWithin := writeBits_mem_within h.memWithin hl v
  sizeRange := by rw [writeBits_memSize]; exact h.sizeRange
  flagsConsistent := by rw [writeBits_flags]; exact h.flagsConsistent
  faultAtPc := fun f hf => by
    rw [writeBits_status] at hf
    rw [writeBits_pc]
    exact h.faultAtPc f hf

end invariant

/-! #### The invariants -/

/-- `MEM_SIZE` stays beside the invariant: a resolved Location lies in the memory the instruction began with. -/
theorem keepsInstr_inv (i : Instr) (s : State) : KeepsInstr i s (fun u => u.memSize = s.memSize ∧ u.Inv) where
  fault hf := fun ⟨hsize, hu⟩ => ⟨hsize, hu.raiseFault hf⟩
  draw := fun ⟨hsize, hu⟩ => ⟨hsize, hu.draw⟩
  write hl := fun ⟨hsize, hu⟩ => ⟨(writeBits_memSize _ _ _).trans hsize, hu.writeBits (Loc.inBounds_congr hsize hl) _⟩
  halt _ := fun ⟨hsize, hu⟩ => ⟨hsize, hu.halt⟩
  zero _ _ := fun ⟨hsize, hu⟩ => ⟨hsize, hu.setZero⟩
  compare _ := fun hf _ ⟨hsize, hu⟩ => ⟨hsize, hu.setFlags hf⟩

/-- Settles O12, by `step_keeps`. -/
theorem stepKeepsInvariant : Obligations.StepKeepsInvariant := fun s _ hs h =>
  (step_keeps (fun i => keepsInstr_inv i s) (fun hrun ⟨hsize, hu⟩ => ⟨hsize, hu.advance hrun⟩) ⟨rfl, hs⟩ h).2

theorem keepsInstr_memSize_draws (i : Instr) (s : State) :
    KeepsInstr i s (fun u => u.memSize = s.memSize ∧ s.draws ≤ u.draws) where
  fault _ hu := hu
  draw := fun ⟨hsize, hdraws⟩ => ⟨hsize, Nat.le_succ_of_le hdraws⟩
  write {u l v} _ := fun ⟨hsize, hdraws⟩ =>
    have hw := writeBits_steady u l v
    ⟨hw.memSize.trans hsize, hdraws.trans hw.draws⟩
  halt _ _ hu := hu
  zero _ _ _ _ hu := hu
  compare _ _ _ _ _ hu := hu

/-- Settles O14, by `step_keeps`. -/
theorem stepKeepsMemorySize : Obligations.StepKeepsMemorySize := fun s _ h =>
  step_keeps (fun i => keepsInstr_memSize_draws i s) (fun _ hu => hu) ⟨rfl, Nat.le_refl _⟩ h

/-! ### MemRead and MemWrite -/

section access

variable (s : State) (a : Word) (n v : Nat)

theorem State.memRead_of_le (h : a.toNat + n ≤ s.memSize) : s.memRead a n = .ok (s.load a n) :=
  if_pos (decide_eq_true h)

theorem State.memWrite_of_le (h : a.toNat + n ≤ s.memSize) : s.memWrite a n v = .ok (s.store a n v) :=
  if_pos (decide_eq_true h)

theorem State.inRange_of_lt (h : s.memSize < a.toNat + n) : s.inRange a n = false :=
  decide_eq_false (Nat.not_le_of_lt h)

theorem State.memRead_of_lt (h : s.memSize < a.toNat + n) : s.memRead a n = .error (.memOutOfRange s.pc a n) := by
  rw [State.memRead, s.inRange_of_lt a n h]; rfl

theorem State.memWrite_of_lt (h : s.memSize < a.toNat + n) : s.memWrite a n v = .error (.memOutOfRange s.pc a n) := by
  rw [State.memWrite, s.inRange_of_lt a n h]; rfl

variable {s}

/-- A byte of the access holds its byte of the value stored, most significant first (20_memory.md R73). -/
theorem State.read_store_of_lt (hwf : s.mem.wf = true) {k : Nat} (hk : k < n) :
    (s.store a n v).mem.read (a.toNat + k) = BitVec.ofNat 8 (v / 2 ^ (8 * (n - 1 - k))) := by
  rw [State.store_mem, Memory.read_writeBytes hwf, if_pos (Nat.le_add_right _ _), Nat.add_sub_cancel_left,
    beBytes_getElem? _ _ _ hk, Option.getD_some, pow256_eq]

/-- A byte outside the access is as before (20_memory.md R73). -/
theorem State.read_store_of_outside (hwf : s.mem.wf = true) {b : Nat} (hb : b < a.toNat ∨ a.toNat + n ≤ b) :
    (s.store a n v).mem.read b = s.mem.read b := by
  rw [State.store_mem, Memory.read_writeBytes hwf]
  rcases hb with hb | hb
  · rw [if_neg (Nat.not_le_of_lt hb)]
  · have hend : (beBytes n v).length ≤ b - a.toNat := by rw [beBytes_length]; omega
    rw [List.getElem?_eq_none hend, Option.getD_none, ite_self]

/-- Loading what was stored gives the value modulo its width (20_memory.md R72, R73). -/
theorem State.load_store (hwf : s.mem.wf = true) : (s.store a n v).load a n = v % 2 ^ (8 * n) := by
  have hbytes := Memory.readBytes_writeBytes hwf a.toNat (beBytes n v)
  rw [beBytes_length] at hbytes
  rw [State.load, State.store_mem, hbytes, be_beBytes, pow256_eq]

end access

/-- Settles O23: in range the store and the load back, out of range the bounds check of both. -/
theorem memoryWriteIsBigEndian : Obligations.MemoryWriteIsBigEndian := by
  intro s a n v hwf _ _
  refine ⟨fun hin => ⟨s.store a n v, s.memWrite_of_le a n v hin, ?_, ?_, ?_, rfl⟩, fun hout =>
    ⟨s.memWrite_of_lt a n v hout, s.memRead_of_lt a n hout⟩⟩
  · exact fun k hk => State.read_store_of_lt a n v hwf hk
  · exact fun b hb => State.read_store_of_outside a n v hwf hb
  · exact ((s.store a n v).memRead_of_le a n hin).trans (congrArg _ (State.load_store a n v hwf))

/-! ### Effective addresses -/

/-- `resolveMem_cases`, a clause for each side of the bound (20_memory.md R93). -/
theorem resolveMem_spec (s : State) (ea : Word) (t : TypeCode) :
    (ea.toNat + t.size ≤ s.memSize → resolveMem s ea t = .ok (.mem ea t)) ∧
    (s.memSize < ea.toNat + t.size → resolveMem s ea t = .error (.memOutOfRange s.pc ea t.size)) := by
  rcases resolveMem_cases s ea t with ⟨hin, e⟩ | ⟨hout, e⟩
  · exact ⟨fun _ => e, fun h => absurd hin (Nat.not_le_of_lt h)⟩
  · exact ⟨fun h => absurd h (Nat.not_le_of_lt hout), fun _ => e⟩

/-- A chain of at most 4 cells is a word: its value is its address term (20_memory.md R85). -/
theorem State.chainWord_toNat (s : State) (c : Chain) :
    (s.chainWord c).toNat = s.readChain c.start c.width.bytes := by
  have hlt : s.readChain c.start c.width.bytes < 2 ^ 32 :=
    calc s.readChain c.start c.width.bytes
      _ < 256 ^ c.width.bytes := s.readChain_lt _ _
      _ ≤ 256 ^ 4 := Nat.pow_le_pow_right (by decide) c.width.bytes_le
      _ = 2 ^ 32 := by decide
  rw [State.chainWord, State.chain, BitVec.toNat_ofNat, Nat.mod_eq_of_lt hlt]

/-- A memory operand resolves through its effective address, so that of each mode only the sum is left to say. -/
theorem addressedBy_of_effectiveAddress {s : State} {o : Operand} {t : TypeCode} {ea : Word} {base offset : Nat}
    (hm : o.isMem = true) (ha : effectiveAddress s o = some (ea, t)) (hea : ea.toNat = (base + offset) % 2 ^ 32) :
    AddressedBy s o t base offset := by
  obtain ⟨ea', t', ha', -, hresolve, hblock⟩ := resolve_of_isMem s hm
  obtain ⟨rfl, rfl⟩ : ea = ea' ∧ t = t' := by simpa using ha.symm.trans ha'
  intro a hsum
  obtain rfl : a = ea.toNat := hsum.trans hea.symm
  rw [BitVec.ofNat_toNat, BitVec.setWidth_eq, hresolve]
  refine ⟨(resolveMem_spec s ea t).1, (resolveMem_spec s ea t).2, fun w => ?_⟩
  rw [hblock, ← Width.intType_size]
  exact resolveMem_spec s ea w.intType

/-- Settles O24: a base alone is below 2^32, and words add modulo 2^32. -/
theorem effectiveAddressOfEachMode : Obligations.EffectiveAddressOfEachMode := by
  intro s t addr off n p c
  have hbase (b : Word) : b.toNat = (b.toNat + 0) % 2 ^ 32 := (Nat.mod_eq_of_lt b.isLt).symm
  simp only [← State.chainWord_toNat]
  exact ⟨addressedBy_of_effectiveAddress rfl rfl (hbase addr),
    addressedBy_of_effectiveAddress rfl rfl (BitVec.toNat_add addr off),
    addressedBy_of_effectiveAddress rfl rfl (BitVec.toNat_add addr (s.chainWord c)),
    addressedBy_of_effectiveAddress rfl rfl (hbase (s.chainWord p)),
    addressedBy_of_effectiveAddress rfl rfl (BitVec.toNat_add (s.chainWord p) off),
    addressedBy_of_effectiveAddress rfl rfl (BitVec.toNat_add (s.chainWord p) (s.chainWord c))⟩

end Sys2Proof.Machine
end

section
/-! PROOFS. The reference encoding (30_encoding.md): decoder and encoder are inverse, stage by stage (`Reads`), and so
what decodes at pc is said by the bytes there alone. -/

namespace Sys2Proof

/-! ### Stages that are inverse to an encoder -/

/-- One decoding stage, then another on the bytes after it: what the nested matches of the decoder's stages say. -/
def Decoded.andThen {α β : Type} (x : Decoded α) (f : α → List Byte → Decoded β) : Decoded β :=
  match x with
  | .error e => .error e
  | .ok (a, bs) => f a bs

/-- A value built from what a stage answers. -/
def Decoded.map {α β : Type} (f : α → β) (x : Decoded α) : Decoded β := x.andThen fun a bs => .ok (f a, bs)

/-- Two stages in sequence, and both their values. -/
def takeBoth {α β : Type} (take₁ : List Byte → Decoded α) (take₂ : List Byte → Decoded β) (bs : List Byte) :
    Decoded (α × β) :=
  (take₁ bs).andThen fun a bs => (take₂ bs).map fun b => (a, b)

theorem Decoded.andThen_eq_ok {α β : Type} {x : Decoded α} {f : α → List Byte → Decoded β} {p : β × List Byte} :
    x.andThen f = .ok p ↔ ∃ a bs, x = .ok (a, bs) ∧ f a bs = .ok p := by
  rcases x with e | ⟨a, bs⟩ <;> simp [Decoded.andThen]

/-- A stage and an encoder are inverse on the values that are good: the stage answers a value exactly where it is good
and its encoding stands at the head of the bytes. -/
def Reads {α : Type} (take : List Byte → Decoded α) (good : α → Bool) (enc : α → List Byte) : Prop :=
  ∀ bs a rest, take bs = .ok (a, rest) ↔ good a = true ∧ bs = enc a ++ rest

section reads

variable {α β : Type} {take : List Byte → Decoded α} {take₂ : List Byte → Decoded β}
  {good : α → Bool} {good₂ : β → Bool} {enc : α → List Byte} {enc₂ : β → List Byte}

theorem Reads.andThen_eq_ok (h : Reads take good enc) {f : α → List Byte → Decoded β} {bs : List Byte}
    {p : β × List Byte} :
    (take bs).andThen f = .ok p ↔ ∃ a bs', good a = true ∧ bs = enc a ++ bs' ∧ f a bs' = .ok p := by
  simp only [Decoded.andThen_eq_ok, h _ _ _, and_assoc]

theorem Reads.map_eq_ok (h : Reads take good enc) {f : α → β} {bs rest : List Byte} {b : β} :
    (take bs).map f = .ok (b, rest) ↔ ∃ a, good a = true ∧ b = f a ∧ bs = enc a ++ rest := by
  simp only [Decoded.map, h.andThen_eq_ok, Except.ok.injEq, Prod.mk.injEq]
  constructor
  · rintro ⟨a, _, ha, rfl, rfl, rfl⟩
    exact ⟨a, ha, rfl, rfl⟩
  · rintro ⟨a, ha, rfl, rfl⟩
    exact ⟨a, rest, ha, rfl, rfl, rfl⟩

/-- Stages in sequence read the encodings in sequence (30_encoding.md R110, R111). -/
theorem Reads.both (h : Reads take good enc) (h₂ : Reads take₂ good₂ enc₂) :
    Reads (takeBoth take take₂) (fun p => good p.1 && good₂ p.2) fun p => enc p.1 ++ enc₂ p.2 := by
  rintro bs ⟨a, b⟩ rest
  simp only [takeBoth, h.andThen_eq_ok, h₂.map_eq_ok, Prod.mk.injEq, Bool.and_eq_true, List.append_assoc]
  constructor
  · rintro ⟨a, _, ha, rfl, b, hb, ⟨rfl, rfl⟩, rfl⟩
    exact ⟨⟨ha, hb⟩, rfl⟩
  · rintro ⟨⟨ha, hb⟩, rfl⟩
    exact ⟨a, _, ha, rfl, b, hb, ⟨rfl, rfl⟩, rfl⟩

/-- A stage that also checks what it read. -/
theorem Reads.check (h : Reads take good enc) {take' : List Byte → Decoded α} {p : α → Bool} {e : DecodeError}
    (he : ∀ bs, take' bs = (take bs).andThen fun a bs => if p a then .ok (a, bs) else .error e) :
    Reads take' (fun a => good a && p a) enc := by
  intro bs a rest
  simp only [he, h.andThen_eq_ok, Bool.and_eq_true]
  constructor
  · rintro ⟨a, bs', ha, rfl, hp⟩
    split at hp <;> cases hp
    exact ⟨⟨ha, ‹_›⟩, rfl⟩
  · rintro ⟨⟨ha, hp⟩, rfl⟩
    exact ⟨a, rest, ha, rfl, if_pos hp⟩

end reads

/-! ### Literals and register bytes -/

theorem takeWord_eq (n : Nat) (bs : List Byte) :
    takeWord n bs = (takeNum n bs).andThen fun v bs => .ok (BitVec.ofNat 32 v, bs) := by
  unfold takeWord
  cases takeNum n bs <;> rfl

/-- A literal of at most 4 bytes fits its field and no more (30_encoding.md R118, R119). -/
theorem takeWord_reads {n : Nat} (hn : n ≤ 4) :
    Reads (takeWord n) (fun v => decide (v.toNat < 256 ^ n)) fun v => beBytes n v.toNat := by
  intro bs v rest
  rw [takeWord_eq, Decoded.andThen_eq_ok, decide_eq_true_iff]
  constructor
  · rintro ⟨m, bs', hm, h⟩
    cases h
    obtain ⟨pre, rfl, rfl, rfl⟩ := takeNum_ok hm
    have hlt : be pre < 256 ^ pre.length := be_lt pre
    have h32 : 256 ^ pre.length ≤ 2 ^ 32 := pow256_eq pre.length ▸ Nat.pow_le_pow_right (by decide) (by omega)
    have hv : (BitVec.ofNat 32 (be pre)).toNat = be pre := Nat.mod_eq_of_lt (hlt.trans_le h32)
    simp only [hv, beBytes_be]
    exact ⟨hlt, trivial⟩
  · rintro ⟨hv, rfl⟩
    exact ⟨v.toNat, rest, by rw [takeNum_beBytes, Nat.mod_eq_of_lt hv], by simp⟩

theorem takeAddr_reads : Reads (takeWord 3) addrFits fun a => beBytes 3 a.toNat := takeWord_reads (by decide)

theorem takeOffset_reads {size : Width} (h : size ≠ .w4) :
    Reads (takeWord size.bytes) (offsetFits size) fun d => beBytes size.bytes d.toNat := by
  simpa [Reads, offsetFits, h] using takeWord_reads size.bytes_le

/-- A register reference and its byte (30_encoding.md R115). -/
theorem takeChain_reads : Reads takeChain (fun _ => true) fun c => [c.byte] := by
  intro bs c rest
  constructor
  · intro h
    cases bs with
    | nil => cases h
    | cons b bs =>
      cases hb : chainOfByte b with
      | error e => simp [takeChain, hb] at h
      | ok c' =>
        simp only [takeChain, takeByte_cons, hb] at h
        cases h
        exact ⟨rfl, by simp [byte_of_chainOfByte hb]⟩
  · rintro ⟨-, rfl⟩
    simp [takeChain, chainOfByte_byte]

theorem takePointer_reads : Reads takePointer Chain.isPointer fun c => [c.byte] :=
  takeChain_reads.check fun bs => by
    unfold takePointer
    cases takeChain bs <;> rfl

/-- A float register and its byte (30_encoding.md R116). -/
theorem takeFloatReg_reads : Reads takeFloatReg (fun _ => true) fun j => [BitVec.ofNat 8 j.val] := by
  intro bs j rest
  constructor
  · intro h
    cases bs with
    | nil => cases h
    | cons b bs =>
      simp only [takeFloatReg, takeByte_cons] at h
      split at h <;> cases h
      exact ⟨rfl, by simp⟩
  · rintro ⟨-, rfl⟩
    have hj : (BitVec.ofNat 8 j.val).toNat = j.val := Nat.mod_eq_of_lt (by omega)
    simp [takeFloatReg, hj]

/-! ### Descriptors -/

/-- The operand is well formed, and the descriptor byte `d` and the bytes `bs` after it are its encoding, then `rest`. -/
def DescribedBy (d : Byte) (bs : List Byte) (o : Operand) (rest : List Byte) : Prop :=
  o.wf = true ∧ d :: bs = encodeOperand o ++ rest

theorem Reads.map_eq_ok_describedBy {α : Type} {take : List Byte → Decoded α} {good : α → Bool} {enc : α → List Byte}
    (h : Reads take good enc) {mk : α → Operand} {d : Byte} (hwf : ∀ a, (mk a).wf = good a)
    (henc : ∀ a, encodeOperand (mk a) = d :: enc a) {bs rest : List Byte} {o : Operand} :
    (take bs).map mk = .ok (o, rest) ↔ (∃ a, o = mk a) ∧ DescribedBy d bs o rest := by
  rw [h.map_eq_ok]
  constructor
  · rintro ⟨a, ha, rfl, rfl⟩
    exact ⟨⟨a, rfl⟩, (hwf a).trans ha, by rw [henc, List.cons_append]⟩
  · rintro ⟨⟨a, rfl⟩, hgood, hbytes⟩
    rw [henc, List.cons_append, List.cons.injEq] at hbytes
    exact ⟨a, (hwf a).symm.trans hgood, rfl, hbytes.2⟩

section descriptors

variable {t : TypeCode} {size : Width} {bs rest : List Byte} {o : Operand}

theorem takePayload_reg_eq_ok :
    takePayload 0x1 0 bs = .ok (o, rest) ↔ (∃ c, o = .reg c) ∧ DescribedBy (descByte 0x1 0) bs o rest := by
  have e : takePayload 0x1 0 bs = (takeChain bs).map .reg := by
    unfold takePayload
    cases takeChain bs <;> rfl
  rw [e]
  exact takeChain_reads.map_eq_ok_describedBy (fun _ => rfl) fun _ => rfl

theorem takePayload_freg_eq_ok :
    takePayload 0x2 0 bs = .ok (o, rest) ↔ (∃ j, o = .freg j) ∧ DescribedBy (descByte 0x2 0) bs o rest := by
  have e : takePayload 0x2 0 bs = (takeFloatReg bs).map .freg := by
    unfold takePayload
    cases takeFloatReg bs <;> rfl
  rw [e]
  exact takeFloatReg_reads.map_eq_ok_describedBy (fun _ => rfl) fun _ => rfl

theorem takeImm_eq_ok :
    takeImm t bs = .ok (o, rest) ↔ (∃ v, o = .imm t v) ∧ DescribedBy (descByte 0x3 t.bits) bs o rest := by
  have e : takeImm t bs = (takeWord t.size bs).map (.imm t) := by
    unfold takeImm
    cases takeWord t.size bs <;> rfl
  rw [e]
  exact (takeWord_reads t.size_le).map_eq_ok_describedBy (fun _ => rfl) fun _ => rfl

theorem takeMabs_eq_ok :
    takeMabs t bs = .ok (o, rest) ↔ (∃ a, o = .mabs t a) ∧ DescribedBy (descByte 0x4 t.bits) bs o rest := by
  have e : takeMabs t bs = (takeWord 3 bs).map (.mabs t) := by
    unfold takeMabs
    cases takeWord 3 bs <;> rfl
  rw [e]
  exact takeAddr_reads.map_eq_ok_describedBy (fun _ => rfl) fun _ => rfl

theorem takeMabsOff_eq_ok (h : size ≠ .w4) :
    takeMabsOff t size bs = .ok (o, rest) ↔
      (∃ p : Word × Word, o = .mabsOff t p.1 size p.2) ∧
        DescribedBy (descByte (offsetKind 0x5 size) t.bits) bs o rest := by
  have e : takeMabsOff t size bs =
      (takeBoth (takeWord 3) (takeWord size.bytes) bs).map fun p => .mabsOff t p.1 size p.2 := by
    unfold takeMabsOff takeBoth
    repeat' split <;> simp [*, Decoded.andThen, Decoded.map]
  rw [e]
  exact (takeAddr_reads.both (takeOffset_reads h)).map_eq_ok_describedBy (fun _ => rfl) fun _ => rfl

theorem takeMabsReg_eq_ok :
    takeMabsReg t bs = .ok (o, rest) ↔
      (∃ p : Word × Chain, o = .mabsReg t p.1 p.2) ∧ DescribedBy (descByte 0x8 t.bits) bs o rest := by
  have e : takeMabsReg t bs = (takeBoth (takeWord 3) takePointer bs).map fun p => .mabsReg t p.1 p.2 := by
    unfold takeMabsReg takeBoth
    repeat' split <;> simp [*, Decoded.andThen, Decoded.map]
  rw [e]
  exact (takeAddr_reads.both takePointer_reads).map_eq_ok_describedBy (fun _ => rfl) fun _ => rfl

theorem takeMptr_eq_ok :
    takeMptr t bs = .ok (o, rest) ↔ (∃ p, o = .mptr t p) ∧ DescribedBy (descByte 0x9 t.bits) bs o rest := by
  have e : takeMptr t bs = (takePointer bs).map (.mptr t) := by
    unfold takeMptr
    cases takePointer bs <;> rfl
  rw [e]
  exact takePointer_reads.map_eq_ok_describedBy (fun _ => rfl) fun _ => rfl

theorem takeMptrOff_eq_ok (h : size ≠ .w4) :
    takeMptrOff t size bs = .ok (o, rest) ↔
      (∃ p : Chain × Word, o = .mptrOff t p.1 size p.2) ∧
        DescribedBy (descByte (offsetKind 0xA size) t.bits) bs o rest := by
  have e : takeMptrOff t size bs =
      (takeBoth takePointer (takeWord size.bytes) bs).map fun p => .mptrOff t p.1 size p.2 := by
    unfold takeMptrOff takeBoth
    repeat' split <;> simp [*, Decoded.andThen, Decoded.map]
  rw [e]
  exact (takePointer_reads.both (takeOffset_reads h)).map_eq_ok_describedBy (fun _ => rfl) fun _ => rfl

theorem takeMptrReg_eq_ok :
    takeMptrReg t bs = .ok (o, rest) ↔
      (∃ p : Chain × Chain, o = .mptrReg t p.1 p.2) ∧ DescribedBy (descByte 0xD t.bits) bs o rest := by
  have e : takeMptrReg t bs = (takeBoth takePointer takePointer bs).map fun p => .mptrReg t p.1 p.2 := by
    unfold takeMptrReg takeBoth
    repeat' split <;> simp [*, Decoded.andThen, Decoded.map]
  rw [e]
  exact (takePointer_reads.both takePointer_reads).map_eq_ok_describedBy (fun _ => rfl) fun _ => rfl

/-- What a kind 0x3 to 0xD reads is what its descriptor byte says (30_encoding.md R117). -/
theorem describedBy_of_takeTyped {k : Nat} (h : takeTyped k t bs = .ok (o, rest)) :
    DescribedBy (descByte k t.bits) bs o rest := by
  unfold takeTyped at h
  split at h
  · exact (takeImm_eq_ok.1 h).2
  · exact (takeMabs_eq_ok.1 h).2
  · exact ((takeMabsOff_eq_ok (by decide)).1 h).2
  · exact ((takeMabsOff_eq_ok (by decide)).1 h).2
  · exact ((takeMabsOff_eq_ok (by decide)).1 h).2
  · exact (takeMabsReg_eq_ok.1 h).2
  · exact (takeMptr_eq_ok.1 h).2
  · exact ((takeMptrOff_eq_ok (by decide)).1 h).2
  · exact ((takeMptrOff_eq_ok (by decide)).1 h).2
  · exact ((takeMptrOff_eq_ok (by decide)).1 h).2
  · exact (takeMptrReg_eq_ok.1 h).2
  · cases h

theorem bits_of_typeOfBits {sub : Nat} (h : typeOfBits sub = .ok t) : t.bits = sub := by
  unfold typeOfBits at h
  split at h <;> cases h <;> rfl

/-- What a descriptor's payload reads is what its descriptor byte says: no illegal descriptor is read (30_encoding.md
R117, R126). -/
theorem describedBy_of_takePayload {k sub : Nat} (h : takePayload k sub bs = .ok (o, rest)) :
    DescribedBy (descByte k sub) bs o rest := by
  have hpayload := h
  unfold takePayload at h
  split at h
  case isTrue => cases h
  split at h
  case isTrue hk =>
    split at h
    case isTrue hsub =>
      subst hk hsub
      exact (takePayload_reg_eq_ok.1 hpayload).2
    case isFalse => cases h
  split at h
  case isTrue hk =>
    split at h
    case isTrue hsub =>
      subst hk hsub
      exact (takePayload_freg_eq_ok.1 hpayload).2
    case isFalse => cases h
  split at h
  · cases h
  · rename_i t ht
    rw [← bits_of_typeOfBits ht]
    exact describedBy_of_takeTyped h

theorem takeOperand_cons (d : Byte) (bs : List Byte) :
    takeOperand (d :: bs) = takePayload (d.toNat / 16) (d.toNat % 16) bs := rfl

theorem takeOperand_descByte {k sub : Nat} (hk : k < 16) (hs : sub < 16) :
    takeOperand (descByte k sub :: bs) = takePayload k sub bs := by
  obtain ⟨hkind, hsub⟩ := descByte_fields hk hs
  simp only [takeOperand, takeByte_cons, hkind, hsub]

theorem descByte_of_fields (d : Byte) : descByte (d.toNat / 16) (d.toNat % 16) = d := by
  rw [descByte, Nat.div_add_mod', BitVec.ofNat_toNat, BitVec.setWidth_eq]

theorem takeOperand_typed {k : Nat} (h : 3 ≤ k) (h' : k < 14) :
    takeOperand (descByte k t.bits :: bs) = takeTyped k t bs := by
  have := t.bits_lt
  rw [takeOperand_descByte (by omega) (by omega), takePayload, if_neg (by omega), if_neg (by omega),
    if_neg (by omega), typeOfBits_bits]

theorem takeTyped_offsetKind_mabsOff (h : size ≠ .w4) :
    takeTyped (offsetKind 0x5 size) t bs = takeMabsOff t size bs := by
  cases size with
  | w4 => exact absurd rfl h
  | _ => rfl

theorem takeTyped_offsetKind_mptrOff (h : size ≠ .w4) :
    takeTyped (offsetKind 0xA size) t bs = takeMptrOff t size bs := by
  cases size with
  | w4 => exact absurd rfl h
  | _ => rfl

theorem ne_w4_of_offsetFits {d : Word} (h : offsetFits size d = true) : size ≠ .w4 := by
  rintro rfl
  cases h

/-- A well-formed operand is read back from its encoding (30_encoding.md R111, R117). -/
theorem takeOperand_encodeOperand (h : o.wf = true) : takeOperand (encodeOperand o ++ rest) = .ok (o, rest) := by
  have hd {d : Byte} {bs : List Byte} (hb : encodeOperand o = d :: bs) : DescribedBy d (bs ++ rest) o rest :=
    ⟨h, by rw [hb]; rfl⟩
  cases o with
  | reg c =>
    exact (takeOperand_descByte (by decide) (by decide)).trans (takePayload_reg_eq_ok.2 ⟨⟨c, rfl⟩, hd rfl⟩)
  | freg j =>
    exact (takeOperand_descByte (by decide) (by decide)).trans (takePayload_freg_eq_ok.2 ⟨⟨j, rfl⟩, hd rfl⟩)
  | imm t v =>
    exact (takeOperand_typed (by decide) (by decide)).trans (takeImm_eq_ok.2 ⟨⟨v, rfl⟩, hd rfl⟩)
  | mabs t a =>
    exact (takeOperand_typed (by decide) (by decide)).trans (takeMabs_eq_ok.2 ⟨⟨a, rfl⟩, hd rfl⟩)
  | mabsOff t a size d =>
    have hs := ne_w4_of_offsetFits ((Bool.and_eq_true _ _).mp h).2
    have := size.bits_lt
    have e := (takeMabsOff_eq_ok hs).2 ⟨⟨(a, d), rfl⟩, hd rfl⟩
    rw [← takeTyped_offsetKind_mabsOff hs] at e
    exact (takeOperand_typed (by unfold offsetKind; omega) (by unfold offsetKind; omega)).trans e
  | mabsReg t a c =>
    exact (takeOperand_typed (by decide) (by decide)).trans (takeMabsReg_eq_ok.2 ⟨⟨(a, c), rfl⟩, hd rfl⟩)
  | mptr t p =>
    exact (takeOperand_typed (by decide) (by decide)).trans (takeMptr_eq_ok.2 ⟨⟨p, rfl⟩, hd rfl⟩)
  | mptrOff t p size d =>
    have hs := ne_w4_of_offsetFits ((Bool.and_eq_true _ _).mp h).2
    have := size.bits_lt
    have e := (takeMptrOff_eq_ok hs).2 ⟨⟨(p, d), rfl⟩, hd rfl⟩
    rw [← takeTyped_offsetKind_mptrOff hs] at e
    exact (takeOperand_typed (by unfold offsetKind; omega) (by unfold offsetKind; omega)).trans e
  | mptrReg t p c =>
    exact (takeOperand_typed (by decide) (by decide)).trans (takeMptrReg_eq_ok.2 ⟨⟨(p, c), rfl⟩, hd rfl⟩)

/-- The decoder's reading of a descriptor and the encoder are inverse (30_encoding.md R111, R117). -/
theorem takeOperand_reads : Reads takeOperand Operand.wf encodeOperand := by
  intro bs o rest
  constructor
  · intro h
    cases bs with
    | nil => cases h
    | cons d bs =>
      have hd := describedBy_of_takePayload (takeOperand_cons .. ▸ h)
      rwa [descByte_of_fields] at hd
  · rintro ⟨hwf, rfl⟩
    exact takeOperand_encodeOperand hwf

end descriptors

/-! ### Slots and formats -/

theorem takeSlot_reads (c : SlotClass) : Reads (takeSlot c) (fun o => o.fits c) encodeOperand :=
  takeOperand_reads.check fun bs => by
    unfold takeSlot
    cases takeOperand bs <;> rfl

/-- A width specifier is exactly the int8 immediate of its value (30_encoding.md R121). -/
theorem specOfOperand_eq_some {o : Operand} {w : Width} :
    specOfOperand o = some w ↔ o = .imm .int8 (BitVec.ofNat 32 w.bytes) := by
  constructor
  · intro h
    unfold specOfOperand at h
    split at h
    case h_1 v =>
      have hv : v.toNat = w.bytes := by
        unfold widthOfSpec at h
        split at h <;> cases h <;> assumption
      rw [← hv, BitVec.ofNat_toNat, BitVec.setWidth_eq]
    case h_2 => cases h
  · rintro rfl
    cases w <;> rfl

theorem encodeOperand_spec (w : Width) :
    encodeOperand (.imm .int8 (BitVec.ofNat 32 w.bytes)) = encodeSpec w := by cases w <;> rfl

theorem takeSpec_reads : Reads takeSpec (fun _ => true) encodeSpec := by
  have e (bs : List Byte) : takeSpec bs = (takeOperand bs).andThen fun o bs =>
      match specOfOperand o with
      | some w => .ok (w, bs)
      | none => .error .badWidthSpec := by
    unfold takeSpec
    cases takeOperand bs <;> rfl
  intro bs w rest
  rw [e, takeOperand_reads.andThen_eq_ok, ← encodeOperand_spec]
  constructor
  · rintro ⟨o, bs', -, rfl, h⟩
    split at h <;> cases h
    rename_i ho
    exact ⟨rfl, by rw [specOfOperand_eq_some.1 ho]⟩
  · rintro ⟨-, rfl⟩
    exact ⟨_, rest, by cases w <;> decide, rfl, by rw [specOfOperand_eq_some.2 rfl]⟩

section formats

variable {bs rest : List Byte} {i : Instr}

theorem takeF2_eq_ok {mk : Operand → Operand → Instr} {c₁ c₂ : SlotClass} :
    takeF2 mk c₁ c₂ bs = .ok (i, rest) ↔
      ∃ a b, (a.fits c₁ && b.fits c₂) = true ∧ i = mk a b ∧ bs = encodeOperand a ++ encodeOperand b ++ rest := by
  have e : takeF2 mk c₁ c₂ bs = (takeBoth (takeSlot c₁) (takeSlot c₂) bs).map fun p => mk p.1 p.2 := by
    unfold takeF2 takeBoth
    repeat' split <;> simp [*, Decoded.andThen, Decoded.map]
  rw [e, ((takeSlot_reads c₁).both (takeSlot_reads c₂)).map_eq_ok, Prod.exists]

theorem takeF3R_eq_ok {mk : Operand → Operand → Operand → Instr} :
    takeF3R mk bs = .ok (i, rest) ↔
      ∃ a b c, (a.fits .iloc && b.fits .isrc && c.fits .loc) = true ∧ i = mk a b c ∧
        bs = encodeOperand a ++ (encodeOperand b ++ encodeOperand c) ++ rest := by
  have e : takeF3R mk bs =
      (takeBoth (takeSlot .iloc) (takeBoth (takeSlot .isrc) (takeSlot .loc)) bs).map fun p => mk p.1 p.2.1 p.2.2 := by
    unfold takeF3R takeBoth
    repeat' split <;> simp [*, Decoded.andThen, Decoded.map]
  rw [e, ((takeSlot_reads _).both ((takeSlot_reads _).both (takeSlot_reads _))).map_eq_ok]
  simp only [Prod.exists, Bool.and_assoc]

theorem takeF3W_eq_ok {mk : Operand → Operand → Width → Instr} :
    takeF3W mk bs = .ok (i, rest) ↔
      ∃ a b w, (a.fits .bdest && b.fits .any) = true ∧ i = mk a b w ∧
        bs = encodeOperand a ++ (encodeOperand b ++ encodeSpec w) ++ rest := by
  have e : takeF3W mk bs =
      (takeBoth (takeSlot .bdest) (takeBoth (takeSlot .any) takeSpec) bs).map fun p => mk p.1 p.2.1 p.2.2 := by
    unfold takeF3W takeBoth
    repeat' split <;> simp [*, Decoded.andThen, Decoded.map]
  rw [e, ((takeSlot_reads _).both ((takeSlot_reads _).both takeSpec_reads)).map_eq_ok]
  simp only [Prod.exists, Bool.and_true]

theorem takeF4WN_eq_ok {mk : Operand → Operand → Width → Operand → Instr} :
    takeF4WN mk bs = .ok (i, rest) ↔
      ∃ a b w n, (a.fits .bdest && b.fits .any && n.fits .cnt) = true ∧ i = mk a b w n ∧
        bs = encodeOperand a ++ (encodeOperand b ++ (encodeSpec w ++ encodeOperand n)) ++ rest := by
  have e : takeF4WN mk bs =
      (takeBoth (takeSlot .bdest) (takeBoth (takeSlot .any) (takeBoth takeSpec (takeSlot .cnt))) bs).map
        fun p => mk p.1 p.2.1 p.2.2.1 p.2.2.2 := by
    unfold takeF4WN takeBoth
    repeat' split <;> simp [*, Decoded.andThen, Decoded.map]
  rw [e, ((takeSlot_reads _).both ((takeSlot_reads _).both (takeSpec_reads.both (takeSlot_reads _)))).map_eq_ok]
  simp only [Prod.exists, Bool.true_and, Bool.and_assoc]

end formats

/-! ### The opcode map -/

/-- An unassigned opcode byte is no instruction (30_encoding.md R131). -/
theorem takeOperands_unassigned {op : Nat} (h : op = 0 ∨ 0x17 ≤ op) (bs : List Byte) :
    takeOperands op bs = .error .badOpcode := by
  rcases h with rfl | h
  · rfl
  · obtain ⟨n, rfl⟩ := Nat.exists_eq_add_of_le' h
    rfl

/-- The opcode map reads exactly the well-formed instructions of the opcode (30_encoding.md R122). -/
theorem takeOperands_eq_ok {op : Nat} {bs rest : List Byte} {i : Instr} :
    takeOperands op bs = .ok (i, rest) ↔ i.wf = true ∧ i.opcode.toNat = op ∧ bs = i.operandBytes ++ rest := by
  constructor
  · intro h
    unfold takeOperands at h
    -- Case `h_n` is opcode n, and the last one every other byte; the cases not named are of format F2.
    split at h
    case h_12 | h_17 =>
      obtain ⟨a, b, w, hwf, rfl, rfl⟩ := takeF3W_eq_ok.1 h
      exact ⟨hwf, rfl, rfl⟩
    case h_13 | h_18 =>
      obtain ⟨a, b, w, n, hwf, rfl, rfl⟩ := takeF4WN_eq_ok.1 h
      exact ⟨hwf, rfl, rfl⟩
    case h_16 | h_20 =>
      obtain ⟨a, b, c, hwf, rfl, rfl⟩ := takeF3R_eq_ok.1 h
      exact ⟨hwf, rfl, rfl⟩
    case h_22 =>
      cases h
      exact ⟨rfl, rfl, rfl⟩
    case h_23 => cases h
    all_goals
      obtain ⟨a, b, hwf, rfl, rfl⟩ := takeF2_eq_ok.1 h
      exact ⟨hwf, rfl, rfl⟩
  · rintro ⟨hwf, rfl, rfl⟩
    cases i with
    | brk => rfl
    | slW a b w | divW a b w => exact takeF3W_eq_ok.2 ⟨a, b, w, hwf, rfl, rfl⟩
    | slWN a b w n | divWN a b w n => exact takeF4WN_eq_ok.2 ⟨a, b, w, n, hwf, rfl, rfl⟩
    | divR a b c | sdivR a b c => exact takeF3R_eq_ok.2 ⟨a, b, c, hwf, rfl, rfl⟩
    | ld a b | cp a b | scp a b | and a b | or a b | xor a b | nand a b | nor a b | xnor a b | bit a b | sl a b
    | sr a b | div a b | sdiv a b | rgb2hsb a b => exact takeF2_eq_ok.2 ⟨a, b, hwf, rfl, rfl⟩

/-- The decoder and the encoder are inverse on the well-formed instructions. -/
theorem decode_reads : Reads decode Instr.wf encode := by
  intro bs i rest
  cases bs with
  | nil => simp [decode, encode]
  | cons op bs =>
    have e : decode (op :: bs) = takeOperands op.toNat bs := rfl
    rw [e, takeOperands_eq_ok, encode, List.cons_append, List.cons.injEq, BitVec.toNat_inj, eq_comm (a := op)]

/-- Settles O2, by `decode_reads`. -/
theorem decodeInvertsEncode : Obligations.DecodeInvertsEncode := fun i rest h =>
  (decode_reads _ i rest).2 ⟨h, rfl⟩

/-- Settles O3, by `decode_reads`. -/
theorem encodeInvertsDecode : Obligations.EncodeInvertsDecode := fun bs rest i h => by
  obtain ⟨hwf, hbytes⟩ := (decode_reads bs i rest).1 h
  exact ⟨hwf, hbytes.symm⟩

/-- Settles O1: each byte sequence is decoded by evaluation. -/
theorem decodeReadsSpecWords : Obligations.DecodeReadsSpecWords :=
  ⟨rfl, rfl, rfl, rfl, rfl, rfl, rfl, rfl, rfl, rfl, rfl⟩

/-- An encoding fits the fetch window (30_encoding.md R125; `Laws.EncodedLength`). -/
theorem encode_length_le {i : Instr} (h : i.wf = true) : (encode i).length ≤ fetchLimit := by
  have hs : Laws.EncodedLength.Statement i := by
    cases i with
    | slW d k w | divW d k w => exact Laws.EncodedLength.slW d k w
    | slWN d k w n | divWN d k w n => exact Laws.EncodedLength.slWN d k w n
    | divR d x r | sdivR d x r => exact Laws.EncodedLength.divR d x r
    | brk => exact Laws.EncodedLength.brk
    | _ => exact Laws.EncodedLength.two_operands (fun h => h) rfl rfl
  obtain ⟨hlen, -, hle⟩ := hs h
  exact hlen.trans_le (hle.trans (by decide))

end Sys2Proof

namespace Sys2Proof.Machine

/-! ### Fetching -/

/-- The bytes stand in memory from `a` up, modulo 2^32 (30_encoding.md R124). -/
def BytesAt (s : State) (a : Word) (bs : List Byte) : Prop :=
  ∀ (k : Nat) (b : Byte), bs[k]? = some b →
    (a + BitVec.ofNat 32 k).toNat < s.memSize ∧ s.mem.read (a + BitVec.ofNat 32 k).toNat = b

/-- Bytes no longer than the window are at the head of what is fetched exactly where they stand in memory. -/
theorem fetchFrom_eq_append_iff {s : State} {a : Word} {n : Nat} {bs : List Byte} (hn : bs.length ≤ n) :
    (∃ rest, fetchFrom s a n = bs ++ rest) ↔ BytesAt s a bs := by
  constructor
  · rintro ⟨rest, e⟩ k b hb
    obtain ⟨hk, -⟩ := List.getElem?_eq_some_iff.1 hb
    obtain ⟨hin, hread⟩ := fetchFrom_getElem? s a n k (by rw [e, List.length_append]; omega)
    rw [e, List.getElem?_append_left hk, hb] at hread
    exact ⟨hin, (Option.some.inj hread).symm⟩
  · intro h
    have hlen : bs.length ≤ (fetchFrom s a n).length := by
      by_contra hlt
      have hlt : (fetchFrom s a n).length < bs.length := Nat.lt_of_not_le hlt
      have hend := fetchFrom_end s a n (by omega)
      have hin := (h _ _ (List.getElem?_eq_getElem hlt)).1
      omega
    suffices bs <+: fetchFrom s a n by
      obtain ⟨rest, e⟩ := this
      exact ⟨rest, e.symm⟩
    refine List.prefix_iff_getElem?.2 fun k hk => ?_
    obtain ⟨-, hread⟩ := h k _ (List.getElem?_eq_getElem hk)
    rw [(fetchFrom_getElem? s a n k (by omega)).2, hread]

/-- An instruction is fetched and decoded at pc exactly where it is well formed and its encoding stands there
(30_encoding.md R110, R124, R125). -/
theorem fetchDecode_eq_ok_iff {s : State} {i : Instr} {len : Nat} :
    fetchDecode s = .ok (i, len) ↔ i.wf = true ∧ len = (encode i).length ∧ BytesAt s s.pc (encode i) := by
  constructor
  · intro h
    rcases fetchDecode_cases s with ⟨i', rest, hd, e⟩ | ⟨-, e⟩ | ⟨x, -, -, e⟩ <;> rw [e] at h <;> cases h
    obtain ⟨hwf, hw⟩ := (decode_reads ..).1 hd
    refine ⟨hwf, by rw [hw, List.length_append]; omega, ?_⟩
    exact (fetchFrom_eq_append_iff (encode_length_le hwf)).1 ⟨rest, hw⟩
  · rintro ⟨hwf, rfl, hbytes⟩
    obtain ⟨rest, hw⟩ := (fetchFrom_eq_append_iff (encode_length_le hwf)).2 hbytes
    have hd := (decode_reads ..).2 ⟨hwf, hw⟩
    have hlen : (fetchFrom s s.pc fetchLimit).length - rest.length = (encode i).length := by
      rw [hw, List.length_append]; omega
    rcases fetchDecode_cases s with ⟨i', rest', hd', e⟩ | ⟨hd', -⟩ | ⟨x, -, hd', -⟩ <;> rw [hd] at hd' <;> cases hd'
    rw [e, hlen]

/-- Settles O8: the bytes that `fetchDecode_eq_ok_iff` asks for are the instruction's own. -/
theorem decodeDependsOnOwnBytes : Obligations.DecodeDependsOnOwnBytes := by
  intro s t i len h hpc hagree
  obtain ⟨hwf, rfl, hbytes⟩ := fetchDecode_eq_ok_iff.1 h
  refine fetchDecode_eq_ok_iff.2 ⟨hwf, rfl, fun k b hb => ?_⟩
  obtain ⟨hk, -⟩ := List.getElem?_eq_some_iff.1 hb
  obtain ⟨hin, hread⟩ := hagree k hk
  rw [hpc]
  exact ⟨hin, hread.trans (hbytes k b hb).2⟩

/-- A byte in memory is the first that is fetched there. -/
theorem fetchFrom_succ_of_lt {s : State} {a : Word} (h : a.toNat < s.memSize) (n : Nat) :
    fetchFrom s a (n + 1) = s.mem.read a.toNat :: fetchFrom s (a + 1) n := by
  rcases fetchByte_cases s a with ⟨-, e⟩ | ⟨hge, -⟩
  · rw [fetchFrom, e]
  · omega

/-- Settles O5: the opcode byte alone shows that the encoding is illegal. -/
theorem unassignedOpcodeFaults : Obligations.UnassignedOpcodeFaults := by
  intro s hrun hin hop
  have hw : fetchFrom s s.pc fetchLimit = _ := fetchFrom_succ_of_lt hin 23
  have hd : decode (fetchFrom s s.pc fetchLimit) = .error .badOpcode := by
    rw [hw]
    refine takeOperands_unassigned ?_ _
    exact hop.imp_left fun h => by rw [h]; rfl
  refine step_of_fetchDecode_error hrun ?_
  rcases fetchDecode_cases s with ⟨i, rest, hd', -⟩ | ⟨hd', -⟩ | ⟨e, -, hd', hf⟩ <;> rw [hd] at hd' <;> cases hd'
  rw [hf, hw]
  rfl

end Sys2Proof.Machine
end

section
/-! PROOFS. The engine (40_engine.md): the format of each instruction, what a step does to pc and status, that every
run ends, and what a fault leaves. -/

namespace Sys2Proof.Machine

/-! ### Locations -/

/-- Settles O46: by evaluation, of each type code and each width. -/
theorem locationOfEachDescriptor : Obligations.LocationOfEachDescriptor := by
  refine ⟨fun s i v w => ⟨rfl, rfl, rfl, rfl⟩, fun s j => ⟨rfl, rfl, rfl⟩, fun s t raw => rfl, ?_, fun ea w => ?_⟩
  · intro ts hts ea raw
    fin_cases hts <;> exact ⟨⟨rfl, rfl⟩, rfl, rfl⟩
  · exact ⟨by rw [Loc.bits, Loc.size, Width.intType_size], Width.intType_isFloat w⟩

/-! ### The format of each instruction -/

/-- A body completes with the status as it was, or takes DIV_BY_ZERO (60_exceptions.md R335). -/
def SteadyBody (body : Body) : Prop :=
  ∀ s d x, (∃ t, body s d x = .ok t ∧ t.status = s.status) ∨ body s d x = .error (.divByZero s.pc)

theorem SteadyBody.of_ok {body : Body} {g : State → Loc → Loc → State} (hbody : body = fun s d x => .ok (g s d x))
    (h : ∀ s d x, (g s d x).status = s.status) : SteadyBody body := by
  subst hbody
  exact fun s d x => .inl ⟨g s d x, rfl, h s d x⟩

theorem steadyBody_compareBody (signed : Bool) : SteadyBody (compareBody signed) :=
  .of_ok rfl fun s a b => by
    obtain ⟨u, f, hu, -, -, e⟩ := compareLocs_cases signed s a b
    rw [e, State.setFlags_status]
    rcases hu with rfl | rfl <;> rfl

theorem steadyBody_bitwiseBody (op2 : Nat → Nat → Nat → Nat) : SteadyBody (bitwiseBody op2) :=
  .of_ok rfl fun _ _ _ => writeBits_status _ _ _

theorem steadyBody_shiftBody : SteadyBody shiftBody := .of_ok rfl fun s d c => (shiftL_steady s d c).status

theorem divBody_ok_status {signed : Bool} {s t : State} {d x : Loc} {m : Option Int}
    (h : divBody signed s d x = .ok (t, m)) : t.status = s.status := by
  obtain ⟨u, q, hu, rfl⟩ := divBody_ok h
  rw [(writeQuotient_steady u d q).status]
  rcases hu with rfl | rfl <;> rfl

theorem steadyBody_divStep (signed : Bool) : SteadyBody (divStep signed) := by
  intro s d x
  cases h : divStep signed s d x with
  | error f => exact .inr (congrArg _ (divStep_error h))
  | ok t =>
    obtain ⟨m, hm⟩ := divStep_ok h
    exact .inl ⟨t, rfl, divBody_ok_status hm⟩

theorem steadyBody_ldBody : SteadyBody ldBody := .of_ok rfl fun s d _ => (writeNum_steady s d _).status

theorem steadyBody_bitBody : SteadyBody bitBody := .of_ok rfl fun _ _ _ => rfl

theorem steadyBody_shiftRBody : SteadyBody shiftRBody := .of_ok rfl fun s d c => (shiftR_steady s d c).status

theorem steadyBody_rgb2hsbBody : SteadyBody rgb2hsbBody := .of_ok rfl fun _ _ _ => writeBits_status _ _ _

/-- The shapes of an instruction's outcome in a state: the formats F2, F3W, F4WN and F3R of 30_encoding.md R122, and
BREAK. -/
inductive HasFormat (i : Instr) (s : State) : Host.Outcome State Fault Refusal → Prop where
  | operands {body : Body} (hb : SteadyBody body) (d x : Operand) : HasFormat i s (onOperands body d x s)
  | block {body : Body} (hb : SteadyBody body) (d x : Operand) (w : Width) : HasFormat i s (block body d x w s)
  | blockRepeat {body : Body} {n : Operand} (hb : SteadyBody body) (hn : repeatOperand i = some n) (d x : Operand)
      (w : Width) : HasFormat i s (blockRepeat body d x w n s)
  | remainder (signed : Bool) (d x r : Operand) : HasFormat i s (divideRem signed d x r s)
  | brk (hi : i = .brk) : HasFormat i s (.next s.halt)

theorem exec_format (i : Instr) (s : State) : HasFormat i s (exec i s) := by
  cases i with
  | ld d x => exact .operands steadyBody_ldBody d x
  | cp d x => exact .operands (steadyBody_compareBody false) d x
  | scp d x => exact .operands (steadyBody_compareBody true) d x
  | and d x => exact .operands (steadyBody_bitwiseBody fun _ a b => a &&& b) d x
  | or d x => exact .operands (steadyBody_bitwiseBody fun _ a b => a ||| b) d x
  | xor d x => exact .operands (steadyBody_bitwiseBody fun _ a b => a ^^^ b) d x
  | nand d x => exact .operands (steadyBody_bitwiseBody fun n a b => (2 ^ n - 1) ^^^ (a &&& b)) d x
  | nor d x => exact .operands (steadyBody_bitwiseBody fun n a b => (2 ^ n - 1) ^^^ (a ||| b)) d x
  | xnor d x => exact .operands (steadyBody_bitwiseBody fun n a b => (2 ^ n - 1) ^^^ (a ^^^ b)) d x
  | bit d x => exact .operands steadyBody_bitBody d x
  | sl d x => exact .operands steadyBody_shiftBody d x
  | sr d x => exact .operands steadyBody_shiftRBody d x
  | div d x => exact .operands (steadyBody_divStep false) d x
  | sdiv d x => exact .operands (steadyBody_divStep true) d x
  | rgb2hsb d x => exact .operands steadyBody_rgb2hsbBody d x
  | slW d x w => exact .block steadyBody_shiftBody d x w
  | divW d x w => exact .block (steadyBody_divStep false) d x w
  | slWN d x w n => exact .blockRepeat steadyBody_shiftBody rfl d x w
  | divWN d x w n => exact .blockRepeat (steadyBody_divStep false) rfl d x w
  | divR d x r => exact .remainder false d x r
  | sdivR d x r => exact .remainder true d x r
  | brk => exact .brk rfl

/-! ### Every instruction answers a next state -/

/-- What an instruction answers is a next state: it neither stops the machine nor is refused. -/
def Answers (o : Host.Outcome State Fault Refusal) : Prop := ∃ t, o = .next t

theorem settle_answers (s : State) (r : Except FaultRecord State) : Answers (settle s r) := by
  cases r with
  | ok t => exact ⟨t, rfl⟩
  | error f => exact ⟨s.raiseFault f, rfl⟩

theorem onOperands_answers (body : Body) (d x : Operand) (s : State) : Answers (onOperands body d x s) := by
  unfold onOperands
  split
  · exact ⟨_, rfl⟩
  · exact settle_answers _ _

theorem block_answers (body : Body) (d x : Operand) (w : Width) (s : State) : Answers (block body d x w s) := by
  unfold block
  split
  · exact ⟨_, rfl⟩
  · split
    · exact ⟨_, rfl⟩
    · exact settle_answers _ _

theorem blockRepeat_answers (body : Body) (d x : Operand) (w : Width) (n : Operand) (s : State) :
    Answers (blockRepeat body d x w n s) := by
  unfold blockRepeat
  split
  · exact ⟨_, rfl⟩
  · split <;> exact ⟨_, rfl⟩

theorem divideRem_answers (signed : Bool) (d x r : Operand) (s : State) : Answers (divideRem signed d x r s) := by
  unfold divideRem
  split
  · exact ⟨_, rfl⟩
  · split <;> exact ⟨_, rfl⟩

theorem HasFormat.answers {i : Instr} {s : State} {o : Host.Outcome State Fault Refusal} (h : HasFormat i s o) :
    Answers o := by
  cases h with
  | operands _ d x => exact onOperands_answers _ d x s
  | block _ d x w => exact block_answers _ d x w s
  | blockRepeat _ _ d x w => exact blockRepeat_answers _ d x w _ s
  | remainder _ d x r => exact divideRem_answers _ d x r s
  | brk => exact ⟨s.halt, rfl⟩

theorem exec_answers (i : Instr) (s : State) : Answers (exec i s) := (exec_format i s).answers

/-! ### The step -/

/-- Settles O7: the bytes are those that `fetchDecode_eq_ok_iff` asks for. -/
theorem stepRunsDecodedInstruction : Obligations.StepRunsDecodedInstruction := by
  intro s i hrun hwf hbytes
  obtain ⟨t, ht⟩ := exec_answers i s
  refine ⟨t, ht, ?_⟩
  rw [step_of_fetchDecode_ok hrun (fetchDecode_eq_ok_iff.2 ⟨hwf, rfl, hbytes⟩), ht, advancePhase_next]
  split <;> rfl

/-- Settles O10: the status decides it. -/
theorem endedRunTakesNoStep : Obligations.EndedRunTakesNoStep :=
  ⟨fun _ h => by simp only [step, stepWith, h], fun _ _ h => by simp only [step, stepWith, h]⟩

/-- Settles O11: fetching and decoding fault or give an instruction, and every instruction answers. -/
theorem runningStateSteps : Obligations.RunningStateSteps := by
  intro s hrun
  cases hd : fetchDecode s with
  | error f => exact ⟨s.raiseFault f, step_of_fetchDecode_error hrun hd⟩
  | ok p =>
    obtain ⟨t, ht⟩ := exec_answers p.1 s
    rw [step_of_fetchDecode_ok hrun hd, ht, advancePhase_next]
    split <;> exact ⟨_, rfl⟩

/-- Settles O45: the byte 0x16 is the whole encoding of BREAK. -/
theorem breakHalts : Obligations.BreakHalts := by
  refine ⟨fun _ => rfl, fun s hrun hin hbyte => ?_⟩
  have hbytes : BytesAt s s.pc (encode .brk) := by
    intro k b hb
    obtain ⟨hk, rfl⟩ := List.getElem?_eq_some_iff.1 hb
    obtain rfl : k = 0 := Nat.lt_one_iff.1 hk
    rw [BitVec.add_zero]
    exact ⟨hin, hbyte⟩
  rw [step_of_fetchDecode_ok hrun (fetchDecode_eq_ok_iff.2 ⟨rfl, rfl, hbytes⟩)]
  rfl

/-- No instruction moves pc (log 14): the step does. -/
theorem keepsInstr_pc (i : Instr) (s : State) : KeepsInstr i s (fun u => u.pc = s.pc) where
  fault _ hu := hu
  draw hu := hu
  write _ hu := (writeBits_pc _ _ _).trans hu
  halt _ _ hu := hu
  zero _ _ _ _ hu := hu
  compare _ _ _ _ _ hu := hu

/-- No instruction but BREAK halts (40_engine.md R180). -/
theorem keepsInstr_not_halted {i : Instr} (hi : i ≠ .brk) (s : State) :
    KeepsInstr i s (fun u => u.status ≠ .halted) where
  fault _ _ := nofun
  draw hu := hu
  write _ hu := by rwa [writeBits_status]
  halt h := absurd h hi
  zero _ _ _ _ hu := hu
  compare _ _ _ _ _ hu := hu

/-- How an instruction other than BREAK leaves a Running engine: Running or Faulted. -/
theorem exec_status_of_ne_brk {i : Instr} (hi : i ≠ .brk) {s t : State} (hrun : s.status = .running)
    (h : exec i s = .next t) : t.status = .running ∨ ∃ f, t.status = .faulted f := by
  have ht : t.status ≠ .halted := exec_keeps (keepsInstr_not_halted hi s) (by rw [hrun]; nofun) h
  cases hs : t.status with
  | running => exact .inl rfl
  | halted => exact absurd hs ht
  | faulted f => exact .inr ⟨f, rfl⟩

/-- Settles O9: no instruction moves pc, and the advance phase moves it where the engine is still Running. -/
theorem pcMovesOnlyByLength : Obligations.PcMovesOnlyByLength := by
  intro s t h
  obtain ⟨hrun, ⟨f, -, rfl⟩ | ⟨i, len, u, hd, hu, hadvance⟩⟩ := step_cases h
  · exact .inr ⟨rfl, .inr ⟨f, rfl⟩⟩
  have hpc : u.pc = s.pc := exec_keeps (keepsInstr_pc i s) rfl hu
  by_cases hi : i = .brk
  · subst hi
    cases hu
    rcases hadvance with ⟨hstill, -⟩ | ⟨-, rfl⟩
    · cases hstill
    · exact .inr ⟨rfl, .inl ⟨rfl, len, hd⟩⟩
  · rcases hadvance with ⟨hstill, rfl⟩ | ⟨hended, rfl⟩
    · exact .inl ⟨hstill, i, len, hd, hi, congrArg (· + _) hpc⟩
    · exact .inr ⟨hpc, .inr ((exec_status_of_ne_brk hi hrun hu).resolve_left hended)⟩

/-! ### Every run ends -/

/-- The address past an instruction that lies in a memory below 2^32 does not wrap. -/
theorem BytesAt.toNat_add_of_le_length {s : State} {a : Word} {bs : List Byte} (hsize : s.memSize < 2 ^ 32)
    (h : BytesAt s a bs) : ∀ k ≤ bs.length, (a + BitVec.ofNat 32 k).toNat = a.toNat + k := by
  intro k
  induction k with
  | zero => simp
  | succ k ih =>
    intro hk
    have hprev : (a + BitVec.ofNat 32 k).toNat = a.toNat + k := ih (by omega)
    have hin := (h k _ (List.getElem?_eq_getElem hk)).1
    rw [hprev] at hin
    rw [BitVec.toNat_add, BitVec.toNat_ofNat, Nat.add_mod_mod, Nat.mod_eq_of_lt (by omega)]

/-- A step that leaves the engine Running began in memory, and moves pc forward. -/
theorem pc_lt_of_step {s t : State} (hsize : s.memSize < 2 ^ 32) (h : step s = .next t) (hrun : t.status = .running) :
    s.pc.toNat < s.memSize ∧ s.pc.toNat < t.pc.toNat := by
  rcases pcMovesOnlyByLength s t h with ⟨-, i, len, hd, -, hpc⟩ | ⟨-, ⟨hs, -⟩ | ⟨f, hs⟩⟩
  · obtain ⟨-, rfl, hbytes⟩ := fetchDecode_eq_ok_iff.1 hd
    have hin := (hbytes 0 i.opcode rfl).1
    rw [hpc, hbytes.toNat_add_of_le_length hsize _ le_rfl]
    exact ⟨by simpa using hin, by simp [encode]⟩
  · rw [hrun] at hs; cases hs
  · rw [hrun] at hs; cases hs

/-- Each step that goes on takes pc one byte nearer to the end of memory, and past it the next step ends the run. -/
theorem stepsWith_ended {n : Nat} {s : State} (hsize : s.memSize < 2 ^ 32) (hpos : 1 ≤ n)
    (hn : s.memSize < s.pc.toNat + n) : (stepsWith referenceEncoding n s).status ≠ .running := by
  induction n generalizing s with
  | zero => omega
  | succ n ih =>
    by_cases hrun : s.status = .running
    · obtain ⟨t, ht⟩ := runningStateSteps s hrun
      rw [stepsWith_succ hrun ht]
      by_cases hrun' : t.status = .running
      · obtain ⟨hin, hpc⟩ := pc_lt_of_step hsize ht hrun'
        have hmem : t.memSize = s.memSize := (stepKeepsMemorySize s t ht).1
        exact ih (hmem ▸ hsize) (by omega) (by omega)
      · rwa [stepsWith_of_ended hrun']
    · rwa [stepsWith_of_ended hrun]

/-- Settles O49, by `stepsWith_ended` from the load base. -/
theorem everyRunEnds : Obligations.EveryRunEnds := by
  intro s base hsize
  have hended : (stepsWith referenceEncoding (s.memSize + 1) (startRun s base)).status ≠ .running :=
    stepsWith_ended hsize (by omega) (by rw [startRun_memSize]; omega)
  refine ⟨_, runWith_eq_some.2 ⟨rfl, hended⟩, ?_⟩
  cases hs : (stepsWith referenceEncoding (s.memSize + 1) (startRun s base)).status with
  | running => exact absurd hs hended
  | halted => exact .inl rfl
  | faulted f => exact .inr ⟨f, rfl⟩

/-! ### A fault changes the status alone -/

/-- An access outside memory, at pc (60_exceptions.md R334). -/
def OutOfRange (s : State) (f : FaultRecord) : Prop := ∃ addr n, f = .memOutOfRange s.pc addr n

theorem resolve_error_outOfRange {s : State} {o : Operand} {f : FaultRecord} (h : resolve s o = .error f) :
    OutOfRange s f := by
  obtain ⟨ea, t, -, -, e⟩ := resolve_error h
  exact ⟨ea, t.size, e⟩

theorem resolveBlock_error_outOfRange {s : State} {w : Width} {o : Operand} {f : FaultRecord}
    (h : resolveBlock s w o = .error f) : OutOfRange s f := by
  rcases resolveBlock_cases s w o with ⟨c, -, e⟩ | ⟨ea, t, -, -, ⟨-, e⟩ | ⟨-, e⟩⟩ | ⟨-, ⟨j, e⟩ | ⟨t, raw, e⟩⟩ <;>
    rw [e] at h <;> cases h
  exact ⟨ea, w.bytes, rfl⟩

theorem resolve2_error_outOfRange {s : State} {a b : Operand} {f : FaultRecord} (h : resolve2 s a b = .error f) :
    OutOfRange s f := by
  rcases resolve2_cases s a b with ⟨g, hg, e⟩ | ⟨la, g, -, hg, e⟩ | ⟨la, lb, -, -, e⟩ <;> rw [e] at h <;> cases h
  · exact resolve_error_outOfRange hg
  · exact resolve_error_outOfRange hg

theorem resolve3_error_outOfRange {s : State} {a b c : Operand} {f : FaultRecord}
    (h : resolve3 s a b c = .error f) : OutOfRange s f := by
  unfold resolve3 at h
  split at h
  · cases h
    exact resolve2_error_outOfRange ‹_›
  · split at h <;> cases h
    exact resolve_error_outOfRange ‹_›

/-- An instruction's outcome is all or nothing: it completes with the status as it was, or a fault of an access or of a
zero divisor is taken in its first state (60_exceptions.md R342). -/
def AllOrNothing (s : State) (o : Host.Outcome State Fault Refusal) : Prop :=
  (∃ t, o = .next t ∧ t.status = s.status) ∨
    ∃ f, o = .next (s.raiseFault f) ∧ (OutOfRange s f ∨ f = .divByZero s.pc)

section allOrNothing

variable {s : State} {body : Body}

theorem SteadyBody.settle (hb : SteadyBody body) (d x : Loc) : AllOrNothing s (settle s (body s d x)) := by
  rcases hb s d x with ⟨t, e, ht⟩ | e <;> rw [e]
  · exact .inl ⟨t, rfl, ht⟩
  · exact .inr ⟨_, rfl, .inr rfl⟩

theorem SteadyBody.onOperands (hb : SteadyBody body) (d x : Operand) : AllOrNothing s (onOperands body d x s) := by
  unfold Machine.onOperands
  split
  · exact .inr ⟨_, rfl, .inl (resolve2_error_outOfRange ‹_›)⟩
  · exact hb.settle _ _

theorem SteadyBody.block (hb : SteadyBody body) (d x : Operand) (w : Width) : AllOrNothing s (block body d x w s) := by
  unfold Machine.block
  split
  · exact .inr ⟨_, rfl, .inl (resolveBlock_error_outOfRange ‹_›)⟩
  · split
    · exact .inr ⟨_, rfl, .inl (resolve_error_outOfRange ‹_›)⟩
    · exact hb.settle _ _

theorem divideRem_allOrNothing (signed : Bool) (d x r : Operand) : AllOrNothing s (divideRem signed d x r s) := by
  unfold divideRem
  split
  · exact .inr ⟨_, rfl, .inl (resolve3_error_outOfRange ‹_›)⟩
  · split
    · exact .inr ⟨_, rfl, .inr (divBody_error ‹_›)⟩
    · exact .inl ⟨_, rfl, (writeNum_steady _ _ _).status.trans (divBody_ok_status ‹_›)⟩
    · exact .inl ⟨_, rfl, divBody_ok_status ‹_›⟩

/-- One iteration, of a source that resolves, is the single form's body. -/
theorem blockLoop_one {dst lx : Loc} {x : Operand} (hx : resolve s x = .ok lx) :
    .next (blockLoop body dst x 1 s) = settle s (body s dst lx) := by
  simp only [blockLoop, hx]
  cases body s dst lx <;> rfl

theorem SteadyBody.blockRepeat (hb : SteadyBody body) (d x : Operand) (w : Width) (n : Operand)
    (hn : ∀ c, resolve s n = .ok c → readBits s c ≤ 1) : AllOrNothing s (blockRepeat body d x w n s) := by
  unfold Machine.blockRepeat
  split
  · exact .inr ⟨_, rfl, .inl (resolveBlock_error_outOfRange ‹_›)⟩
  rename_i dst _
  rcases resolve2_cases s x n with ⟨f, hf, e⟩ | ⟨lx, f, -, hf, e⟩ | ⟨lx, c, hx, hc, e⟩ <;> rw [e]
  · exact .inr ⟨f, rfl, .inl (resolve_error_outOfRange hf)⟩
  · exact .inr ⟨f, rfl, .inl (resolve_error_outOfRange hf)⟩
  · rcases Nat.le_one_iff_eq_zero_or_eq_one.1 (hn c hc) with h0 | h1
    · exact .inl ⟨s, by simp only [h0, blockLoop], rfl⟩
    · simp only [h1, blockLoop_one hx]
      exact hb.settle dst lx

end allOrNothing

/-- Every instruction but BREAK and a repeat form with a count above 1 is all or nothing (60_exceptions.md R342). -/
theorem HasFormat.allOrNothing {i : Instr} {s : State} {o : Host.Outcome State Fault Refusal} (h : HasFormat i s o)
    (hi : i ≠ .brk) (hcount : ∀ n c, repeatOperand i = some n → resolve s n = .ok c → readBits s c ≤ 1) :
    AllOrNothing s o := by
  cases h with
  | operands hb d x => exact hb.onOperands d x
  | block hb d x w => exact hb.block d x w
  | blockRepeat hb hn d x w => exact hb.blockRepeat d x w _ fun c => hcount _ c hn
  | remainder signed d x r => exact divideRem_allOrNothing signed d x r
  | brk h => exact absurd h hi

/-- Settles O17, by `HasFormat.allOrNothing`: BREAK does not fault. -/
theorem faultingInstructionChangesOnlyStatus : Obligations.FaultingInstructionChangesOnlyStatus := by
  intro i s t f hrun hcount h ht
  have hi : i ≠ .brk := by
    rintro rfl
    cases h
    cases ht
  rcases (exec_format i s).allOrNothing hi hcount with ⟨u, hu, hstatus⟩ | ⟨g, hg, hfault⟩
  · obtain rfl : u = t := by simpa [hu] using h
    rw [hstatus, hrun] at ht
    cases ht
  · obtain rfl : s.raiseFault g = t := by simpa [hg] using h
    cases ht
    exact ⟨rfl, hfault⟩

end Sys2Proof.Machine
end

section
/-! PROOFS. The repeat forms (40_engine.md R169): what a body of a block form does to a state, and from it that a repeat
form is its sequence of single forms and writes its destination alone. -/

namespace Sys2Proof.Machine

/-! ### What a body of a block form does -/

/-- Where the body completes it has taken draws, written its destination, and perhaps written flags: nothing else. -/
def WritesDestination (body : Body) : Prop :=
  ∀ {u t : State} {d x : Loc}, body u d x = .ok t → ∃ n v fl, t = (writeBits { u with draws := n } d v).setFlags fl

theorem with_draws_of_self_or_draw {u v : State} (h : v = u ∨ v = u.draw.2) : ∃ n, v = { u with draws := n } := by
  rcases h with rfl | rfl
  · exact ⟨v.draws, rfl⟩
  · exact ⟨u.draws + 1, rfl⟩

theorem shiftBody_writesDestination : WritesDestination shiftBody := by
  intro u t d c h
  cases h
  obtain ⟨n, hn⟩ := with_draws_of_self_or_draw (readCount_state u c)
  exact ⟨n, _, (shiftL u d c).flags, by rw [← hn]; rfl⟩

theorem divStep_writesDestination (signed : Bool) : WritesDestination (divStep signed) := by
  intro u t d x h
  obtain ⟨m, hm⟩ := divStep_ok h
  obtain ⟨v, q, hv, rfl⟩ := divBody_ok hm
  obtain ⟨k, rfl⟩ := with_draws_of_self_or_draw hv
  obtain ⟨n, hn⟩ := with_draws_of_self_or_draw (numBits_state { u with draws := k } d q)
  exact ⟨n, _, (writeQuotient { u with draws := k } d q).flags, by rw [writeQuotient, writeNum, hn]; rfl⟩

section writesDestination

variable {body : Body} {u t : State} {d : Operand} {w : Width} {dst lx : Loc}

theorem WritesDestination.status (hb : WritesDestination body) (h : body u dst lx = .ok t) : t.status = u.status := by
  obtain ⟨n, v, fl, rfl⟩ := hb h
  exact writeBits_status _ _ _

theorem WritesDestination.mem_wf (hb : WritesDestination body) (hwf : u.mem.wf = true) (h : body u dst lx = .ok t) :
    t.mem.wf = true := by
  obtain ⟨n, v, fl, rfl⟩ := hb h
  exact writeBits_mem_wf (s := { u with draws := n }) hwf dst v

theorem WritesDestination.frame (hb : WritesDestination body) (hwf : u.mem.wf = true) (h : body u dst lx = .ok t) :
    dst.Frame u t := by
  obtain ⟨n, v, fl, rfl⟩ := hb h
  have hwrite : dst.Frame { u with draws := n } (writeBits { u with draws := n } dst v) :=
    writeBits_frame (s := { u with draws := n }) hwf dst v
  exact ⟨hwrite.regs, hwrite.fregs, hwrite.bytes, hwrite.pc, hwrite.status, hwrite.memSize⟩

/-- The destination of class BDEST is the same after it is written: a register's is fixed, and memory's depends on
registers, which writing memory does not change. -/
theorem WritesDestination.resolveBlock (hb : WritesDestination body) (hd : SlotClass.bdest.accepts d = true)
    (hdst : resolveBlock u w d = .ok dst) (h : body u dst lx = .ok t) : resolveBlock t w d = .ok dst := by
  obtain ⟨n, v, fl, rfl⟩ := hb h
  rcases resolveBlock_cases u w d with ⟨c, rfl, e⟩ | ⟨ea, ty, -, -, ⟨-, e⟩ | ⟨-, e⟩⟩ | ⟨hn, -⟩
  · rw [e] at hdst; cases hdst; rfl
  · rw [e] at hdst; cases hdst
    exact Eq.trans (resolveBlock_congr (s := u) (by rfl) (by rfl) (by rfl) w d) e
  · rw [e] at hdst; cases hdst
  · rw [hn] at hd; cases hd

end writesDestination

/-! ### The repeat form and its sequence -/

section sequence

variable {body : Body} {s : State} {d x n : Operand} {w : Width} {dst lx c : Loc}

theorem block_of_dst_error {f : FaultRecord} (hd : resolveBlock s w d = .error f) :
    block body d x w s = .next (s.raiseFault f) := by
  simp only [block, hd]

theorem block_of_src_error {f : FaultRecord} (hd : resolveBlock s w d = .ok dst) (hx : resolve s x = .error f) :
    block body d x w s = .next (s.raiseFault f) := by
  simp only [block, hd, hx]

theorem block_of_resolve (hd : resolveBlock s w d = .ok dst) (hx : resolve s x = .ok lx) :
    block body d x w s = settle s (body s dst lx) := by
  simp only [block, hd, hx]

theorem runRepeated_succ {f : State → Host.Outcome State Fault Refusal} {s t : State} (h : f s = .next t) (n : Nat) :
    runRepeated f (n + 1) s = if t.status = .running then runRepeated f n t else .next t := by
  simp only [runRepeated, h]

/-- A fault ends the sequence. -/
theorem runRepeated_of_raiseFault {f : State → Host.Outcome State Fault Refusal} {s : State} {r : FaultRecord}
    (h : f s = .next (s.raiseFault r)) (n : Nat) : runRepeated f (n + 1) s = .next (s.raiseFault r) := by
  rw [runRepeated_succ h, if_neg (by simp)]

/-- Each iteration of the loop is the single form in the state the iterations before left (40_engine.md R169). -/
theorem blockLoop_eq_runRepeated (hb : WritesDestination body) (hacc : SlotClass.bdest.accepts d = true) (k : Nat)
    (hrun : s.status = .running) (hd : resolveBlock s w d = .ok dst) :
    .next (blockLoop body dst x k s) = runRepeated (block body d x w) k s := by
  induction k generalizing s with
  | zero => rfl
  | succ k ih =>
    cases hx : resolve s x with
    | error f => simp only [blockLoop, hx, runRepeated_of_raiseFault (block_of_src_error hd hx)]
    | ok lx =>
      have hblock : block body d x w s = settle s (body s dst lx) := block_of_resolve hd hx
      cases ht : body s dst lx with
      | error f =>
        rw [ht] at hblock
        simp only [blockLoop, hx, ht, runRepeated_of_raiseFault hblock]
      | ok t =>
        rw [ht] at hblock
        have hrun' : t.status = .running := (hb.status ht).trans hrun
        rw [runRepeated_succ hblock, if_pos hrun', ← ih hrun' (hb.resolveBlock hacc hd ht)]
        simp only [blockLoop, hx, ht]

theorem blockRepeat_of_resolve (hd : resolveBlock s w d = .ok dst) (hx : resolve s x = .ok lx)
    (hc : resolve s n = .ok c) : blockRepeat body d x w n s = .next (blockLoop body dst x (readBits s c) s) := by
  simp only [blockRepeat, hd, resolve2_ok hx hc]

/-- A repeat form with a count from 1 up is its sequence of single forms, also where an operand does not resolve: then
both take the same fault before any iteration. -/
theorem blockRepeat_eq_runRepeated (hb : WritesDestination body) (hacc : SlotClass.bdest.accepts d = true)
    (hrun : s.status = .running) (hc : resolve s n = .ok c) (hpos : 1 ≤ readBits s c) :
    blockRepeat body d x w n s = runRepeated (block body d x w) (readBits s c) s := by
  obtain ⟨k, hk⟩ := Nat.exists_eq_add_of_le' hpos
  cases hd : resolveBlock s w d with
  | error f =>
    rw [hk, runRepeated_of_raiseFault (block_of_dst_error hd)]
    simp only [blockRepeat, hd]
  | ok dst =>
    cases hx : resolve s x with
    | error f =>
      rw [hk, runRepeated_of_raiseFault (block_of_src_error hd hx)]
      simp only [blockRepeat, hd, resolve2, hx]
    | ok lx => rw [blockRepeat_of_resolve hd hx hc, blockLoop_eq_runRepeated hb hacc _ hrun hd]

end sequence

/-- Settles O42: with a count from 1 up by `blockRepeat_eq_runRepeated`, and with 0 the loop is empty. -/
theorem repeatEqualsSequence : Obligations.RepeatEqualsSequence := by
  intro s d x n w c hrun _ hdst _ hc
  have hacc := Operand.accepts_of_fits hdst
  refine ⟨fun hpos => ⟨blockRepeat_eq_runRepeated (divStep_writesDestination false) hacc hrun hc hpos,
    blockRepeat_eq_runRepeated shiftBody_writesDestination hacc hrun hc hpos⟩, fun hzero dst lx hd hx => ?_⟩
  have hnone (body : Body) : blockRepeat body d x w n s = .next s := by
    rw [blockRepeat_of_resolve hd hx hc, hzero, blockLoop]
  exact ⟨hnone (divStep false), hnone shiftBody⟩

/-! ### What a repeat form leaves unchanged -/

/-- Memory is canonical, and but for the status nothing outside the Location has changed since `s`. -/
def ChangedOnlyAt (l : Loc) (s u : State) : Prop := u.mem.wf = true ∧ l.Frame s { u with status := s.status }

/-- What the iterations write is the destination, and a fault among them sets the status alone. -/
theorem blockLoop_changedOnlyAt {body : Body} (hb : WritesDestination body) {s : State} (hwf : s.mem.wf = true)
    (dst : Loc) (x : Operand) (k : Nat) : ChangedOnlyAt dst s (blockLoop body dst x k s) := by
  refine blockLoop_keeps (ChangedOnlyAt dst s) (fun u f hu _ => hu) (fun u lx t ⟨huwf, hu⟩ _ ht => ?_) k s
    ⟨hwf, .refl rfl rfl rfl rfl rfl rfl⟩
  have hstep : dst.Frame u t := hb.frame huwf ht
  exact ⟨hb.mem_wf huwf ht, hu.trans ⟨hstep.regs, hstep.fregs, hstep.bytes, hstep.pc, rfl, hstep.memSize⟩⟩

theorem Loc.not_ownsFreg_of_int {l : Loc} (h : l.isFloat = false) (j : Fin 16) : ¬l.ownsFreg j := by
  cases l with
  | freg k => cases h
  | _ => exact id

/-- Settles O43: the frame by `blockLoop_changedOnlyAt`, the flags by what the instruction may write. -/
theorem repeatWritesOnlyDestination : Obligations.RepeatWritesOnlyDestination := by
  intro s d x n w dst lx c hready _ hc mk hmk
  have hexec : isCompare (mk d x w n) = false ∧
      ∃ body, WritesDestination body ∧ exec (mk d x w n) s = blockRepeat body d x w n s := by
    simp only [List.mem_cons, List.not_mem_nil, or_false] at hmk
    rcases hmk with rfl | rfl
    · exact ⟨rfl, shiftBody, shiftBody_writesDestination, rfl⟩
    · exact ⟨rfl, divStep false, divStep_writesDestination false, rfl⟩
  obtain ⟨hcompare, body, hb, hexec⟩ := hexec
  have hnext := hexec.trans (blockRepeat_of_resolve hready.dst hready.src hc)
  obtain ⟨-, hframe⟩ := blockLoop_changedOnlyAt hb hready.canonical dst x (readBits s c)
  exact ⟨_, hnext, hframe.regs, fun j => hframe.fregs j (Loc.not_ownsFreg_of_int hready.shape.1 j), hframe.bytes,
    hframe.pc, hframe.memSize, exec_keeps (keepsInstr_sameRelational hcompare s) (.of_flags rfl) hnext,
    fun hzero => movesAndShiftsKeepFlags _ s _ hzero hnext⟩

end Sys2Proof.Machine
end

section
/-! PROOFS. Binary32 rounding (40_engine.md R176, R179): the magnitudes of the patterns, `f32Round` as the nearest of
them, and from it I2F and division. -/

namespace Sys2Proof.Machine

/-! ### Rounding to an integer -/

/-- No integer is nearer than the rounded one, and of two equally near the rounded one is even. -/
theorem roundEven_nearest (n : Nat) {d : Nat} (hd : 0 < d) (j : Nat) :
    ((n : Int) - roundEven n d * d).natAbs ≤ ((n : Int) - j * d).natAbs ∧
      (((n : Int) - roundEven n d * d).natAbs = ((n : Int) - j * d).natAbs →
        j = roundEven n d ∨ roundEven n d % 2 = 0) := by
  obtain ⟨hhalf, htie⟩ := roundEven_spec n hd
  by_cases hj : j = roundEven n d
  · subst hj
    exact ⟨le_rfl, fun _ => .inl rfl⟩
  · -- Two integers apart, the two multiples of `d` are `d` apart.
    have hapart : d ≤ (((n : Int) - j * d) - ((n : Int) - roundEven n d * d)).natAbs := by
      have e : ((n : Int) - j * d) - ((n : Int) - roundEven n d * d) = ((roundEven n d : Int) - j) * d := by ring
      rw [e, Int.natAbs_mul, Int.natAbs_natCast]
      exact Nat.le_mul_of_pos_left d (by omega)
    exact ⟨by omega, fun heq => .inr (htie (by omega))⟩

theorem roundEven_mul_self (j : Nat) {d : Nat} (hd : 0 < d) : roundEven (j * d) d = j :=
  le_antisymm (roundEven_le hd le_rfl) (le_roundEven hd le_rfl)

/-- A number rounds above an odd integer exactly from the half above it up: the half itself goes to the even one. -/
theorem lt_roundEven_iff_of_odd {n d j : Nat} (hd : 0 < d) (hj : j % 2 = 1) :
    j < roundEven n d ↔ (2 * j + 1) * d ≤ 2 * n := by
  obtain ⟨hhalf, htie⟩ := roundEven_spec n hd
  have e : (2 * j + 1) * d = 2 * (j * d) + d := by ring
  rw [e]
  constructor
  · intro hlt
    have hmul : (j + 1) * d ≤ roundEven n d * d := Nat.mul_le_mul_right d hlt
    rw [Nat.succ_mul] at hmul
    zify at hmul ⊢
    omega
  · intro hle
    by_contra hge
    have hmul : roundEven n d * d ≤ j * d := Nat.mul_le_mul_right d (Nat.le_of_not_lt hge)
    by_cases hj' : roundEven n d = j
    · rw [hj'] at hhalf htie
      zify at hle
      have := htie (by omega)
      omega
    · have hmul' : (roundEven n d + 1) * d ≤ j * d := Nat.mul_le_mul_right d (by omega)
      rw [Nat.succ_mul] at hmul'
      zify at hle hmul'
      omega

/-! ### Magnitudes -/

/-- The pattern of exponent step `k` and significand `m`, a carry out of the significand among them, has the magnitude
`m * 2^k` (10_state.md R39). -/
theorem f32Mag_pack {k m : Nat} (neg : Bool) (hm : m ≤ 2 ^ 24) (hk : k = 0 ∨ 2 ^ 23 ≤ m)
    (hlt : k * 2 ^ 23 + m < 2 ^ 31) : f32Mag (f32Pack neg (k * 2 ^ 23 + m)) = m * 2 ^ k := by
  unfold f32Mag
  rw [f32Exp_pack neg hlt, f32Frac_pack neg hlt]
  rcases (by omega : m < 2 ^ 23 ∨ (2 ^ 23 ≤ m ∧ m < 2 ^ 24) ∨ m = 2 ^ 24) with hsub | ⟨hlo, hhi⟩ | rfl
  · obtain rfl : k = 0 := by omega
    rw [if_pos (by omega), Nat.pow_zero]
    omega
  · have hexp : (k * 2 ^ 23 + m) / 2 ^ 23 = k + 1 := by omega
    have hfrac : 2 ^ 23 + (k * 2 ^ 23 + m) % 2 ^ 23 = m := by omega
    rw [hexp, hfrac, if_neg (Nat.succ_ne_zero k), Nat.add_sub_cancel]
  · have hexp : (k * 2 ^ 23 + 2 ^ 24) / 2 ^ 23 = k + 2 := by omega
    have hfrac : 2 ^ 23 + (k * 2 ^ 23 + 2 ^ 24) % 2 ^ 23 = 2 ^ 23 := by omega
    rw [hexp, hfrac, if_neg (by omega), show k + 2 - 1 = k + 1 by omega, Nat.pow_succ 2 k]
    omega

/-- A magnitude is a significand of at most 24 bits times a power of 2. -/
theorem f32Mag_eq (u : Word) : ∃ c e, c < 2 ^ 24 ∧ f32Mag u = c * 2 ^ e := by
  have hfrac := f32Frac_lt u
  unfold f32Mag
  split
  · exact ⟨f32Frac u, 0, by omega, by simp⟩
  · exact ⟨2 ^ 23 + f32Frac u, f32Exp u - 1, by omega, rfl⟩

/-- Every magnitude from `2^23 * 2^k` up is a multiple of `2^k`. -/
theorem f32Mag_multiple_or_lt (u : Word) (k : Nat) : (∃ j, f32Mag u = j * 2 ^ k) ∨ f32Mag u < 2 ^ 23 * 2 ^ k := by
  obtain ⟨c, e, hc, hu⟩ := f32Mag_eq u
  rw [hu]
  rcases Nat.lt_or_ge e k with he | he
  · right
    calc c * 2 ^ e
      _ < 2 ^ 24 * 2 ^ e := Nat.mul_lt_mul_of_pos_right hc (by positivity)
      _ = 2 ^ 23 * 2 ^ (e + 1) := by rw [Nat.pow_succ]; ring
      _ ≤ 2 ^ 23 * 2 ^ k := Nat.mul_le_mul_left _ (Nat.pow_le_pow_right (by decide) he)
  · exact .inl ⟨c * 2 ^ (e - k), by rw [Nat.mul_assoc, ← Nat.pow_add, Nat.sub_add_cancel he]⟩

theorem f32IsInf_pack (neg : Bool) : f32IsInf (f32Pack neg f32InfMag) = true := by cases neg <;> decide

theorem f32IsZero_pack (neg : Bool) : f32IsZero (f32Pack neg 0) = true := by cases neg <;> decide

theorem not_nan_of_finite {b : Word} (h : f32IsFinite b = true) : f32IsNaN b = false ∧ f32IsInf b = false := by
  have hexp : (f32Exp b == 255) = false := by simpa [f32IsFinite] using h
  rw [f32IsNaN, f32IsInf, hexp]
  exact ⟨rfl, rfl⟩

theorem not_nan_of_inf {b : Word} (h : f32IsInf b = true) : f32IsNaN b = false := by
  simp_all [f32IsInf, f32IsNaN]

/-! ### Rounding to a pattern -/

/-- The exponent step of `f32Round`: at it the significand has at most 24 bits. -/
def roundStep (n d : Nat) : Nat := Nat.log2 (n / d) - 23

/-- The rounded significand of `f32Round`. -/
def roundSig (n d : Nat) : Nat := roundEven n (d * 2 ^ roundStep n d)

/-- Bits 30:0 of the result of `f32Round`, before it is cut to an infinity. -/
def roundBits (n d : Nat) : Nat := roundStep n d * 2 ^ 23 + roundSig n d

theorem f32Round_eq (neg : Bool) (n d : Nat) : f32Round neg n d = f32Pack neg (min (roundBits n d) f32InfMag) := rfl

section rounding

variable {n d : Nat}

theorem lt_roundStep (hd : 0 < d) : n < 2 ^ 24 * (d * 2 ^ roundStep n d) := by
  have hlog : n / d < 2 ^ (Nat.log2 (n / d) + 1) := Nat.lt_log2_self
  have hstep : 2 ^ (Nat.log2 (n / d) + 1) ≤ 2 ^ (24 + roundStep n d) :=
    Nat.pow_le_pow_right (by decide) (by unfold roundStep; omega)
  calc n
    _ < 2 ^ (24 + roundStep n d) * d := (Nat.div_lt_iff_lt_mul hd).1 (hlog.trans_le hstep)
    _ = 2 ^ 24 * (d * 2 ^ roundStep n d) := by rw [Nat.pow_add]; ring

theorem roundStep_le (hd : 0 < d) : roundStep n d = 0 ∨ 2 ^ 23 * (d * 2 ^ roundStep n d) ≤ n := by
  rcases Nat.eq_zero_or_pos (roundStep n d) with h | h
  · exact .inl h
  · right
    have hlog : Nat.log2 (n / d) = 23 + roundStep n d := by unfold roundStep at h ⊢; omega
    have hne : n / d ≠ 0 := fun h0 => by rw [h0, Nat.log2_zero] at hlog; omega
    have hle : 2 ^ (23 + roundStep n d) ≤ n / d := hlog ▸ Nat.log2_self_le hne
    calc 2 ^ 23 * (d * 2 ^ roundStep n d)
      _ = 2 ^ (23 + roundStep n d) * d := by rw [Nat.pow_add]; ring
      _ ≤ n := (Nat.le_div_iff_mul_le hd).1 hle

theorem unit_pos (hd : 0 < d) (k : Nat) : 0 < d * 2 ^ k := Nat.mul_pos hd (Nat.two_pow_pos k)

theorem roundSig_le (hd : 0 < d) : roundSig n d ≤ 2 ^ 24 :=
  roundEven_le (unit_pos hd _) (lt_roundStep hd).le

theorem le_roundSig (hd : 0 < d) : roundStep n d = 0 ∨ 2 ^ 23 ≤ roundSig n d :=
  (roundStep_le hd).imp_right (le_roundEven (unit_pos hd _))

/-- The result is an infinity exactly from the middle between the largest finite magnitude, `(2^24 - 1) * 2^253`, and
the next power of 2 up (40_engine.md R179). -/
theorem roundBits_lt_iff (hd : 0 < d) : roundBits n d < f32InfMag ↔ 2 * n < (2 ^ 25 - 1) * 2 ^ 253 * d := by
  have hinf : f32InfMag = 255 * 2 ^ 23 := rfl
  have hsig := roundSig_le (n := n) hd
  have hhi := lt_roundStep (n := n) hd
  unfold roundBits
  rw [hinf]
  rcases Nat.lt_trichotomy (roundStep n d) 253 with hk | hk | hk
  · have hunit : d * 2 ^ roundStep n d ≤ d * 2 ^ 252 :=
      Nat.mul_le_mul_left d (Nat.pow_le_pow_right (by decide) (by omega))
    exact ⟨fun _ => by omega, fun _ => by omega⟩
  · have hodd := lt_roundEven_iff_of_odd (n := n) (j := 2 ^ 24 - 1) (unit_pos hd 253) (by decide)
    rw [roundSig, hk] at hsig ⊢
    constructor
    · intro h
      have := mt hodd.2 (by omega)
      omega
    · intro h
      have := mt hodd.1 (by omega)
      omega
  · have hlo := (roundStep_le (n := n) hd).resolve_left (by omega)
    have hsig' := (le_roundSig (n := n) hd).resolve_left (by omega)
    have hunit : d * 2 ^ 254 ≤ d * 2 ^ roundStep n d :=
      Nat.mul_le_mul_left d (Nat.pow_le_pow_right (by decide) hk)
    exact ⟨fun _ => by omega, fun _ => by omega⟩

/-- Of all magnitudes none is nearer than the rounded one, and of two equally near it has the even significand. -/
theorem roundSig_nearest (hd : 0 < d) (u : Word) :
    ((n : Int) - ((roundSig n d * 2 ^ roundStep n d : Nat) : Int) * d).natAbs ≤
        ((n : Int) - (f32Mag u : Int) * d).natAbs ∧
      (((n : Int) - ((roundSig n d * 2 ^ roundStep n d : Nat) : Int) * d).natAbs =
        ((n : Int) - (f32Mag u : Int) * d).natAbs →
        f32Mag u = roundSig n d * 2 ^ roundStep n d ∨ roundSig n d % 2 = 0) := by
  have hunit (j : Nat) :
      ((j * 2 ^ roundStep n d : Nat) : Int) * d = (j : Int) * ((d * 2 ^ roundStep n d : Nat) : Int) := by
    push_cast; ring
  have hnear := roundEven_nearest n (unit_pos hd (roundStep n d))
  rw [hunit]
  by_cases hmul : ∃ j, f32Mag u = j * 2 ^ roundStep n d
  · obtain ⟨j, hj⟩ := hmul
    rw [hj, hunit]
    obtain ⟨hle, htie⟩ := hnear j
    exact ⟨hle, fun h => (htie h).imp_left fun e => by rw [e]; rfl⟩
  · -- A magnitude off the grid lies below the least significand, which lies below the number.
    have hstep : roundStep n d ≠ 0 := fun h0 => hmul ⟨f32Mag u, by rw [h0, Nat.pow_zero, Nat.mul_one]⟩
    have hlo := (roundStep_le (n := n) hd).resolve_left hstep
    have hu := (f32Mag_multiple_or_lt u (roundStep n d)).resolve_left hmul
    have hud : f32Mag u * d < 2 ^ 23 * (d * 2 ^ roundStep n d) :=
      calc f32Mag u * d
        _ < 2 ^ 23 * 2 ^ roundStep n d * d := Nat.mul_lt_mul_of_pos_right hu hd
        _ = 2 ^ 23 * (d * 2 ^ roundStep n d) := by ring
    have hle := (hnear (2 ^ 23)).1
    have hstrict : ((n : Int) - (roundSig n d : Int) * ((d * 2 ^ roundStep n d : Nat) : Int)).natAbs <
        ((n : Int) - (f32Mag u : Int) * d).natAbs := by
      refine hle.trans_lt ?_
      zify at hud hlo
      push_cast
      omega
    exact ⟨hstrict.le, fun h => absurd h hstrict.ne⟩

theorem roundBits_cut_lt (n d : Nat) : min (roundBits n d) f32InfMag < 2 ^ 31 :=
  (Nat.min_le_right _ _).trans_lt (by decide)

theorem f32Neg_f32Round (neg : Bool) (n d : Nat) : f32Neg (f32Round neg n d) = neg :=
  f32Neg_pack neg (roundBits_cut_lt n d)

/-- From the rounding bound up the result is an infinity. -/
theorem f32IsInf_f32Round (neg : Bool) (hd : 0 < d) (h : (2 ^ 25 - 1) * 2 ^ 253 * d ≤ 2 * n) :
    f32IsInf (f32Round neg n d) = true := by
  have hbits : f32InfMag ≤ roundBits n d := Nat.le_of_not_lt fun hlt => absurd ((roundBits_lt_iff hd).1 hlt) (by omega)
  rw [f32Round_eq, Nat.min_eq_right hbits]
  exact f32IsInf_pack neg

/-- Below the rounding bound the result is the finite pattern of the rounded significand. -/
theorem f32Round_of_lt (neg : Bool) (hd : 0 < d) (h : 2 * n < (2 ^ 25 - 1) * 2 ^ 253 * d) :
    f32IsFinite (f32Round neg n d) = true ∧ f32Mag (f32Round neg n d) = roundSig n d * 2 ^ roundStep n d ∧
      (f32Round neg n d).toNat % 2 = roundSig n d % 2 := by
  have hbits : roundBits n d < f32InfMag := (roundBits_lt_iff hd).2 h
  have hlt : roundBits n d < 2 ^ 31 := hbits.trans (by decide)
  rw [f32Round_eq, Nat.min_eq_left hbits.le]
  refine ⟨?_, f32Mag_pack neg (roundSig_le hd) (le_roundSig hd) hlt, ?_⟩
  · have hexp : roundBits n d / 2 ^ 23 < 255 := Nat.div_lt_of_lt_mul (by rw [Nat.mul_comm]; exact hbits)
    rw [f32IsFinite, f32Exp_pack neg hlt, bne_iff_ne]
    exact hexp.ne
  · rw [f32Pack_toNat neg hlt, roundBits]
    cases neg <;> simp <;> omega

/-- Below the rounding bound no magnitude is nearer than the result's, and of two equally near the result is the even
pattern (40_engine.md R176, R179). -/
theorem f32Round_nearest (neg : Bool) (hd : 0 < d) (h : 2 * n < (2 ^ 25 - 1) * 2 ^ 253 * d) (u : Word) :
    ((n : Int) - f32Mag (f32Round neg n d) * d).natAbs ≤ ((n : Int) - f32Mag u * d).natAbs ∧
      (((n : Int) - f32Mag (f32Round neg n d) * d).natAbs = ((n : Int) - f32Mag u * d).natAbs →
        f32Mag u = f32Mag (f32Round neg n d) ∨ (f32Round neg n d).toNat % 2 = 0) := by
  obtain ⟨-, hmag, heven⟩ := f32Round_of_lt neg hd h
  rw [hmag, heven]
  exact roundSig_nearest hd u

end rounding

/-! ### Division -/

section division

variable {a b : Word}

theorem f32Div_of_nan (h : f32IsNaN a = true ∨ f32IsNaN b = true) : f32Div a b = none := by
  have hnan : (f32IsNaN a || f32IsNaN b) = true := by simpa using h
  rw [f32Div, if_pos hnan]

theorem f32Div_inf_inf (ha : f32IsInf a = true) (hb : f32IsInf b = true) : f32Div a b = none := by
  simp [f32Div, not_nan_of_inf ha, not_nan_of_inf hb, ha, hb]

theorem f32Div_inf_finite (ha : f32IsInf a = true) (hb : f32IsFinite b = true) :
    f32Div a b = some (f32Pack (f32Neg a != f32Neg b) f32InfMag) := by
  simp [f32Div, not_nan_of_inf ha, not_nan_of_finite hb, ha]

theorem f32Div_finite_inf (ha : f32IsFinite a = true) (hb : f32IsInf b = true) :
    f32Div a b = some (f32Pack (f32Neg a != f32Neg b) 0) := by
  simp [f32Div, not_nan_of_finite ha, not_nan_of_inf hb, hb]

theorem f32Div_finite (ha : f32IsFinite a = true) (hb : f32IsFinite b = true) :
    f32Div a b = some (f32Round (f32Neg a != f32Neg b) (f32Mag a * 2 ^ 149) (f32Mag b)) := by
  simp [f32Div, not_nan_of_finite ha, not_nan_of_finite hb]

end division

/-- Settles O39: the quotient of finite values by `f32Round`, the others by the cases of `f32Div`. -/
theorem floatDivisionIsNearest : Obligations.FloatDivisionIsNearest := by
  refine ⟨fun a b ha hb hzero => ?_, fun a b => ⟨f32Div_of_nan, f32Div_inf_inf, fun ha hb => ?_, fun ha hb => ?_⟩⟩
  · have hd : 0 < f32Mag b := Nat.pos_of_ne_zero hzero
    refine ⟨_, f32Div_finite ha hb, f32Neg_f32Round .., f32IsInf_f32Round _ hd, fun hlt => ?_⟩
    refine ⟨(f32Round_of_lt _ hd hlt).1, fun u _ => ?_⟩
    exact_mod_cast f32Round_nearest (f32Neg a != f32Neg b) hd hlt u
  · exact ⟨_, f32Div_inf_finite ha hb, f32IsInf_pack _, f32Neg_pack _ (by decide)⟩
  · exact ⟨_, f32Div_finite_inf ha hb, f32IsZero_pack _, f32Neg_pack _ (by decide)⟩

/-! ### I2F -/

/-- Every integer below 2^32 is far below the rounding bound. -/
theorem lt_roundBound {a : Nat} (h : a < 2 ^ 32) : 2 * (a * 2 ^ 149) < (2 ^ 25 - 1) * 2 ^ 253 * 1 := by omega

/-- An integer up to 2^24 is a multiple of its exponent step. -/
theorem multiple_of_roundStep {a : Nat} (h : a ≤ 2 ^ 24) : ∃ j, a * 2 ^ 149 = j * 2 ^ roundStep (a * 2 ^ 149) 1 := by
  rcases Nat.lt_or_ge 149 (roundStep (a * 2 ^ 149) 1) with hk | hk
  · have hlo := (roundStep_le (n := a * 2 ^ 149) one_pos).resolve_left (by omega)
    have hunit : 2 ^ 150 ≤ 2 ^ roundStep (a * 2 ^ 149) 1 := Nat.pow_le_pow_right (by decide) hk
    exact ⟨2 ^ 23, by omega⟩
  · exact ⟨a * 2 ^ (149 - roundStep (a * 2 ^ 149) 1), by rw [Nat.mul_assoc, ← Nat.pow_add, Nat.sub_add_cancel hk]⟩

theorem f32Mag_i2f {x : Int} (h : x.natAbs ≤ 2 ^ 24) : f32Mag (i2f x) = x.natAbs * 2 ^ 149 := by
  obtain ⟨j, hj⟩ := multiple_of_roundStep h
  have hsig : roundSig (x.natAbs * 2 ^ 149) 1 = j := by
    rw [roundSig, Nat.one_mul]
    nth_rewrite 1 [hj]
    exact roundEven_mul_self j (Nat.two_pow_pos _)
  obtain ⟨-, hmag, -⟩ := f32Round_of_lt (decide (x < 0)) one_pos (lt_roundBound (a := x.natAbs) (by omega))
  rw [i2f, hmag, hsig, ← hj]

theorem f32Neg_i2f (x : Int) : f32Neg (i2f x) = decide (x < 0) := f32Neg_f32Round ..

/-- Settles O26: the nearest magnitude is nearest with the integer's sign, since one of the other sign is no nearer than
zero is. -/
theorem intToFloatIsNearest : Obligations.IntToFloatIsNearest := by
  intro x hx
  have hbound := lt_roundBound hx
  have hnear (u : Word) := f32Round_nearest (decide (x < 0)) one_pos hbound u
  refine ⟨(f32Round_of_lt _ one_pos hbound).1, fun u _ => ?_, fun hexact => ?_⟩
  · obtain ⟨hle, htie⟩ := hnear u
    obtain ⟨hle₀, htie₀⟩ := hnear 0
    rw [show f32Mag 0 = 0 by decide] at hle₀ htie₀
    rw [← i2f] at hle htie hle₀ htie₀
    simp only [f32Fix, f32Neg_i2f, decide_eq_true_eq]
    split <;> split <;> omega
  · have hmag := f32Mag_i2f hexact
    simp only [f32Fix, f32Neg_i2f, decide_eq_true_eq, hmag]
    split <;> omega

end Sys2Proof.Machine
end

section
/-! PROOFS. LD (41_load.md): what a numeric read gives and what a numeric write stores, by the domain of the Location, and
from them the four rows of the load's table. -/

namespace Sys2Proof.Machine

/-! ### Numeric reads and writes by domain -/

section domains

variable {l : Loc}

theorem readNum_of_int (signed : Bool) (s : State) (h : l.isFloat = false) :
    readNum signed s l = .int (readInt signed s l) := by rw [readNum, h]; rfl

theorem readNum_of_float (signed : Bool) (s : State) (h : l.isFloat = true) :
    readNum signed s l = .flt (readPattern s l) := by rw [readNum, h]; rfl

@[simp] theorem readInt_unsigned (s : State) (l : Loc) : readInt false s l = (readBits s l : Int) := rfl

theorem numBits_int_of_int (s : State) (x : Int) (h : l.isFloat = false) :
    numBits s l (.int x) = (residue l.bits x, s) := by simp [numBits, h]

theorem numBits_int_of_float (s : State) (x : Int) (h : l.isFloat = true) :
    numBits s l (.int x) = ((i2f x).toNat, s) := by simp [numBits, h]

theorem numBits_flt_of_int (s : State) (f : Word) (h : l.isFloat = false) :
    numBits s l (.flt f) = f2i s f l.bits := by simp [numBits, h]

theorem numBits_flt_of_float (s : State) (f : Word) (h : l.isFloat = true) :
    numBits s l (.flt f) = (f.toNat, s) := by simp [numBits, h]

end domains

/-- F2I where 40_engine.md R177 states it takes no draw. -/
theorem f2i_of_finite (s : State) {f : Word} (n : Nat) (hfin : f32IsFinite f = true)
    (hrange : (truncValue f).natAbs < 2 ^ 32) : f2i s f n = (residue n (truncValue f), s) := by
  have hsome : f32ToInt? f = some (truncValue f) := by
    rw [f32ToInt?, f32Trunc_eq, if_pos ⟨hfin, hrange⟩]
  rw [f2i, hsome]

/-! ### LD -/

theorem exec_ld_of_resolve {s : State} {d x : Operand} {ld lx : Loc} (hd : resolve s d = .ok ld)
    (hx : resolve s x = .ok lx) : exec (.ld d x) s = .next (writeNum s ld (readNum false s lx)) := by
  rw [exec_ld, onOperands_of_resolve hd hx]; rfl

/-- Settles O25: the destination holds the pattern of the numeric write (`writeNum_spec`), which is one row of
41_load.md R202 for each pair of domains. -/
theorem ldWritesConvertedValue : Obligations.LdWritesConvertedValue := by
  intro s d x ld lx h
  obtain ⟨hbits, hframe⟩ := writeNum_spec h.canonical h.writable (readNum false s lx)
  refine ⟨_, exec_ld_of_resolve h.dst h.src, writeNum_flags .., hframe, ?intToInt, ?floatToInt, ?intToFloat,
    ?floatToFloat⟩
  case intToInt =>
    intro hd hx
    rw [hbits, readNum_of_int _ _ hx, numBits_int_of_int _ _ hd, readInt_unsigned, residue_natCast]
  case floatToInt =>
    intro hd hx hfin hrange
    rw [hbits, readNum_of_float _ _ hx, numBits_flt_of_int _ _ hd, f2i_of_finite _ _ hfin hrange, residue_cast]
  case intToFloat =>
    intro hd hx
    apply readPattern_of_readBits
    rw [hbits, readNum_of_int _ _ hx, numBits_int_of_float _ _ hd, readInt_unsigned]
  case floatToFloat =>
    intro hd hx
    apply readPattern_of_readBits
    rw [hbits, readNum_of_float _ _ hx, numBits_flt_of_float _ _ hd]

end Sys2Proof.Machine
end

section
/-! PROOFS. CP and SCP (42_compare.md): the six flags of a comparison as the order of what is compared, for the low bits
of two ints, and for two binary32 values, whose patterns lie in the order of the values. -/

namespace Sys2Proof.Machine

/-! ### The flags of a comparison -/

/-- The six flags written out: GTE and LTE are the order with equality (42_compare.md R220). -/
theorem setFromComparison_eq (x y : Int) : setFromComparison x y =
    ⟨decide (x = y), decide (x = y), decide (y < x), decide (x < y), decide (y ≤ x), decide (x ≤ y)⟩ := by
  have hge : (decide (y < x) || decide (x = y)) = decide (y ≤ x) := by
    rw [← Bool.decide_or, decide_eq_decide]; omega
  have hle : (decide (x < y) || decide (x = y)) = decide (x ≤ y) := by
    rw [← Bool.decide_or, decide_eq_decide]; omega
  rw [setFromComparison, flagsOf, hge, hle]

/-- A comparison sees the order of its operands and nothing else of them. -/
theorem setFromComparison_strictMono {f : Int → Int} (hf : StrictMono f) (x y : Int) :
    setFromComparison (f x) (f y) = setFromComparison x y := by
  simp only [setFromComparison, hf.lt_iff_lt, hf.injective.eq_iff]

/-- CP and SCP on operands that resolve are the comparison of their Locations (42_compare.md R222, R227). -/
theorem exec_compare_of_resolve {signed : Bool} {mk : Operand → Operand → Instr}
    (hmk : (signed, mk) ∈ [(false, Instr.cp), (true, Instr.scp)]) {s : State} {a b : Operand} {la lb : Loc}
    (ha : resolve s a = .ok la) (hb : resolve s b = .ok lb) :
    exec (mk a b) s = .next (compareLocs signed s la lb) := by
  simp only [List.mem_cons, List.not_mem_nil, or_false, Prod.mk.injEq] at hmk
  rcases hmk with ⟨rfl, rfl⟩ | ⟨rfl, rfl⟩
  · rw [exec_cp, onOperands_of_resolve ha hb]; rfl
  · rw [exec_scp, onOperands_of_resolve ha hb]; rfl

/-! ### Int operands -/

section bits

variable {n : Nat} (x y : BitVec n)

theorem setFromComparison_toNat : setFromComparison x.toNat y.toNat =
    ⟨decide (x = y), decide (x = y), y.ult x, x.ult y, y.ule x, x.ule y⟩ := by
  simp only [setFromComparison_eq, Int.ofNat_lt, Int.ofNat_le, Int.ofNat_inj, BitVec.toNat_inj, BitVec.ult, BitVec.ule]

theorem setFromComparison_toInt : setFromComparison x.toInt y.toInt =
    ⟨decide (x = y), decide (x = y), y.slt x, x.slt y, y.sle x, x.sle y⟩ := by
  simp only [setFromComparison_eq, BitVec.toInt_inj, BitVec.slt, BitVec.sle]

end bits

theorem compareInt_unsigned (s : State) (l : Loc) (m : Nat) :
    compareInt false s l m = ((BitVec.ofNat m (readBits s l)).toNat : Int) := by
  rw [BitVec.toNat_ofNat]; rfl

theorem compareInt_signed (s : State) (l : Loc) {m : Nat} (hm : 0 < m) :
    compareInt true s l m = (BitVec.ofNat m (readBits s l)).toInt := sext_eq_toInt hm

theorem compareLocs_of_int (signed : Bool) (s : State) {a b : Loc} (ha : a.isFloat = false) (hb : b.isFloat = false) :
    compareLocs signed s a b = s.setFlags (setFromComparison (compareInt signed s a (min a.bits b.bits))
      (compareInt signed s b (min a.bits b.bits))) := by
  simp [compareLocs, ha, hb]

/-- Settles O27: what `compareInt` reads of an operand is the bit vector of its low m bits, unsigned for CP and as two's
complement for SCP. -/
theorem integerComparisonFlags : Obligations.IntegerComparisonFlags := by
  rintro s a b la lb h ha hb x y rfl rfl
  have hm : 0 < min la.bits lb.bits := lt_min la.bits_pos lb.bits_pos
  constructor
  · rw [exec_compare_of_resolve (signed := false) (by simp) h.dst h.src, compareLocs_of_int _ s ha hb,
      compareInt_unsigned, compareInt_unsigned, setFromComparison_toNat]
    rfl
  · rw [exec_compare_of_resolve (signed := true) (by simp) h.dst h.src, compareLocs_of_int _ s ha hb,
      compareInt_signed s la hm, compareInt_signed s lb hm, setFromComparison_toInt]
    rfl

/-! ### The order of the binary32 values

Bits 30:0 of the patterns that are not a NaN run up in the order of the magnitudes, through every carry of the fraction
into the exponent and on to the infinity; so `f32Key` orders the patterns as `f32Order` orders their values. -/

/-- The magnitude that bits 30:0 stand for, with an infinity read as one more finite pattern. -/
def magOfBits (m : Nat) : Nat :=
  if m / 2 ^ 23 = 0 then m % 2 ^ 23 else (2 ^ 23 + m % 2 ^ 23) * 2 ^ (m / 2 ^ 23 - 1)

/-- The place of bits 30:0 in the order of the magnitudes: `magOfBits`, and twice the 2^277 it gives for an infinity. -/
def orderOfBits (m : Nat) : Nat := magOfBits m + if m < f32InfMag then 0 else 2 ^ 277

/-- `orderOfBits`, continued to the negative keys. -/
def orderOfKey (k : Int) : Int := if k < 0 then -(orderOfBits k.natAbs : Int) else (orderOfBits k.natAbs : Int)

/-- From one pattern to the next the magnitude grows, also where the fraction carries into the exponent. -/
theorem magOfBits_lt_succ (m : Nat) : magOfBits m < magOfBits (m + 1) := by
  unfold magOfBits
  rcases (by omega : (m + 1) % 2 ^ 23 = m % 2 ^ 23 + 1 ∧ (m + 1) / 2 ^ 23 = m / 2 ^ 23 ∨
    m % 2 ^ 23 = 2 ^ 23 - 1 ∧ (m + 1) % 2 ^ 23 = 0 ∧ (m + 1) / 2 ^ 23 = m / 2 ^ 23 + 1) with
    ⟨hfrac, hexp⟩ | ⟨hfrac, hfrac', hexp⟩
  · rw [hfrac, hexp]
    split
    · omega
    · exact Nat.mul_lt_mul_of_pos_right (by omega) (by positivity)
  · rw [hfrac, hfrac', hexp, if_neg (Nat.succ_ne_zero _), Nat.add_sub_cancel]
    split
    case isTrue h => rw [h]; decide
    case isFalse h =>
      obtain ⟨e, he⟩ := Nat.exists_eq_add_one_of_ne_zero h
      have hpos : 0 < 2 ^ e := Nat.two_pow_pos e
      rw [he, Nat.add_sub_cancel, Nat.pow_succ 2 e]
      omega

theorem orderOfBits_strictMono : StrictMono orderOfBits := by
  refine (strictMono_nat_of_lt_succ magOfBits_lt_succ).add_monotone fun m n hmn => ?_
  split <;> split <;> omega

@[simp] theorem orderOfBits_zero : orderOfBits 0 = 0 := rfl

/-- An infinity lies where `f32Order` puts it. -/
theorem orderOfBits_inf : orderOfBits f32InfMag = 2 ^ 278 := by
  have hmag : magOfBits f32InfMag = 2 ^ 23 * 2 ^ 254 := rfl
  rw [orderOfBits, hmag, if_neg (lt_irrefl _)]
  omega

@[simp] theorem orderOfKey_natCast (m : Nat) : orderOfKey m = orderOfBits m := by
  rw [orderOfKey, if_neg (by omega), Int.natAbs_natCast]

@[simp] theorem orderOfKey_neg (k : Int) : orderOfKey (-k) = -orderOfKey k := by
  unfold orderOfKey
  rw [Int.natAbs_neg]
  rcases lt_trichotomy k 0 with h | rfl | h
  · rw [if_pos h, if_neg (by omega), neg_neg]
  · rfl
  · rw [if_neg h.le.not_gt, if_pos (by omega)]

theorem orderOfKey_strictMono : StrictMono orderOfKey := by
  refine strictMono_of_odd_strictMonoOn_nonneg orderOfKey_neg fun x hx y hy hxy => ?_
  lift x to Nat using hx
  lift y to Nat using hy
  rw [orderOfKey_natCast, orderOfKey_natCast]
  exact_mod_cast orderOfBits_strictMono (by exact_mod_cast hxy)

/-! ### Patterns by their bits 30:0 -/

theorem f32Mag_eq_magOfBits (b : Word) : f32Mag b = magOfBits (f32Abs b) := by
  have hfrac := f32Frac_lt b
  have hexp : f32Abs b / 2 ^ 23 = f32Exp b := by rw [f32Abs_eq]; omega
  have hmod : f32Abs b % 2 ^ 23 = f32Frac b := by rw [f32Abs_eq]; omega
  rw [magOfBits, hexp, hmod, f32Mag]

theorem f32IsInf_iff_f32Abs (b : Word) : f32IsInf b = true ↔ f32Abs b = f32InfMag := by
  have hfrac := f32Frac_lt b
  simp only [f32IsInf, Bool.and_eq_true, beq_iff_eq, f32Abs_eq, f32InfMag]
  omega

/-- The NaN patterns are those beyond an infinity. -/
theorem f32IsNaN_iff_f32Abs (b : Word) : f32IsNaN b = true ↔ f32InfMag < f32Abs b := by
  have hfrac := f32Frac_lt b
  have hexp := f32Exp_lt b
  simp only [f32IsNaN, Bool.and_eq_true, beq_iff_eq, bne_iff_ne, f32Abs_eq, f32InfMag]
  omega

/-- The order of a value that is not a NaN, from its sign and its bits 30:0. -/
theorem f32Order_eq_orderOfBits {b : Word} (h : f32IsNaN b = false) :
    f32Order b = if f32Neg b then -(orderOfBits (f32Abs b) : Int) else (orderOfBits (f32Abs b) : Int) := by
  rw [f32Order]
  by_cases hinf : f32IsInf b = true
  · rw [if_pos hinf, (f32IsInf_iff_f32Abs b).1 hinf, orderOfBits_inf]
    norm_cast
  · have hne := mt (f32IsInf_iff_f32Abs b).2 hinf
    have hle : ¬ f32InfMag < f32Abs b := by rw [← f32IsNaN_iff_f32Abs, h]; decide
    have hlt : f32Abs b < f32InfMag := by omega
    rw [if_neg hinf, orderOfBits, if_pos hlt, Nat.add_zero, ← f32Mag_eq_magOfBits, f32Fix]

/-- The key of a value that is not a NaN tells its place in the order. -/
theorem f32Order_eq_orderOfKey {b : Word} (h : f32IsNaN b = false) : f32Order b = orderOfKey (f32Key b) := by
  rw [f32Order_eq_orderOfBits h, f32Key]
  split <;> simp

/-! ### Float operands -/

/-- The comparison of two values that are not NaNs is that of their places in the order (42_compare.md R223). -/
theorem compareFloat_of_ordered (s : State) {fa fb : Word} (ha : f32IsNaN fa = false) (hb : f32IsNaN fb = false) :
    compareFloat s fa fb = s.setFlags (setFromComparison (f32Order fa) (f32Order fb)) := by
  rw [f32Order_eq_orderOfKey ha, f32Order_eq_orderOfKey hb, setFromComparison_strictMono orderOfKey_strictMono]
  simp [compareFloat, ha, hb]

theorem compareLocs_of_float (signed : Bool) (s : State) {a b : Loc} (h : a.isFloat = true ∨ b.isFloat = true) :
    compareLocs signed s a b = compareFloat s (readFloat signed s a) (readFloat signed s b) := by
  rw [compareLocs, if_pos (by simpa using h)]

/-- Settles O28: without a NaN the keys compared lie in the order of the values; with one, what every comparison leaves
true of the flags and the state (`onOperands_compareBody`, through O20) is all the spec states. -/
theorem floatComparisonFlags : Obligations.FloatComparisonFlags := by
  rintro s a b la lb h hfloat ⟨signed, mk⟩ hmk _ _ rfl rfl
  refine ⟨fun ha hb => ?ordered, fun _ => ?unordered⟩
  case ordered =>
    rw [exec_compare_of_resolve hmk h.dst h.src, compareLocs_of_float signed s hfloat, compareFloat_of_ordered s ha hb,
      setFromComparison_eq]
    rfl
  case unordered =>
    have hmem : mk ∈ [Instr.cp, .scp] := List.mem_map_of_mem (f := Prod.snd) hmk
    exact relationalFlagsComeFromComparisons.1 mk hmem s a b la lb h.dst h.src

end Sys2Proof.Machine
end

section
/-! PROOFS. AND, OR, XOR, NAND, NOR, XNOR and BIT (43_bitwise.md): each bit function of the model acts on every place by
itself, which the cut to the destination's width keeps; the write and the Zero flag are the same for all six. -/

namespace Sys2Proof.Machine

/-! ### Bit functions -/

/-- Within its n bits the function combines its arguments place by place, by `f` (43_bitwise.md R243 to R248). -/
def ActsOnBits (op2 : Nat → Nat → Nat → Nat) (f : Bool → Bool → Bool) : Prop :=
  ∀ (n a b k : Nat), k < n → (op2 n a b).testBit k = f (a.testBit k) (b.testBit k)

theorem actsOnBits_and : ActsOnBits (fun _ a b => a &&& b) (fun a b => a && b) := fun _ a b k _ =>
  Nat.testBit_and a b k

theorem actsOnBits_or : ActsOnBits (fun _ a b => a ||| b) (fun a b => a || b) := fun _ a b k _ =>
  Nat.testBit_or a b k

theorem actsOnBits_xor : ActsOnBits (fun _ a b => a ^^^ b) (fun a b => a != b) := fun _ a b k _ =>
  Nat.testBit_xor a b k

/-- The complement within n bits, as NAND, NOR and XNOR take it (43_bitwise.md R246 to R248). -/
theorem ActsOnBits.complement {op2 : Nat → Nat → Nat → Nat} {f : Bool → Bool → Bool} (h : ActsOnBits op2 f) :
    ActsOnBits (fun n a b => (2 ^ n - 1) ^^^ op2 n a b) (fun a b => !f a b) := by
  intro n a b k hk
  rw [Nat.testBit_xor, Nat.testBit_two_pow_sub_one, decide_eq_true hk, Bool.true_xor, h n a b k hk]

/-- Cutting the source and the result to n bits cuts the places from n up and no others (43_bitwise.md R240, R242). -/
theorem ActsOnBits.testBit_cut {op2 : Nat → Nat → Nat → Nat} {f : Bool → Bool → Bool} (h : ActsOnBits op2 f)
    (n x y k : Nat) :
    (op2 n x (y % 2 ^ n) % 2 ^ n).testBit k = (decide (k < n) && f (x.testBit k) (y.testBit k)) := by
  rw [Nat.testBit_mod_two_pow]
  by_cases hk : k < n
  · rw [h n _ _ k hk, Nat.testBit_mod_two_pow, decide_eq_true hk]
    simp only [Bool.true_and]
  · rw [decide_eq_false hk, Bool.false_and, Bool.false_and]

/-- The masked value is 0 where no place within the width is set in both (43_bitwise.md R250, R251). -/
theorem and_cut_eq_zero_iff (n x y : Nat) :
    x &&& (y % 2 ^ n) = 0 ↔ ∀ k < n, ¬(x.testBit k = true ∧ y.testBit k = true) := by
  have hzero : x &&& (y % 2 ^ n) = 0 ↔ ∀ k, (x &&& (y % 2 ^ n)).testBit k = false :=
    ⟨fun h k => by rw [h, Nat.zero_testBit], Nat.zero_of_testBit_eq_false⟩
  rw [hzero]
  refine forall_congr' fun k => ?_
  rw [Nat.testBit_and, Nat.testBit_mod_two_pow]
  by_cases hk : k < n <;> simp [hk]

/-! ### The Zero flag -/

/-- Setting Zero is all that it does to the flags (43_bitwise.md R241). -/
theorem onlyZeroSet_setZero {s u : State} (h : u.flags = s.flags) {z : Bool} {p : Prop} (hz : z = true ↔ p) :
    OnlyZeroSet s (u.setZero z) p :=
  ⟨(SameRelational.of_flags h).trans ⟨rfl, rfl, rfl, rfl, rfl⟩, hz⟩

/-- Writing a value of the Location's width and setting Zero by it (43_bitwise.md R240, R241). -/
theorem writeBits_setZero_spec {s t : State} (hmem : s.mem.wf = true) {l : Loc} (hl : l.writable = true) {r : Nat}
    (hr : r < 2 ^ l.bits) (ht : t = (writeBits s l r).setZero (decide (r = 0))) :
    readBits t l = r ∧ OnlyZeroSet s t (readBits t l = 0) ∧ l.Frame s t := by
  have hread : readBits t l = r := by
    rw [ht, readBits_setZero, readBits_writeBits hmem hl, Nat.mod_eq_of_lt hr]
  refine ⟨hread, ?zero, ?frame⟩
  case zero => rw [hread, ht]; exact onlyZeroSet_setZero (writeBits_flags ..) decide_eq_true_iff
  case frame => rw [ht]; exact (writeBits_frame hmem l r).trans (.refl rfl rfl rfl rfl rfl rfl)

/-! ### The six bitwise instructions -/

/-- An instruction with the bitwise body writes what its bit function gives (43_bitwise.md R240). -/
theorem combinesBits_of_actsOnBits {mk : Operand → Operand → Instr} {op2 : Nat → Nat → Nat → Nat}
    {f : Bool → Bool → Bool} (hmk : ∀ d x s, exec (mk d x) s = onOperands (bitwiseBody op2) d x s)
    (hop : ActsOnBits op2 f) : CombinesBits mk f := by
  intro s d x ld lx h
  obtain ⟨hread, hzero, hframe⟩ := writeBits_setZero_spec h.canonical h.writable
    (Nat.mod_lt (op2 ld.bits (readBits s ld) (readBits s lx % 2 ^ ld.bits)) (Nat.two_pow_pos ld.bits)) rfl
  refine ⟨_, (hmk d x s).trans (onOperands_of_resolve h.dst h.src), fun k => ?bits, hzero, hframe⟩
  case bits => rw [hread]; exact hop.testBit_cut ..

/-- Settles O29: each of the six has the bitwise body, with a function that acts on every bit by itself; XNOR's is the
complement of XOR's. -/
theorem bitwiseResults : Obligations.BitwiseResults := by
  refine ⟨combinesBits_of_actsOnBits exec_and actsOnBits_and, combinesBits_of_actsOnBits exec_or actsOnBits_or,
    combinesBits_of_actsOnBits exec_xor actsOnBits_xor,
    combinesBits_of_actsOnBits exec_nand actsOnBits_and.complement,
    combinesBits_of_actsOnBits exec_nor actsOnBits_or.complement, ?xnor⟩
  case xnor =>
    have hxnor : (fun a b : Bool => !(a != b)) = fun a b => a == b := by decide
    rw [← hxnor]
    exact combinesBits_of_actsOnBits exec_xnor actsOnBits_xor.complement

/-! ### BIT -/

/-- Settles O30: BIT writes Zero alone, and the masked value is 0 by its places (`and_cut_eq_zero_iff`). -/
theorem bitTestsMask : Obligations.BitTestsMask := by
  intro s d m ld lm h
  have hexec : exec (.bit d m) s =
      .next (s.setZero (decide (readBits s ld &&& (readBits s lm % 2 ^ ld.bits) = 0))) := by
    rw [exec_bit, onOperands_of_resolve h.dst h.src]; rfl
  exact ⟨_, hexec, onlyZeroSet_setZero rfl (decide_eq_true_iff.trans (and_cut_eq_zero_iff ..)), rfl⟩

end Sys2Proof.Machine
end

section
/-! PROOFS. SL and SR (44_shift.md): the value a Location gives as a count, the one write that each shift is, and from
them the single, the block and the repeat form. -/

namespace Sys2Proof.Machine

/-! ### The count -/

theorem Loc.bits_le (l : Loc) : l.bits ≤ 32 := Nat.mul_le_mul_left 8 l.size_le

/-- 40_engine.md R173 states a count exactly where the exact value's truncation lies in the range. -/
theorem f32ToCount?_eq_some {f : Word} (hfin : f32IsFinite f = true) (hnonneg : 0 ≤ truncValue f)
    (hlt : truncValue f < 2 ^ 32) : f32ToCount? f = some (truncValue f).toNat := by
  rw [f32ToCount?, f32Trunc_eq, if_pos ⟨hfin, hnonneg, hlt⟩]

theorem lt_of_f32ToCount?_eq_some {f : Word} {k : Nat} (h : f32ToCount? f = some k) : k < 2 ^ 32 := by
  unfold f32ToCount? at h
  split at h
  · next hrange => cases h; omega
  · cases h

/-- What a Location within its width gives as a count is one the spec allows (40_engine.md R173). -/
theorem shiftCount_readCount {s : State} {l : Loc} (hl : readBits s l < 2 ^ l.bits) :
    ShiftCount s l (readCount s l).1 := by
  rcases readCount_cases s l with ⟨hint, e⟩ | ⟨hfloat, k, hk, e⟩ | ⟨hfloat, hnone, e⟩ <;> rw [e]
  · exact ⟨fun _ => rfl, fun h => absurd h (by simp [hint]), hl.trans_le (Nat.pow_le_pow_right two_pos l.bits_le)⟩
  · refine ⟨fun h => absurd h (by simp [hfloat]), fun _ hfin hnonneg hlt => ?_, lt_of_f32ToCount?_eq_some hk⟩
    rw [f32ToCount?_eq_some hfin hnonneg hlt] at hk
    cases hk
    exact Int.toNat_of_nonneg hnonneg
  · refine ⟨fun h => absurd h (by simp [hfloat]), fun _ hfin hnonneg hlt => ?_, (Config.draw s.draws).isLt⟩
    rw [f32ToCount?_eq_some hfin hnonneg hlt] at hnone
    cases hnone

theorem readCount_of_int {l : Loc} (h : l.isFloat = false) (s : State) : readCount s l = (readBits s l, s) := by
  rw [readCount, h]; rfl

/-- An integer immediate counts its own value, in every state and without a draw (40_engine.md R173). -/
theorem readCount_imm {ty : TypeCode} (hty : ty.isFloat = false) (k : Word) (s : State) :
    readCount s (.imm ty k) = (k.toNat, s) :=
  readCount_of_int (l := .imm ty k) hty s

/-! ### A shift is one write of its destination -/

/-- `l` holds `v` after, and nothing besides it has changed, the flags included (44_shift.md R273). -/
def OnlyWrites (l : Loc) (v : Nat) (s t : State) : Prop := readBits t l = v ∧ t.flags = s.flags ∧ l.Frame s t

theorem OnlyWrites.refl (l : Loc) (s : State) : OnlyWrites l (readBits s l) s s :=
  ⟨rfl, rfl, .refl rfl rfl rfl rfl rfl rfl⟩

/-- Of two writes in sequence the second one's value stays. -/
theorem OnlyWrites.trans {l : Loc} {v v' : Nat} {s t u : State} (h : OnlyWrites l v s t) (k : OnlyWrites l v' t u) :
    OnlyWrites l v' s u := by
  obtain ⟨-, hflags, hframe⟩ := h
  obtain ⟨hread, hflags', hframe'⟩ := k
  exact ⟨hread, hflags'.trans hflags, hframe.trans hframe'⟩

section shift

variable {s : State} {d : Loc}

/-- Reading the count takes at most a draw, which no Location shows. -/
theorem onlyWrites_readCount (hwf : s.mem.wf = true) (hd : d.writable = true) (c : Loc) {v : Nat}
    (hv : v < 2 ^ d.bits) : OnlyWrites d v s (writeBits (readCount s c).2 d v) := by
  obtain ⟨hmem, hflags, hregs, hfregs⟩ := readCount_mem s c
  have hsteady := readCount_steady s c
  have hwf' : (readCount s c).2.mem.wf = true := by rw [hmem]; exact hwf
  refine ⟨?value, (writeBits_flags ..).trans hflags, ?frame⟩
  case value => rw [readBits_writeBits hwf' hd, Nat.mod_eq_of_lt hv]
  case frame =>
    exact (UnchangedOutside.refl hregs hfregs hmem hsteady.pc hsteady.status hsteady.memSize).trans
      (writeBits_frame hwf' d v)

/-- SL's body, with the count that it reads (44_shift.md R270, R272). -/
theorem shiftL_onlyWrites (hwf : s.mem.wf = true) (hd : d.writable = true) (c : Loc) :
    OnlyWrites d (readBits s d * 2 ^ ((readCount s c).1 % d.bits) % 2 ^ d.bits) s (shiftL s d c) :=
  onlyWrites_readCount hwf hd c (Nat.mod_lt _ (Nat.two_pow_pos _))

/-- SR's body: the quotient is within the width since the value was (44_shift.md R270, R278). -/
theorem shiftR_onlyWrites (hwf : s.mem.wf = true) (hd : d.writable = true) (c : Loc) :
    OnlyWrites d (readBits s d / 2 ^ ((readCount s c).1 % d.bits)) s (shiftR s d c) :=
  onlyWrites_readCount hwf hd c ((Nat.div_le_self _ _).trans_lt (readBits_lt hd))

theorem shiftL_mem_wf (hwf : s.mem.wf = true) (d c : Loc) : (shiftL s d c).mem.wf = true :=
  shiftBody_writesDestination.mem_wf hwf (rfl : shiftBody s d c = .ok (shiftL s d c))

end shift

/-! ### The single forms -/

/-- The places of a left shift cut to n bits: below k there is none to come from (44_shift.md R272). -/
theorem testBit_shiftLeft_cut (v k n j : Nat) :
    (v * 2 ^ k % 2 ^ n).testBit j = (decide (j < n) && decide (k ≤ j) && v.testBit (j - k)) := by
  rw [Nat.testBit_mod_two_pow, Nat.testBit_mul_two_pow, Bool.and_assoc]

/-- Settles O31: both are one write of a shifted value (`shiftL_onlyWrites`, `shiftR_onlyWrites`), by a count the spec
allows, and the places of a product and of a quotient by `2 ^ k` are those of the value, k further. -/
theorem shiftResults : Obligations.ShiftResults := by
  intro s d c ld lc h
  have hcount : ShiftCount s lc (readCount s lc).1 := shiftCount_readCount h.src_lt
  refine ⟨?left, ?right⟩
  case left =>
    obtain ⟨hread, hflags, hframe⟩ := shiftL_onlyWrites h.canonical h.writable lc
    refine ⟨_, _, hcount, (exec_sl d c s).trans (onOperands_of_resolve h.dst h.src), fun j => ?_, hflags, hframe⟩
    rw [hread]
    exact testBit_shiftLeft_cut ..
  case right =>
    obtain ⟨hread, hflags, hframe⟩ := shiftR_onlyWrites h.canonical h.writable lc
    refine ⟨_, _, hcount, (exec_sr d c s).trans (onOperands_of_resolve h.dst h.src), fun j => ?_, hflags, hframe⟩
    rw [hread]
    exact Nat.testBit_div_two_pow ..

/-! ### The block form -/

/-- Settles O32: the same body on a destination that has the form's width, however it was written. -/
theorem blockShiftResult : Obligations.BlockShiftResult := by
  intro s d c w dst lc h
  obtain ⟨-, hwritable, hbits⟩ := h.shape
  have hexec : exec (.slW d c w) s = .next (shiftL s dst lc) := block_of_resolve h.dst h.src
  rw [← hbits]
  exact ⟨rfl, _, _, shiftCount_readCount h.src_lt, hexec, shiftL_onlyWrites h.canonical hwritable lc⟩

/-! ### The repeat form -/

/-- Shifting by a and then by b, each cut to n bits, is shifting by their sum: what the first cut drops lies above n
after the second too (44_shift.md R276). -/
theorem shiftLeft_cut_shiftLeft_cut (v a b n : Nat) :
    v * 2 ^ a % 2 ^ n * 2 ^ b % 2 ^ n = v * 2 ^ (a + b) % 2 ^ n := by
  rw [Nat.mod_mul_mod, Nat.mul_assoc, ← Nat.pow_add]

/-- N iterations with an integer immediate: each reads the same count, so the shifts add up (44_shift.md R276). -/
theorem blockLoop_shiftBody_imm {ty : TypeCode} (hty : ty.isFloat = false) (k : Word) {dst : Loc}
    (hdst : dst.writable = true) (n : Nat) {s : State} (hwf : s.mem.wf = true) :
    OnlyWrites dst (readBits s dst * 2 ^ (n * (k.toNat % dst.bits)) % 2 ^ dst.bits) s
      (blockLoop shiftBody dst (.imm ty k) n s) := by
  induction n generalizing s with
  | zero =>
    rw [Nat.zero_mul, Nat.pow_zero, Nat.mul_one, Nat.mod_eq_of_lt (readBits_lt hdst)]
    exact .refl dst s
  | succ n ih =>
    have hfirst : OnlyWrites dst (readBits s dst * 2 ^ (k.toNat % dst.bits) % 2 ^ dst.bits) s
        (shiftL s dst (.imm ty k)) := by
      simpa only [readCount_imm hty] using shiftL_onlyWrites hwf hdst (.imm ty k)
    have hrest := ih (shiftL_mem_wf hwf dst (.imm ty k))
    rw [hfirst.1, shiftLeft_cut_shiftLeft_cut, Nat.add_comm, ← Nat.succ_mul] at hrest
    exact hfirst.trans hrest

/-- Settles O33: the repeat count is read once, and that many iterations are one shift (`blockLoop_shiftBody_imm`). -/
theorem repeatedShiftByImmediate : Obligations.RepeatedShiftByImmediate := by
  intro s d n ty k w dst c h hty _ hc
  obtain ⟨-, hwritable, hbits⟩ := h.shape
  have hexec : exec (.slWN d (.imm ty k) w n) s = .next (blockLoop shiftBody dst (.imm ty k) (readBits s c) s) :=
    blockRepeat_of_resolve h.dst h.src hc
  rw [← hbits]
  exact ⟨_, hexec, blockLoop_shiftBody_imm hty k hwritable (readBits s c) h.canonical⟩

end Sys2Proof.Machine
end

section
/-! PROOFS. DIV and SDIV (45_division.md): when the divisor is a zero, what the division body answers in each domain,
and from them the single forms, the forms with a remainder, the block form and the repeat form. -/

namespace Sys2Proof.Machine

/-! ### The forms -/

section divisionForms

variable (d x : Operand) (s : State)

theorem exec_divR (r : Operand) : exec (.divR d x r) s = divideRem false d x r s := rfl
theorem exec_sdivR (r : Operand) : exec (.sdivR d x r) s = divideRem true d x r s := rfl
theorem exec_divW (w : Width) : exec (.divW d x w) s = block (divStep false) d x w s := rfl
theorem exec_divWN (w : Width) (n : Operand) : exec (.divWN d x w n) s = blockRepeat (divStep false) d x w n s := rfl

variable {d x s} {r : Operand} {ld lx lr : Loc}

theorem blockLoop_of_error {body : Body} {f : FaultRecord} (hx : resolve s x = .ok lx) (hb : body s ld lx = .error f)
    {k : Nat} (hk : 1 ≤ k) : blockLoop body ld x k s = s.raiseFault f := by
  obtain ⟨k, rfl⟩ := Nat.exists_eq_add_of_le' hk
  simp only [blockLoop, hx, hb]

theorem blockLoop_of_ok {body : Body} {t : State} (hx : resolve s x = .ok lx) (hb : body s ld lx = .ok t) (k : Nat) :
    blockLoop body ld x (k + 1) s = blockLoop body ld x k t := by
  simp only [blockLoop, hx, hb]

theorem divideRem_of_error {signed : Bool} {f : FaultRecord} (hd : resolve s d = .ok ld) (hx : resolve s x = .ok lx)
    (hr : resolve s r = .ok lr) (hb : divBody signed s ld lx = .error f) :
    divideRem signed d x r s = .next (s.raiseFault f) := by
  simp only [divideRem, resolve3_ok hd hx hr, hb]

theorem divideRem_of_ok {signed : Bool} {t : State} {m : Int} (hd : resolve s d = .ok ld) (hx : resolve s x = .ok lx)
    (hr : resolve s r = .ok lr) (hb : divBody signed s ld lx = .ok (t, some m)) :
    divideRem signed d x r s = .next (writeNum t lr (.int m)) := by
  simp only [divideRem, resolve3_ok hd hx hr, hb]

end divisionForms

/-! ### The divisor -/

section divisor

variable {s : State} {l : Loc}

theorem readFloat_of_int (signed : Bool) (s : State) (h : l.isFloat = false) :
    readFloat signed s l = i2f (readInt signed s l) := by rw [readFloat, h]; rfl

theorem readFloat_of_float (signed : Bool) (s : State) (h : l.isFloat = true) :
    readFloat signed s l = readPattern s l := by rw [readFloat, h]; rfl

theorem zeroDivisor_of_int (s : State) (h : l.isFloat = false) : ZeroDivisor s l ↔ readBits s l = 0 := by
  simp [ZeroDivisor, h]

theorem zeroDivisor_of_float (s : State) (h : l.isFloat = true) :
    ZeroDivisor s l ↔ readPattern s l = 0 ∨ readPattern s l = 0x80000000 := by
  simp [ZeroDivisor, h]

/-- An int operand of at most 32 bits lies in the range of I2F, in either reading. -/
theorem natAbs_readInt_lt (signed : Bool) (hl : readBits s l < 2 ^ l.bits) : (readInt signed s l).natAbs < 2 ^ 32 := by
  have hwidth : 2 ^ l.bits ≤ 2 ^ 32 := Nat.pow_le_pow_right two_pos l.bits_le
  cases signed with
  | false => rw [readInt_unsigned]; omega
  | true =>
    have hcast : ((2 : Int) ^ l.bits) = ((2 ^ l.bits : Nat) : Int) := by push_cast; rfl
    have hhalf : 0 < 2 ^ (l.bits - 1) := Nat.two_pow_pos _
    simp only [readInt, sext, if_true, hcast]
    split <;> omega

theorem f32Fix_of_isZero {b : Word} (h : f32IsZero b = true) : f32Fix b = 0 := by
  rcases (f32IsZero_iff b).mp h with rfl | rfl <;> decide

/-- I2F of an integer other than 0 is no zero: 1 or -1 would be nearer than a zero is (40_engine.md R176). -/
theorem f32IsZero_i2f_iff {x : Int} (hx : x.natAbs < 2 ^ 32) : f32IsZero (i2f x) = true ↔ x = 0 := by
  refine ⟨fun hzero => ?_, fun h => by subst h; decide⟩
  by_contra hne
  have hsign : x.sign.natAbs = 1 := Int.natAbs_sign_of_ne_zero hne
  obtain ⟨hfin, -, hexact⟩ := intToFloatIsNearest x.sign (by omega)
  obtain ⟨-, hnear, -⟩ := intToFloatIsNearest x hx
  have hle := (hnear (i2f x.sign) hfin).1
  rw [f32Fix_of_isZero hzero, hexact (by omega)] at hle
  rcases Int.lt_or_gt_of_ne hne with hneg | hpos
  · rw [Int.sign_eq_neg_one_of_neg hneg] at hle; omega
  · rw [Int.sign_eq_one_of_pos hpos] at hle; omega

/-- The binary32 divisor is a zero exactly where the operand is one, also where it is converted (45_division.md R292,
R293). -/
theorem f32IsZero_readFloat_iff (signed : Bool) (hl : readBits s l < 2 ^ l.bits) :
    f32IsZero (readFloat signed s l) = true ↔ ZeroDivisor s l := by
  cases hf : l.isFloat with
  | false =>
    rw [readFloat_of_int _ _ hf, zeroDivisor_of_int _ hf, f32IsZero_i2f_iff (natAbs_readInt_lt signed hl),
      readInt_eq_zero hl]
  | true => rw [readFloat_of_float _ _ hf, zeroDivisor_of_float _ hf, f32IsZero_iff]

end divisor

/-! ### A zero divisor -/

section zeroDivisor

variable {lx : Loc}

/-- In either domain the body faults before it writes (45_division.md R293, R299). -/
theorem divBody_of_zeroDivisor (signed : Bool) (s : State) (ld : Loc) (hlx : readBits s lx < 2 ^ lx.bits)
    (hzero : ZeroDivisor s lx) : divBody signed s ld lx = .error (.divByZero s.pc) := by
  rcases divBody_cases signed s ld lx with ⟨-, -, -, e⟩ | ⟨-, hx, hne, -⟩ | ⟨-, -, e⟩ | ⟨-, hne, -⟩
  · exact e
  · exact absurd ((readInt_eq_zero hlx).mpr ((zeroDivisor_of_int s hx).mp hzero)) hne
  · exact e
  · rw [(f32IsZero_readFloat_iff signed hlx).mpr hzero] at hne; cases hne

theorem divStep_of_zeroDivisor (signed : Bool) (s : State) (ld : Loc) (hlx : readBits s lx < 2 ^ lx.bits)
    (hzero : ZeroDivisor s lx) : divStep signed s ld lx = .error (.divByZero s.pc) := by
  rw [divStep, divBody_of_zeroDivisor signed s ld hlx hzero]

end zeroDivisor

/-- Settles O19: the body faults on a zero divisor in either domain, and each form takes its fault. -/
theorem zeroDivisorFaults : Obligations.ZeroDivisorFaults := by
  refine ⟨fun s d x ld lx h hzero => ?single, fun s d x r ld lx lr h hzero => ?remainder,
    fun s d x w dst lx h hzero => ⟨?block, fun n c _ hc hpos => ?repeated⟩⟩
  case single =>
    have hfault (signed : Bool) : onOperands (divStep signed) d x s = .next (s.raiseFault (.divByZero s.pc)) := by
      rw [onOperands_of_resolve h.dst h.src, divStep_of_zeroDivisor signed s ld h.src_lt hzero]; rfl
    exact ⟨(exec_div d x s).trans (hfault false), (exec_sdiv d x s).trans (hfault true)⟩
  case remainder =>
    have hfault (signed : Bool) : divideRem signed d x r s = .next (s.raiseFault (.divByZero s.pc)) :=
      divideRem_of_error h.operands.dst h.operands.src h.rem
        (divBody_of_zeroDivisor signed s ld h.operands.src_lt hzero)
    exact ⟨(exec_divR d x s r).trans (hfault false), (exec_sdivR d x s r).trans (hfault true)⟩
  case block =>
    rw [exec_divW, block_of_resolve h.dst h.src, divStep_of_zeroDivisor false s dst h.src_lt hzero]; rfl
  case repeated =>
    rw [exec_divWN, blockRepeat_of_resolve h.dst h.src hc,
      blockLoop_of_error h.src (divStep_of_zeroDivisor false s dst h.src_lt hzero) hpos]
    rfl

/-! ### The quotient of integers -/

/-- The remainder of the quotient rounded toward zero is smaller than the divisor and has the dividend's sign
(45_division.md R290). -/
theorem truncatedDivision_tdiv (x : Int) {y : Int} (hy : y ≠ 0) :
    TruncatedDivision x y (x.tdiv y) (x - x.tdiv y * y) := by
  have hrem : x - x.tdiv y * y = x.tmod y := by rw [Int.tmod_def, Int.mul_comm]
  refine ⟨by omega, ?smaller, fun hne => ?sign⟩
  case smaller =>
    rw [hrem, Int.natAbs_tmod]
    exact Nat.mod_lt _ (Int.natAbs_pos.mpr hy)
  case sign =>
    rw [hrem] at hne ⊢
    rcases lt_or_ge x 0 with hneg | hpos
    · have : 0 ≤ (-x).tmod y := Int.tmod_nonneg y (by omega)
      rw [Int.neg_tmod] at this
      omega
    · have : 0 ≤ x.tmod y := Int.tmod_nonneg y hpos
      omega

/-- An unsigned quotient fits the dividend's width (45_division.md R297). -/
theorem residue_floorQuotient {n a : Nat} (ha : a < 2 ^ n) (b : Nat) : residue n (intQuotient false a b) = a / b := by
  have hquotient : intQuotient false (a : Int) (b : Int) = ((a / b : Nat) : Int) := by push_cast; rfl
  rw [hquotient, residue_natCast, Nat.mod_eq_of_lt ((Nat.div_le_self a b).trans_lt ha)]

theorem floorRemainder_eq (a b : Nat) : (a : Int) - intQuotient false a b * b = ((a % b : Nat) : Int) := by
  have hmod : (a : Int) % b = a - b * (a / b) := Int.emod_def ..
  push_cast
  rw [hmod, Int.mul_comm (b : Int)]
  rfl

/-! ### The quotient as it is written -/

theorem OnlyZeroSet.congr {s u t : State} {p q : Prop} (h : OnlyZeroSet u t p) (hflags : u.flags = s.flags)
    (hpq : p ↔ q) : OnlyZeroSet s t q := by
  obtain ⟨hrel, hzero⟩ := h
  exact ⟨(SameRelational.of_flags hflags).trans hrel, hzero.trans hpq⟩

theorem wroteZero_of_int {l : Loc} (h : l.isFloat = false) (v : Nat) : wroteZero l v = true ↔ v = 0 := by
  simp [wroteZero, h]

theorem wroteZero_of_float {l : Loc} (h : l.isFloat = true) (f : Word) :
    wroteZero l f.toNat = true ↔ f = 0 ∨ f = 0x80000000 := by
  rw [← f32IsZero_iff]
  simp [wroteZero, h]

/-! ### Integer division -/

/-- What an integer division needs to complete: an int destination that can be written, and an int divisor within its
width that is not 0 (45_division.md R292, R293). -/
structure IntDivides (s : State) (ld lx : Loc) : Prop where
  canonical : s.mem.wf = true
  writable : ld.writable = true
  dstInt : ld.isFloat = false
  srcInt : lx.isFloat = false
  src_lt : readBits s lx < 2 ^ lx.bits
  nonzero : readBits s lx ≠ 0

/-- The quotient of the body, before it is cut to the destination's width (45_division.md R290). -/
def quotientOf (signed : Bool) (s : State) (ld lx : Loc) : Int :=
  intQuotient signed (readInt signed s ld) (readInt signed s lx)

/-- The remainder of the body (45_division.md R290). -/
def remainderOf (signed : Bool) (s : State) (ld lx : Loc) : Int :=
  readInt signed s ld - quotientOf signed s ld lx * readInt signed s lx

/-- `l` holds `v` after, Zero says whether `v` is 0, and nothing besides them has changed (45_division.md R291). -/
structure HoldsQuotient (l : Loc) (v : Nat) (s t : State) : Prop where
  value : readBits t l = v
  zero : OnlyZeroSet s t (v = 0)
  frame : l.Frame s t

theorem HoldsQuotient.zero_iff_read {l : Loc} {v : Nat} {s t : State} (h : HoldsQuotient l v s t) :
    OnlyZeroSet s t (readBits t l = 0) := by rw [h.value]; exact h.zero

section intDivides

variable {s : State} {ld lx : Loc}

theorem holdsQuotient_writeQuotient (hwf : s.mem.wf = true) (hw : ld.writable = true) (hd : ld.isFloat = false)
    (q : Int) : HoldsQuotient ld (residue ld.bits q) s (writeQuotient s ld (.int q)) := by
  obtain ⟨hvalue, hframe, hzero⟩ := writeQuotient_spec hwf hw (.int q)
  rw [numBits_int_of_int s q hd] at hvalue hzero
  exact ⟨hvalue, hzero.congr rfl (wroteZero_of_int hd _), hframe⟩

theorem IntDivides.divBody_eq (h : IntDivides s ld lx) (signed : Bool) :
    divBody signed s ld lx =
      .ok (writeQuotient s ld (.int (quotientOf signed s ld lx)), some (remainderOf signed s ld lx)) := by
  have hne : readInt signed s lx ≠ 0 := fun e => h.nonzero ((readInt_eq_zero h.src_lt).mp e)
  rcases divBody_cases signed s ld lx with ⟨-, -, hz, -⟩ | ⟨-, -, -, e⟩ | ⟨hf, -⟩ | ⟨hf, -⟩
  · exact absurd hz hne
  · exact e
  all_goals simp [h.dstInt, h.srcInt] at hf

theorem IntDivides.divStep_ok (h : IntDivides s ld lx) (signed : Bool) :
    ∃ t, divStep signed s ld lx = .ok t ∧ HoldsQuotient ld (residue ld.bits (quotientOf signed s ld lx)) s t :=
  ⟨_, by rw [divStep, h.divBody_eq signed], holdsQuotient_writeQuotient h.canonical h.writable h.dstInt _⟩

theorem IntDivides.residue_unsigned (h : IntDivides s ld lx) :
    residue ld.bits (quotientOf false s ld lx) = readBits s ld / readBits s lx :=
  residue_floorQuotient (readBits_lt h.writable) _

theorem IntDivides.truncatedDivision (h : IntDivides s ld lx) :
    TruncatedDivision (BitVec.ofNat ld.bits (readBits s ld)).toInt (BitVec.ofNat lx.bits (readBits s lx)).toInt
      (quotientOf true s ld lx) (remainderOf true s ld lx) := by
  rw [← readInt_signed (readBits_lt h.writable), ← readInt_signed h.src_lt]
  exact truncatedDivision_tdiv _ fun e => h.nonzero ((readInt_eq_zero h.src_lt).mp e)

end intDivides

section intForms

variable {s : State} {d x r : Operand} {w : Width} {ld lx lr : Loc}

theorem Ready.intDivides (h : Ready .loc .any s d x ld lx) (hd : ld.isFloat = false) (hx : lx.isFloat = false)
    (hne : readBits s lx ≠ 0) : IntDivides s ld lx :=
  ⟨h.canonical, h.writable, hd, hx, h.src_lt, hne⟩

theorem ReadyRem.intDivides (h : ReadyRem s d x r ld lx lr) (hne : readBits s lx ≠ 0) : IntDivides s ld lx := by
  obtain ⟨hwritable, hd, hx, -⟩ := h.facts
  exact ⟨h.operands.canonical, hwritable, hd, hx, h.operands.src_lt, hne⟩

theorem ReadyBlock.intDivides (h : ReadyBlock s d x w ld lx) (hx : lx.isFloat = false) (hne : readBits s lx ≠ 0) :
    IntDivides s ld lx := by
  obtain ⟨hd, hwritable, -⟩ := h.shape
  exact ⟨h.canonical, hwritable, hd, hx, h.src_lt, hne⟩

end intForms

/-- Settles O34: the quotient of the body fits the destination. -/
theorem divIntegerResult : Obligations.DivIntegerResult := by
  intro s d x ld lx h hd hx hne
  have hdiv := h.intDivides hd hx hne
  obtain ⟨t, ht, hq⟩ := hdiv.divStep_ok false
  have hexec : exec (.div d x) s = .next t := by rw [exec_div, onOperands_of_resolve h.dst h.src, ht]; rfl
  rw [hdiv.residue_unsigned] at hq
  exact ⟨t, hexec, hq.value, hq.zero_iff_read, hq.frame⟩

/-- Settles O35: the body's signed quotient and remainder are those of the truncated division. -/
theorem sdivIntegerResult : Obligations.SdivIntegerResult := by
  intro s d x ld lx h hd hx hne
  have hdiv := h.intDivides hd hx hne
  obtain ⟨t, ht, hq⟩ := hdiv.divStep_ok true
  have hexec : exec (.sdiv d x) s = .next t := by rw [exec_sdiv, onOperands_of_resolve h.dst h.src, ht]; rfl
  exact ⟨t, _, _, hexec, hdiv.truncatedDivision, by rw [hq.value, residue_cast], hq.zero_iff_read,
    hq.frame⟩

/-- Settles O40: the same body on a destination that has the form's width. -/
theorem blockDivisionResult : Obligations.BlockDivisionResult := by
  intro s d x w dst lx h hx hne
  have hdiv := h.intDivides hx hne
  obtain ⟨-, -, hbits⟩ := h.shape
  obtain ⟨t, ht, hq⟩ := hdiv.divStep_ok false
  have hexec : exec (.divW d x w) s = .next t := by rw [exec_divW, block_of_resolve h.dst h.src, ht]; rfl
  rw [hdiv.residue_unsigned] at hq
  exact ⟨hbits, t, hexec, hq.value, hq.zero_iff_read, hq.frame⟩

/-! ### The forms with a remainder -/

section remainder

variable {s u t : State} {ld lr : Loc}

theorem holdsRemainder_writeNum (hwf : u.mem.wf = true) (hr : lr.writable = true) (m : Int) :
    HoldsRemainder (writeNum u lr (.int m)) lr m := by
  obtain ⟨hvalue, -⟩ := writeNum_spec hwf hr (.int m)
  refine ⟨fun hint => ?_, fun hfloat => readPattern_of_readBits ?_⟩
  · rw [hvalue, numBits_int_of_int _ _ hint, residue_cast]
  · rw [hvalue, numBits_int_of_float _ _ hfloat]

/-- Of a Location that was read as `v`, what is written to another one leaves every byte outside that one
(45_division.md R296). -/
theorem holdsBytesOutside_of_frame {v : Nat} (hv : readBits u ld = v) (h : lr.Frame u t) :
    HoldsBytesOutside t ld lr v := by
  subst hv
  refine ⟨fun i w hld k hk hout => ?_, fun ea ty hld k hk hout => ?_⟩ <;> subst hld
  · rw [h.regs _ hout, u.readReg_of_readChain i _ k hk]; rfl
  · rw [h.bytes _ hout, u.read_of_load ea _ k hk]; rfl

theorem Loc.Frame.trans_frame2 (h : ld.Frame s u) (k : lr.Frame u t) : ld.Frame2 lr s t :=
  (h.mono (fun _ => .inl) (fun _ => .inl) fun _ => .inl).trans (k.mono (fun _ => .inr) (fun _ => .inr) fun _ => .inr)

end remainder

/-- What a form with a remainder leaves for the value `v` written to `ld` and the remainder `m` (45_division.md R291,
R296). -/
structure HoldsQuotientRem (ld lr : Loc) (v : Nat) (m : Int) (s t : State) : Prop where
  remainder : HoldsRemainder t lr m
  value : lr.Disjoint ld → readBits t ld = v
  bytes : HoldsBytesOutside t ld lr v
  zero : OnlyZeroSet s t (v = 0)
  frame : ld.Frame2 lr s t

/-- The quotient is written first, and the remainder over it (45_division.md R295, R296, R301). -/
theorem ReadyRem.divideRem_ok {s : State} {d x r : Operand} {ld lx lr : Loc} (h : ReadyRem s d x r ld lx lr)
    (hne : readBits s lx ≠ 0) (signed : Bool) :
    ∃ t, divideRem signed d x r s = .next t ∧
      HoldsQuotientRem ld lr (residue ld.bits (quotientOf signed s ld lx)) (remainderOf signed s ld lx) s t := by
  have hdiv := h.intDivides hne
  obtain ⟨-, -, -, hr⟩ := h.facts
  refine ⟨_, divideRem_of_ok h.operands.dst h.operands.src h.rem (hdiv.divBody_eq signed), ?_⟩
  have hq := holdsQuotient_writeQuotient hdiv.canonical hdiv.writable hdiv.dstInt (quotientOf signed s ld lx)
  set u := writeQuotient s ld (.int (quotientOf signed s ld lx))
  have hwf : u.mem.wf = true := writeNum_mem_wf hdiv.canonical ld _
  obtain ⟨-, hframe⟩ := writeNum_spec hwf hr (.int (remainderOf signed s ld lx))
  obtain ⟨hrel, hzero⟩ := hq.zero
  exact {
    remainder := holdsRemainder_writeNum hwf hr _
    value := fun hdisjoint => (readBits_of_frame hframe hdisjoint).trans hq.value
    bytes := holdsBytesOutside_of_frame hq.value hframe
    zero := ⟨hrel.trans (.of_flags (writeNum_flags ..)), by rw [writeNum_flags]; exact hzero⟩
    frame := hq.frame.trans_frame2 hframe }

/-- Settles O36: the body's unsigned quotient and remainder are those of natural numbers. -/
theorem divRemainderResult : Obligations.DivRemainderResult := by
  intro s d x r ld lx lr h hne
  obtain ⟨t, ht, hq⟩ := h.divideRem_ok hne false
  have hrem : remainderOf false s ld lx = ((readBits s ld % readBits s lx : Nat) : Int) := floorRemainder_eq ..
  rw [(h.intDivides hne).residue_unsigned, hrem] at hq
  exact ⟨t, (exec_divR d x s r).trans ht, hq.remainder, hq.value, hq.bytes, hq.zero, hq.frame⟩

/-- Settles O37: the body's signed quotient and remainder are those of the truncated division. -/
theorem sdivRemainderResult : Obligations.SdivRemainderResult := by
  intro s d x r ld lx lr h hne
  obtain ⟨t, ht, hq⟩ := h.divideRem_ok hne true
  have hcast := residue_cast ld.bits (quotientOf true s ld lx)
  refine ⟨t, _, _, (exec_sdivR d x s r).trans ht, (h.intDivides hne).truncatedDivision, hq.remainder,
    fun hdisjoint => ?value, hq.bytes, ?zero, hq.frame⟩
  case value => rw [hq.value hdisjoint, hcast]
  case zero => rw [← hcast, Int.natCast_eq_zero]; exact hq.zero

/-! ### Float division -/

theorem not_isZero_of_nan {b : Word} (h : f32IsNaN b = true) : ¬(b = 0 ∨ b = 0x80000000) := by
  rintro (rfl | rfl) <;> revert h <;> decide

theorem floatQuotient_of_some (s : State) {fa fb q : Word} (h : f32Div fa fb = some q) :
    floatQuotient s fa fb = (q, s) := by rw [floatQuotient, h]

theorem floatQuotient_of_none (s : State) {fa fb : Word} (h : f32Div fa fb = none) :
    floatQuotient s fa fb = (f32NaNOf s.draw.1, s.draw.2) := by rw [floatQuotient, h]

/-- What a float-domain division needs to complete (45_division.md R292, R293). -/
structure FloatDivides (s : State) (ld lx : Loc) : Prop where
  canonical : s.mem.wf = true
  writable : ld.writable = true
  domain : ld.isFloat = true ∨ lx.isFloat = true
  src_lt : readBits s lx < 2 ^ lx.bits
  nonzero : ¬ZeroDivisor s lx

/-- The state after the binary32 quotient of `fa` and `fb` is written to `l` (45_division.md R299). -/
def writeFloatQuotient (s : State) (l : Loc) (fa fb : Word) : State :=
  writeQuotient (floatQuotient s fa fb).2 l (.flt (floatQuotient s fa fb).1)

section floatDivides

variable {s : State} {ld lx : Loc}

theorem FloatDivides.divStep_eq (h : FloatDivides s ld lx) (signed : Bool) :
    divStep signed s ld lx = .ok (writeFloatQuotient s ld (readFloat signed s ld) (readFloat signed s lx)) := by
  have hdomain : (ld.isFloat || lx.isFloat) = true := by simpa using h.domain
  rcases divBody_cases signed s ld lx with ⟨hd, hx, -⟩ | ⟨hd, hx, -⟩ | ⟨-, hz, -⟩ | ⟨-, -, e⟩
  · simp [hd, hx] at hdomain
  · simp [hd, hx] at hdomain
  · exact absurd ((f32IsZero_readFloat_iff signed h.src_lt).mp hz) h.nonzero
  · rw [divStep, e]; rfl

variable (hwf : s.mem.wf = true) (hw : ld.writable = true)
include hwf hw

/-- A draw for the pattern of a NaN shows in no Location and no flag. -/
theorem writeFloatQuotient_spec {fa fb q : Word} {u : State} (hq : floatQuotient s fa fb = (q, u)) :
    readBits (writeFloatQuotient s ld fa fb) ld = (numBits u ld (.flt q)).1 ∧
      ld.Frame s (writeFloatQuotient s ld fa fb) ∧
      OnlyZeroSet s (writeFloatQuotient s ld fa fb) (wroteZero ld (numBits u ld (.flt q)).1 = true) := by
  obtain ⟨hmem, hflags, hregs, hfregs⟩ := floatQuotient_mem s fa fb
  have hsteady := floatQuotient_steady s fa fb
  rw [hq] at hmem hflags hregs hfregs hsteady
  obtain ⟨hvalue, hframe, hzero⟩ := writeQuotient_spec (by rw [hmem]; exact hwf) hw (.flt q)
  rw [writeFloatQuotient, hq]
  exact ⟨hvalue, (UnchangedOutside.refl hregs hfregs hmem hsteady.pc hsteady.status hsteady.memSize).trans hframe,
    hzero.congr hflags Iff.rfl⟩

/-- A float destination takes the pattern (40_engine.md R175, 45_division.md R291). -/
theorem writeFloatQuotient_of_float (hd : ld.isFloat = true) {fa fb q : Word} {u : State}
    (hq : floatQuotient s fa fb = (q, u)) :
    readPattern (writeFloatQuotient s ld fa fb) ld = q ∧
      OnlyZeroSet s (writeFloatQuotient s ld fa fb) (q = 0 ∨ q = 0x80000000) := by
  obtain ⟨hvalue, -, hzero⟩ := writeFloatQuotient_spec hwf hw hq
  rw [numBits_flt_of_float _ _ hd] at hvalue hzero
  exact ⟨readPattern_of_readBits hvalue, hzero.congr rfl (wroteZero_of_float hd _)⟩

theorem holdsFloatQuotient_writeFloatQuotient (fa fb : Word) :
    HoldsFloatQuotient s (writeFloatQuotient s ld fa fb) ld fa fb := by
  refine ⟨fun q hq => ⟨fun hd => ?pattern, fun hd hfin hrange => ?truncated⟩, fun hnone hd => ?nan,
    fun hd => ?zero⟩
  case pattern => exact writeFloatQuotient_of_float hwf hw hd (floatQuotient_of_some s hq)
  case truncated =>
    obtain ⟨hvalue, -, -⟩ := writeFloatQuotient_spec hwf hw (floatQuotient_of_some s hq)
    rw [hvalue, numBits_flt_of_int _ _ hd, f2i_of_finite _ _ hfin hrange, residue_cast]
  case nan =>
    obtain ⟨hpattern, hzero⟩ := writeFloatQuotient_of_float hwf hw hd (floatQuotient_of_none s hnone)
    have hnan := f32IsNaN_f32NaNOf s.draw.1
    exact ⟨by rw [hpattern, hnan], hzero.congr rfl (iff_false_intro (not_isZero_of_nan hnan))⟩
  case zero =>
    obtain ⟨hvalue, -, hzero⟩ := writeFloatQuotient_spec (fa := fa) (fb := fb) hwf hw rfl
    rw [hvalue]
    exact hzero.congr rfl (wroteZero_of_int hd _)

end floatDivides

theorem FloatDivides.divStep_ok {s : State} {ld lx : Loc} (h : FloatDivides s ld lx) (signed : Bool) :
    ∃ t, divStep signed s ld lx = .ok t ∧ ld.Frame s t ∧
      HoldsFloatQuotient s t ld (readFloat signed s ld) (readFloat signed s lx) := by
  obtain ⟨-, hframe, -⟩ := writeFloatQuotient_spec (fa := readFloat signed s ld) (fb := readFloat signed s lx)
    h.canonical h.writable rfl
  exact ⟨_, h.divStep_eq signed, hframe, holdsFloatQuotient_writeFloatQuotient h.canonical h.writable _ _⟩

/-- Settles O38: the same body in the two single forms and the block form. -/
theorem floatDivisionResult : Obligations.FloatDivisionResult := by
  refine ⟨fun s d x ld lx h hdomain hne => ?single, fun s d x w dst lx h hx hne => ?block⟩
  case single =>
    have hdiv : FloatDivides s ld lx := ⟨h.canonical, h.writable, hdomain, h.src_lt, hne⟩
    have hexec (signed : Bool) : ∃ t, onOperands (divStep signed) d x s = .next t ∧ ld.Frame s t ∧
        HoldsFloatQuotient s t ld (readFloat signed s ld) (readFloat signed s lx) := by
      obtain ⟨t, ht, hframe, hq⟩ := hdiv.divStep_ok signed
      exact ⟨t, by rw [onOperands_of_resolve h.dst h.src, ht]; rfl, hframe, hq⟩
    exact ⟨hexec false, hexec true⟩
  case block =>
    obtain ⟨-, hwritable, -⟩ := h.shape
    have hdiv : FloatDivides s dst lx := ⟨h.canonical, hwritable, .inr hx, h.src_lt, hne⟩
    obtain ⟨t, ht, hframe, hq⟩ := hdiv.divStep_ok false
    exact ⟨t, by rw [exec_divW, block_of_resolve h.dst h.src, ht]; rfl, hframe, hq⟩

/-! ### The repeat form -/

/-- What N iterations by the divisor `y` leave: with none of them nothing has changed, and Zero is the last one's
(45_division.md R291, R305). -/
structure HoldsRepeatedQuotient (l : Loc) (y n : Nat) (s t : State) : Prop where
  value : readBits t l = readBits s l / y ^ n
  none : n = 0 → t = s
  zero : 1 ≤ n → OnlyZeroSet s t (readBits t l = 0)
  frame : l.Frame s t

section repeated

variable {l : Loc} {y n : Nat} {s t u : State}

theorem HoldsRepeatedQuotient.refl (l : Loc) (y : Nat) (s : State) : HoldsRepeatedQuotient l y 0 s s where
  value := by rw [Nat.pow_zero, Nat.div_one]
  none _ := rfl
  zero h := absurd h (by decide)
  frame := .refl rfl rfl rfl rfl rfl rfl

/-- One iteration before n more: the divisors multiply, and the first one's Zero stays only where no other follows. -/
theorem HoldsQuotient.trans_repeated (h : HoldsQuotient l (readBits s l / y) s u)
    (k : HoldsRepeatedQuotient l y n u t) : HoldsRepeatedQuotient l y (n + 1) s t where
  value := by rw [k.value, h.value, Nat.div_div_eq_div_mul, ← Nat.pow_succ']
  none e := by cases e
  zero _ := by
    rcases Nat.eq_zero_or_pos n with hn | hn
    · rw [k.none hn, h.value]; exact h.zero
    · obtain ⟨hfirst, -⟩ := h.zero
      obtain ⟨hrel, hzero⟩ := k.zero hn
      exact ⟨hfirst.trans hrel, hzero⟩
  frame := h.frame.trans k.frame

end repeated

/-- N iterations with an integer immediate: each resolves to the same divisor and completes (45_division.md R305). -/
theorem blockLoop_divStep_imm {dst : Loc} {ty : TypeCode} {y : Word} (n : Nat) {s : State}
    (h : IntDivides s dst (.imm ty y)) :
    HoldsRepeatedQuotient dst y.toNat n s (blockLoop (divStep false) dst (.imm ty y) n s) := by
  induction n generalizing s with
  | zero => exact .refl dst y.toNat s
  | succ n ih =>
    obtain ⟨u, hu, hq⟩ := h.divStep_ok false
    rw [h.residue_unsigned] at hq
    have hwf : u.mem.wf = true :=
      WritesDestination.mem_wf (body := divStep false) (divStep_writesDestination false) h.canonical hu
    have hnext : IntDivides u dst (.imm ty y) := { h with canonical := hwf }
    rw [blockLoop_of_ok rfl hu]
    exact hq.trans_repeated (ih hnext)

/-- Settles O41: the repeat count is read once, and that many iterations divide by the power. -/
theorem repeatedDivisionByImmediate : Obligations.RepeatedDivisionByImmediate := by
  intro s d n ty y w dst c h hty hy _ hc
  have hne : y.toNat ≠ 0 := fun e => hy (BitVec.eq_of_toNat_eq e)
  have hq := blockLoop_divStep_imm (readBits s c) (h.intDivides hty hne)
  exact ⟨_, (exec_divWN d _ s w n).trans (blockRepeat_of_resolve h.dst h.src hc), hq.value, hq.none, hq.zero, hq.frame⟩

end Sys2Proof.Machine
end

section
/-! PROOFS. RGB2HSB (46_fixed_function.md): the instruction is one write of its destination, whatever the open parameter
`RGB2HSB_FN` is. -/

namespace Sys2Proof.Machine

/-- A Location holds what is written to it cut to its width, and the write shows nowhere else. -/
theorem writeBits_onlyWrites {s : State} (hwf : s.mem.wf = true) {l : Loc} (hl : l.writable = true) (v : Nat) :
    OnlyWrites l (v % 2 ^ l.bits) s (writeBits s l v) :=
  ⟨readBits_writeBits hwf hl v, writeBits_flags s l v, writeBits_frame hwf l v⟩

theorem exec_rgb2hsb_of_resolve {s : State} {d x : Operand} {ld lx : Loc} (hd : resolve s d = .ok ld)
    (hx : resolve s x = .ok lx) : exec (.rgb2hsb d x) s =
      .next (writeBits s ld (Config.rgb2hsbFn (BitVec.ofNat 24 (readBits s lx))).toNat) := by
  rw [exec_rgb2hsb, onOperands_of_resolve hd hx]; rfl

/-- Settles O44: a destination of the class LOC is writable, and the instruction writes it once
(`writeBits_onlyWrites`). -/
theorem rgb2hsbMovesBits : Obligations.Rgb2hsbMovesBits := by
  intro s d x ld lx h
  exact ⟨_, exec_rgb2hsb_of_resolve h.dst h.src, writeBits_onlyWrites h.canonical h.writable _⟩

end Sys2Proof.Machine
end

section
/-! PROOFS. Faults of fetching and decoding (60_exceptions.md R333, R334, R343): how far each decoding stage looks before
it stops (`StopsWithin`), and from it which byte a fetch faults at. -/

namespace Sys2Proof

/-! ### Stages that stop at their first bad byte -/

/-- A stage that answers a value has looked at the bytes it takes, at most `m`, and at no other. -/
def TakesAtMost {α : Type} (m : Nat) (take : List Byte → Decoded α) : Prop :=
  ∀ bs a rest, take bs = .ok (a, rest) →
    ∃ pre, bs = pre ++ rest ∧ pre.length ≤ m ∧ ∀ more, take (pre ++ more) = .ok (a, more)

/-- A stage that rejects has looked at no more than `n` bytes (30_encoding.md R124): it lacks a byte only where there
are fewer, and what it finds illegal is decided by bytes at the head, whatever follows them. -/
structure StopsWithin {α : Type} (n : Nat) (take : List Byte → Decoded α) : Prop where
  truncated : ∀ {bs}, take bs = .error .truncated → bs.length < n
  illegal : ∀ {bs e}, take bs = .error e → e ≠ .truncated →
    ∃ pre rest, bs = pre ++ rest ∧ pre.length ≤ n ∧ ∀ more, take (pre ++ more) = .error e

section stages

variable {α β : Type} {take : List Byte → Decoded α} {m n k N : Nat}

theorem Reads.takesAtMost {good : α → Bool} {enc : α → List Byte} (h : Reads take good enc)
    (hm : ∀ a, good a = true → (enc a).length ≤ m) : TakesAtMost m take := by
  intro bs a rest hbs
  obtain ⟨ha, rfl⟩ := (h bs a rest).1 hbs
  exact ⟨enc a, rfl, hm a ha, fun more => (h _ a more).2 ⟨ha, rfl⟩⟩

theorem StopsWithin.mono (h : StopsWithin n take) (hN : n ≤ N) : StopsWithin N take where
  truncated hbs := (h.truncated hbs).trans_le hN
  illegal hbs he := by
    obtain ⟨pre, rest, rfl, hlen, hpre⟩ := h.illegal hbs he
    exact ⟨pre, rest, rfl, hlen.trans hN, hpre⟩

theorem stopsWithin_ok (a : α) : StopsWithin 0 fun bs => .ok (a, bs) where
  truncated h := by cases h
  illegal h := by cases h

theorem stopsWithin_error {e : DecodeError} (he : e ≠ .truncated) :
    StopsWithin n fun _ => (.error e : Decoded α) where
  truncated h := absurd (Except.error.inj h) he
  illegal h _ := ⟨[], _, rfl, Nat.zero_le n, fun _ => h⟩

theorem StopsWithin.ite {p : Prop} [Decidable p] {take₂ : List Byte → Decoded α} (h : StopsWithin n take)
    (h₂ : StopsWithin n take₂) : StopsWithin n fun bs => if p then take bs else take₂ bs := by
  split
  · exact h
  · exact h₂

/-- A stage that fetches one byte first. -/
theorem StopsWithin.byte (hnil : take [] = .error .truncated) (h : ∀ b, StopsWithin n fun bs => take (b :: bs)) :
    StopsWithin (n + 1) take where
  truncated {bs} hbs := by
    cases bs with
    | nil => exact Nat.succ_pos n
    | cons b bs => exact Nat.succ_lt_succ ((h b).truncated hbs)
  illegal {bs e} hbs he := by
    cases bs with
    | nil => exact absurd (Except.error.inj (hbs.symm.trans hnil)) he
    | cons b bs =>
      obtain ⟨pre, rest, rfl, hlen, hpre⟩ := (h b).illegal hbs he
      exact ⟨b :: pre, rest, rfl, Nat.succ_le_succ hlen, hpre⟩

/-- Stages in sequence: the second looks past the at most `m` bytes the first takes. -/
theorem StopsWithin.andThen {f : α → List Byte → Decoded β} {take' : List Byte → Decoded β} (h : StopsWithin n take)
    (hm : TakesAtMost m take) (hf : ∀ a, StopsWithin k (f a)) (he : ∀ bs, take' bs = (take bs).andThen f)
    (hn : n ≤ N := by omega) (hk : m + k ≤ N := by omega) : StopsWithin N take' where
  truncated {bs} hbs := by
    rw [he] at hbs
    cases ht : take bs with
    | error e =>
      rw [ht] at hbs; cases hbs
      exact (h.truncated ht).trans_le hn
    | ok p =>
      obtain ⟨pre, rfl, hlen, -⟩ := hm _ _ _ ht
      rw [ht] at hbs
      have := (hf p.1).truncated hbs
      rw [List.length_append]; omega
  illegal {bs e} hbs hne := by
    rw [he] at hbs
    cases ht : take bs with
    | error e' =>
      rw [ht] at hbs; cases hbs
      obtain ⟨pre, rest, rfl, hlen, hpre⟩ := h.illegal ht hne
      exact ⟨pre, rest, rfl, hlen.trans hn, fun more => by rw [he, hpre]; rfl⟩
    | ok p =>
      obtain ⟨pre, rfl, hlen, hpre⟩ := hm _ _ _ ht
      rw [ht] at hbs
      obtain ⟨pre₂, rest, e₂, hlen₂, hpre₂⟩ := (hf p.1).illegal hbs hne
      refine ⟨pre ++ pre₂, rest, by rw [e₂, List.append_assoc], by rw [List.length_append]; omega, fun more => ?_⟩
      rw [he, List.append_assoc, hpre]
      exact hpre₂ more

/-- Building a value from what a stage answers needs no byte. -/
theorem StopsWithin.map (h : StopsWithin n take) (hm : TakesAtMost m take) {g : α → β} {take' : List Byte → Decoded β}
    (he : ∀ bs, take' bs = (take bs).map g) (hmn : m ≤ n := by omega) : StopsWithin n take' :=
  h.andThen hm (fun a => stopsWithin_ok (g a)) he

end stages

/-! ### Each stage as a sequence of stages -/

section equations

variable (t : TypeCode) (size : Width) (bs : List Byte)

theorem takePointer_eq : takePointer bs =
    (takeChain bs).andThen fun c bs => if c.isPointer then .ok (c, bs) else .error .badPointerWidth := by
  grind [takePointer, Decoded.andThen]

theorem takeImm_eq : takeImm t bs = (takeWord t.size bs).map (.imm t) := by
  grind [takeImm, Decoded.map, Decoded.andThen]

theorem takeMabs_eq : takeMabs t bs = (takeWord 3 bs).map (.mabs t) := by
  grind [takeMabs, Decoded.map, Decoded.andThen]

theorem takeMabsOff_eq : takeMabsOff t size bs =
    (takeWord 3 bs).andThen fun a bs => (takeWord size.bytes bs).map (.mabsOff t a size) := by
  grind [takeMabsOff, Decoded.map, Decoded.andThen]

theorem takeMabsReg_eq : takeMabsReg t bs =
    (takeWord 3 bs).andThen fun a bs => (takePointer bs).map (.mabsReg t a) := by
  grind [takeMabsReg, Decoded.map, Decoded.andThen]

theorem takeMptr_eq : takeMptr t bs = (takePointer bs).map (.mptr t) := by
  grind [takeMptr, Decoded.map, Decoded.andThen]

theorem takeMptrOff_eq : takeMptrOff t size bs =
    (takePointer bs).andThen fun p bs => (takeWord size.bytes bs).map (.mptrOff t p size) := by
  grind [takeMptrOff, Decoded.map, Decoded.andThen]

theorem takeMptrReg_eq : takeMptrReg t bs =
    (takePointer bs).andThen fun p bs => (takePointer bs).map (.mptrReg t p) := by
  grind [takeMptrReg, Decoded.map, Decoded.andThen]

theorem takeSlot_eq (c : SlotClass) : takeSlot c bs =
    (takeOperand bs).andThen fun o bs => if c.accepts o then .ok (o, bs) else .error .wrongClass := by
  grind [takeSlot, Decoded.andThen]

theorem takeSpec_eq : takeSpec bs = (takeOperand bs).andThen fun o bs =>
    (specOfOperand o).elim (.error .badWidthSpec) fun w => .ok (w, bs) := by
  grind [takeSpec, Decoded.andThen]

theorem takeF2_eq (mk : Operand → Operand → Instr) (c₁ c₂ : SlotClass) : takeF2 mk c₁ c₂ bs =
    (takeSlot c₁ bs).andThen fun a bs => (takeSlot c₂ bs).map (mk a) := by
  grind [takeF2, Decoded.map, Decoded.andThen]

theorem takeF3R_eq (mk : Operand → Operand → Operand → Instr) : takeF3R mk bs =
    (takeSlot .iloc bs).andThen fun a bs => takeF2 (mk a) .isrc .loc bs := by
  grind [takeF3R, takeF2, Decoded.andThen]

theorem takeF3W_eq (mk : Operand → Operand → Width → Instr) : takeF3W mk bs =
    (takeSlot .bdest bs).andThen fun a bs => (takeSlot .any bs).andThen fun b bs =>
      (takeSpec bs).map (mk a b) := by
  grind [takeF3W, Decoded.map, Decoded.andThen]

theorem takeF4WN_eq (mk : Operand → Operand → Width → Operand → Instr) : takeF4WN mk bs =
    (takeSlot .bdest bs).andThen fun a bs => (takeSlot .any bs).andThen fun b bs =>
      (takeSpec bs).andThen fun w bs => (takeSlot .cnt bs).map (mk a b w) := by
  unfold takeF4WN Decoded.map Decoded.andThen
  repeat' split <;> simp_all only

end equations

/-! ### The stages of a descriptor -/

theorem takesAtMost_takeWord {n : Nat} (hn : n ≤ 4) : TakesAtMost n (takeWord n) :=
  (takeWord_reads hn).takesAtMost fun _ _ => (beBytes_length _ _).le

theorem takesAtMost_takeChain : TakesAtMost 1 takeChain := takeChain_reads.takesAtMost fun _ _ => Nat.le_refl 1

theorem takesAtMost_takeFloatReg : TakesAtMost 1 takeFloatReg :=
  takeFloatReg_reads.takesAtMost fun _ _ => Nat.le_refl 1

theorem takesAtMost_takePointer : TakesAtMost 1 takePointer := takePointer_reads.takesAtMost fun _ _ => Nat.le_refl 1

theorem takesAtMost_takeOperand : TakesAtMost 7 takeOperand :=
  takeOperand_reads.takesAtMost fun o h => (encodeOperand_length o).trans_le (Operand.length_le h)

/-- A literal lacks a byte or is read: no byte of it is illegal (30_encoding.md R118, R119). -/
theorem stopsWithin_takeWord (n : Nat) : StopsWithin n (takeWord n) := by
  have hword {bs : List Byte} {e : DecodeError} (h : takeWord n bs = .error e) : takeNum n bs = .error e := by
    unfold takeWord at h
    split at h <;> cases h
    assumption
  exact ⟨fun h => (takeNum_error (hword h)).2, fun h he => absurd (takeNum_error (hword h)).1 he⟩

theorem chainOfByte_error {b : Byte} {e : DecodeError} (h : chainOfByte b = .error e) : e = .badRegister := by
  unfold chainOfByte at h
  split at h
  · split at h <;> cases h
    rfl
  · cases h; rfl

theorem stopsWithin_takeChain : StopsWithin 1 takeChain := by
  refine .byte rfl fun b => ?_
  simp only [takeChain, takeByte_cons]
  cases hb : chainOfByte b with
  | error e => exact stopsWithin_error (chainOfByte_error hb ▸ by decide)
  | ok c => exact stopsWithin_ok c

theorem stopsWithin_takePointer : StopsWithin 1 takePointer :=
  stopsWithin_takeChain.andThen takesAtMost_takeChain
    (fun c => (stopsWithin_ok c).ite (stopsWithin_error (by decide))) takePointer_eq

theorem stopsWithin_takeFloatReg : StopsWithin 1 takeFloatReg := by
  refine .byte rfl fun b => ?_
  by_cases h : b.toNat < 16
  · simpa only [takeFloatReg, takeByte_cons, dif_pos h] using stopsWithin_ok _
  · simpa only [takeFloatReg, takeByte_cons, dif_neg h] using stopsWithin_error (by decide)

section payload

variable (t : TypeCode) {size : Width}

theorem stopsWithin_takeImm : StopsWithin t.size (takeImm t) :=
  (stopsWithin_takeWord t.size).map (takesAtMost_takeWord t.size_le) (takeImm_eq t)

theorem stopsWithin_takeMabs : StopsWithin 3 (takeMabs t) :=
  (stopsWithin_takeWord 3).map (takesAtMost_takeWord (by decide)) (takeMabs_eq t)

theorem stopsWithin_takeMabsOff (h : size.bytes ≤ 3) : StopsWithin 6 (takeMabsOff t size) :=
  (stopsWithin_takeWord 3).andThen (takesAtMost_takeWord (by decide))
    (fun _ => (stopsWithin_takeWord size.bytes).map (takesAtMost_takeWord size.bytes_le) fun _ => rfl)
    (takeMabsOff_eq t size)

theorem stopsWithin_takeMabsReg : StopsWithin 4 (takeMabsReg t) :=
  (stopsWithin_takeWord 3).andThen (takesAtMost_takeWord (by decide))
    (fun _ => stopsWithin_takePointer.map takesAtMost_takePointer fun _ => rfl) (takeMabsReg_eq t)

theorem stopsWithin_takeMptr : StopsWithin 1 (takeMptr t) :=
  stopsWithin_takePointer.map takesAtMost_takePointer (takeMptr_eq t)

theorem stopsWithin_takeMptrOff (h : size.bytes ≤ 3) : StopsWithin 4 (takeMptrOff t size) :=
  stopsWithin_takePointer.andThen takesAtMost_takePointer
    (fun _ => (stopsWithin_takeWord size.bytes).map (takesAtMost_takeWord size.bytes_le) fun _ => rfl)
    (takeMptrOff_eq t size)

theorem stopsWithin_takeMptrReg : StopsWithin 2 (takeMptrReg t) :=
  stopsWithin_takePointer.andThen takesAtMost_takePointer
    (fun _ => stopsWithin_takePointer.map takesAtMost_takePointer fun _ => rfl) (takeMptrReg_eq t)

end payload

/-- A payload is at most a 3-byte address and a 3-byte offset (30_encoding.md R117). -/
theorem stopsWithin_takeTyped (t : TypeCode) : ∀ k, StopsWithin 6 (takeTyped k t)
  | 0x3 => (stopsWithin_takeImm t).mono (t.size_le.trans (by decide))
  | 0x4 => (stopsWithin_takeMabs t).mono (by decide)
  | 0x5 => stopsWithin_takeMabsOff t (size := .w1) (by decide)
  | 0x6 => stopsWithin_takeMabsOff t (size := .w2) (by decide)
  | 0x7 => stopsWithin_takeMabsOff t (size := .w3) (by decide)
  | 0x8 => (stopsWithin_takeMabsReg t).mono (by decide)
  | 0x9 => (stopsWithin_takeMptr t).mono (by decide)
  | 0xA => (stopsWithin_takeMptrOff t (size := .w1) (by decide)).mono (by decide)
  | 0xB => (stopsWithin_takeMptrOff t (size := .w2) (by decide)).mono (by decide)
  | 0xC => (stopsWithin_takeMptrOff t (size := .w3) (by decide)).mono (by decide)
  | 0xD => (stopsWithin_takeMptrReg t).mono (by decide)
  | 0 | 1 | 2 | _ + 14 => stopsWithin_error (e := .badKind) (by decide)

theorem typeOfBits_error {sub : Nat} {e : DecodeError} (h : typeOfBits sub = .error e) : e = .badTypeCode := by
  unfold typeOfBits at h
  split at h <;> cases h
  rfl

theorem stopsWithin_takePayload (k sub : Nat) : StopsWithin 6 (takePayload k sub) := by
  unfold takePayload
  have hsub : StopsWithin 6 fun _ => (.error .badSubfield : Decoded Operand) := stopsWithin_error (by decide)
  refine .ite (stopsWithin_error (by decide)) (.ite (.ite ?reg hsub) (.ite (.ite ?freg hsub) ?typed))
  case reg =>
    exact (stopsWithin_takeChain.map takesAtMost_takeChain (g := .reg) fun bs => by
      cases takeChain bs <;> rfl).mono (by decide)
  case freg =>
    exact (stopsWithin_takeFloatReg.map takesAtMost_takeFloatReg (g := .freg) fun bs => by
      cases takeFloatReg bs <;> rfl).mono (by decide)
  case typed =>
    cases ht : typeOfBits sub with
    | error e => exact stopsWithin_error (typeOfBits_error ht ▸ by decide)
    | ok t => exact stopsWithin_takeTyped t k

theorem stopsWithin_takeOperand : StopsWithin 7 takeOperand :=
  .byte rfl fun d => stopsWithin_takePayload (d.toNat / 16) (d.toNat % 16)

/-! ### The stages of an instruction -/

theorem takesAtMost_takeSlot (c : SlotClass) : TakesAtMost 7 (takeSlot c) :=
  (takeSlot_reads c).takesAtMost fun o h =>
    (encodeOperand_length o).trans_le (Operand.length_le (Operand.wf_of_fits h))

/-- The class is checked after the descriptor's payload (30_encoding.md R124). -/
theorem stopsWithin_takeSlot (c : SlotClass) : StopsWithin 7 (takeSlot c) :=
  stopsWithin_takeOperand.andThen takesAtMost_takeOperand
    (fun o => (stopsWithin_ok o).ite (stopsWithin_error (by decide))) (takeSlot_eq · c)

theorem takesAtMost_takeSpec : TakesAtMost 2 takeSpec := takeSpec_reads.takesAtMost fun _ _ => Nat.le_refl 2

/-- What stands for a width specifier may be a whole descriptor, which is rejected after its payload (30_encoding.md
R121). -/
theorem stopsWithin_takeSpec : StopsWithin 7 takeSpec := by
  refine stopsWithin_takeOperand.andThen (k := 0) takesAtMost_takeOperand (fun o => ?_) takeSpec_eq
  cases specOfOperand o with
  | some w => exact stopsWithin_ok w
  | none => exact stopsWithin_error (by decide)

section formats

variable {c₁ c₂ : SlotClass}

theorem stopsWithin_takeF2 (mk : Operand → Operand → Instr) : StopsWithin 14 (takeF2 mk c₁ c₂) :=
  (stopsWithin_takeSlot c₁).andThen (takesAtMost_takeSlot c₁)
    (fun _ => (stopsWithin_takeSlot c₂).map (takesAtMost_takeSlot c₂) fun _ => rfl) (takeF2_eq · mk c₁ c₂)

theorem stopsWithin_takeF3R (mk : Operand → Operand → Operand → Instr) : StopsWithin 21 (takeF3R mk) :=
  (stopsWithin_takeSlot .iloc).andThen (takesAtMost_takeSlot .iloc) (fun a => stopsWithin_takeF2 (mk a))
    (takeF3R_eq · mk)

theorem stopsWithin_takeF3W (mk : Operand → Operand → Width → Instr) : StopsWithin 21 (takeF3W mk) :=
  (stopsWithin_takeSlot .bdest).andThen (takesAtMost_takeSlot .bdest)
    (fun _ => (stopsWithin_takeSlot .any).andThen (N := 14) (takesAtMost_takeSlot .any)
      (fun _ => stopsWithin_takeSpec.map takesAtMost_takeSpec fun _ => rfl) fun _ => rfl)
    (takeF3W_eq · mk)

/-- The bytes are counted as in `fetchLimit`: a width specifier that is not rejected is of 2 bytes. -/
theorem stopsWithin_takeF4WN (mk : Operand → Operand → Width → Operand → Instr) : StopsWithin 23 (takeF4WN mk) :=
  (stopsWithin_takeSlot .bdest).andThen (takesAtMost_takeSlot .bdest)
    (fun _ => (stopsWithin_takeSlot .any).andThen (N := 16) (takesAtMost_takeSlot .any)
      (fun _ => stopsWithin_takeSpec.andThen (N := 9) takesAtMost_takeSpec
        (fun _ => (stopsWithin_takeSlot .cnt).map (takesAtMost_takeSlot .cnt) fun _ => rfl) fun _ => rfl) fun _ => rfl)
    (takeF4WN_eq · mk)

end formats

theorem stopsWithin_takeOperands : ∀ op, StopsWithin 23 (takeOperands op)
  | 0x0C | 0x11 => (stopsWithin_takeF3W _).mono (by decide)
  | 0x0D | 0x12 => stopsWithin_takeF4WN _
  | 0x10 | 0x14 => (stopsWithin_takeF3R _).mono (by decide)
  | 0x16 => (stopsWithin_ok Instr.brk).mono (by decide)
  | 0 | _ + 23 => stopsWithin_error (e := .badOpcode) (by decide)
  | 0x01 | 0x02 | 0x03 | 0x04 | 0x05 | 0x06 | 0x07 | 0x08 | 0x09 | 0x0A | 0x0B | 0x0E | 0x0F | 0x13 | 0x15 =>
    (stopsWithin_takeF2 _).mono (by decide)

/-- No decoding looks at more than `fetchLimit` bytes (log 17). -/
theorem stopsWithin_decode : StopsWithin fetchLimit decode :=
  .byte rfl fun op => stopsWithin_takeOperands op.toNat

/-- Settles O4: the bytes that show the encoding to be illegal stay at the head. -/
theorem decodeFaultIgnoresLaterBytes : Obligations.DecodeFaultIgnoresLaterBytes := by
  intro bs more e h he
  obtain ⟨pre, rest, rfl, -, hpre⟩ := stopsWithin_decode.illegal h he
  rw [List.append_assoc]
  exact hpre (rest ++ more)

end Sys2Proof

namespace Sys2Proof.Machine

/-! ### Where fetching faults -/

/-- The first byte of a window is the one at its address, in memory. -/
theorem fetchFrom_head_of_ne_nil {s : State} {a : Word} {n : Nat} (h : fetchFrom s a n ≠ []) :
    a.toNat < s.memSize ∧ (fetchFrom s a n).headD 0 = s.mem.read a.toNat := by
  have hpos := List.length_pos_of_ne_nil h
  have hget := fetchFrom_getElem? s a n 0 hpos
  simp only [BitVec.add_zero] at hget
  exact ⟨hget.1, by rw [List.headD_eq_head?_getD, List.head?_eq_getElem?, hget.2]; rfl⟩

/-- Illegal bytes in the window are DECODE_ILLEGAL with the opcode byte at pc (60_exceptions.md R333). -/
theorem fetchDecode_of_illegal {s : State} {e : DecodeError} (h : decode (fetchFrom s s.pc fetchLimit) = .error e)
    (he : e ≠ .truncated) :
    s.pc.toNat < s.memSize ∧ fetchDecode s = .error (.decodeIllegal s.pc (s.mem.read s.pc.toNat)) := by
  have hne : fetchFrom s s.pc fetchLimit ≠ [] := by
    intro hnil
    rw [hnil] at h
    exact he (Except.error.inj h).symm
  obtain ⟨hin, hhead⟩ := fetchFrom_head_of_ne_nil hne
  rcases fetchDecode_cases s with ⟨i, rest, hd, -⟩ | ⟨hd, -⟩ | ⟨x, -, -, hf⟩
  · rw [h] at hd; cases hd
  · rw [h] at hd; exact absurd (Except.error.inj hd) he
  · exact ⟨hin, hhead ▸ hf⟩

/-- Bytes that lack one are the whole window where the byte after them lies outside memory. -/
theorem fetchFrom_eq_of_end {s : State} {a : Word} {n : Nat} {bs : List Byte} (hn : bs.length < n) (h : BytesAt s a bs)
    (hend : s.memSize ≤ (a + BitVec.ofNat 32 bs.length).toNat) : fetchFrom s a n = bs := by
  obtain ⟨rest, hw⟩ := (fetchFrom_eq_append_iff hn.le).2 h
  cases rest with
  | nil => rw [hw, List.append_nil]
  | cons b rest =>
    have hin := (fetchFrom_getElem? s a n bs.length (by simp [hw])).1
    omega

/-- A byte that decoding lacks is MEM_OUT_OF_RANGE at the window's end (60_exceptions.md R334, item 1). -/
theorem fetchDecode_of_truncated {s : State} (h : decode (fetchFrom s s.pc fetchLimit) = .error .truncated) :
    fetchDecode s = .error (.memOutOfRange s.pc (s.pc + BitVec.ofNat 32 (fetchFrom s s.pc fetchLimit).length) 1) := by
  rcases fetchDecode_cases s with ⟨i, rest, hd, -⟩ | ⟨-, hf⟩ | ⟨x, hx, hd, -⟩
  · rw [h] at hd; cases hd
  · exact hf
  · rw [h] at hd; exact absurd (Except.error.inj hd).symm hx

theorem fetchDecode_of_illegal_bytes {s : State} {bs : List Byte} {e : DecodeError} (hbytes : BytesAt s s.pc bs)
    (h : decode bs = .error e) (he : e ≠ .truncated) :
    fetchDecode s = .error (.decodeIllegal s.pc (s.mem.read s.pc.toNat)) := by
  obtain ⟨pre, rest, rfl, hlen, hpre⟩ := stopsWithin_decode.illegal h he
  have hhead : BytesAt s s.pc pre := fun k b hb => hbytes k b <| by
    rw [List.getElem?_append_left (List.getElem?_eq_some_iff.1 hb).1, hb]
  obtain ⟨more, hw⟩ := (fetchFrom_eq_append_iff hlen).2 hhead
  exact (fetchDecode_of_illegal (hw ▸ hpre more) he).2

theorem fetchDecode_of_missing_byte {s : State} {bs : List Byte} (hbytes : BytesAt s s.pc bs)
    (h : decode bs = .error .truncated) (hend : s.memSize ≤ (s.pc + BitVec.ofNat 32 bs.length).toNat) :
    fetchDecode s = .error (.memOutOfRange s.pc (s.pc + BitVec.ofNat 32 bs.length) 1) := by
  have hw := fetchFrom_eq_of_end (stopsWithin_decode.truncated h) hbytes hend
  have hf := fetchDecode_of_truncated (s := s) (hw.symm ▸ h)
  rwa [hw] at hf

/-- All the faults of fetching and decoding: an illegal encoding, or the first byte outside memory (60_exceptions.md
R343, item 1). -/
theorem fetchDecode_error_cases {s : State} {f : FaultRecord} (h : fetchDecode s = .error f) :
    (f = .decodeIllegal s.pc (s.mem.read s.pc.toNat) ∧ s.pc.toNat < s.memSize) ∨
      ∃ k : Nat, k < fetchLimit ∧ f = .memOutOfRange s.pc (s.pc + BitVec.ofNat 32 k) 1 ∧
        s.memSize ≤ (s.pc + BitVec.ofNat 32 k).toNat ∧ ∀ j < k, (s.pc + BitVec.ofNat 32 j).toNat < s.memSize := by
  rcases fetchDecode_cases s with ⟨i, rest, -, hf⟩ | ⟨hd, hf⟩ | ⟨e, he, hd, -⟩
  · rw [hf] at h; cases h
  · rw [hf] at h; cases h
    have hlen := stopsWithin_decode.truncated hd
    exact .inr ⟨_, hlen, rfl, fetchFrom_end s s.pc _ hlen, fun j hj => (fetchFrom_getElem? s s.pc _ j hj).1⟩
  · obtain ⟨hin, hf⟩ := fetchDecode_of_illegal hd he
    rw [hf] at h; cases h
    exact .inl ⟨rfl, hin⟩

/-- Settles O6: the first part by what the window holds, the second by `fetchDecode_error_cases`; a pc outside memory is
a missing byte after none. -/
theorem fetchFaultsAtFirstBadByte : Obligations.FetchFaultsAtFirstBadByte := by
  refine ⟨fun s bs hbytes => ⟨fun e h he => fetchDecode_of_illegal_bytes hbytes h he,
    fun h hend => fetchDecode_of_missing_byte hbytes h hend⟩,
    fun s f h => ⟨fetchDecode_error_cases h, fun hrun => step_of_fetchDecode_error hrun h⟩, fun s hpc => ?_⟩
  have hnone : BytesAt s s.pc [] := fun k b hb => by cases hb
  simpa using fetchDecode_of_missing_byte hnone rfl (by simpa using hpc)

end Sys2Proof.Machine
end

section
/-! PROOFS. The order of the resolution faults (60_exceptions.md R343, items 2 and 3): which operand's fault each format
takes. -/

namespace Sys2Proof.Machine

/-! ### The order in each format -/

/-- The faults of two resolutions are taken in the state before, the first one's first (60_exceptions.md R343, items 2
and 3). -/
def FaultsInOrder (s : State) (r₁ r₂ : Except FaultRecord Loc) (o : Host.Outcome State Fault Refusal) : Prop :=
  (∀ f, r₁ = .error f → o = .next (s.raiseFault f)) ∧
    ∀ l f, r₁ = .ok l → r₂ = .error f → o = .next (s.raiseFault f)

section operands

variable {s : State} {a b d x r : Operand} {la lb : Loc} {f : FaultRecord}

theorem resolve2_of_fst_error (ha : resolve s a = .error f) : resolve2 s a b = .error f := by
  simp only [resolve2, ha]

theorem resolve2_of_snd_error (ha : resolve s a = .ok la) (hb : resolve s b = .error f) :
    resolve2 s a b = .error f := by
  simp only [resolve2, ha, hb]

theorem divideRem_of_rem_error {signed : Bool} (hd : resolve s d = .ok la) (hx : resolve s x = .ok lb)
    (hr : resolve s r = .error f) : divideRem signed d x r s = .next (s.raiseFault f) := by
  simp only [divideRem, resolve3, resolve2_ok hd hx, hr]

end operands

section formats

variable (s : State) (d x r n : Operand) (w : Width) (body : Body)

theorem onOperands_faultsInOrder : FaultsInOrder s (resolve s d) (resolve s x) (onOperands body d x s) :=
  ⟨fun f hd => by simp only [onOperands, resolve2_of_fst_error hd],
    fun ld f hd hx => by simp only [onOperands, resolve2_of_snd_error hd hx]⟩

theorem divideRem_faultsInOrder (signed : Bool) :
    FaultsInOrder s (resolve s d) (resolve s x) (divideRem signed d x r s) :=
  ⟨fun f hd => by simp only [divideRem, resolve3, resolve2_of_fst_error hd],
    fun ld f hd hx => by simp only [divideRem, resolve3, resolve2_of_snd_error hd hx]⟩

theorem block_faultsInOrder : FaultsInOrder s (resolveBlock s w d) (resolve s x) (block body d x w s) :=
  ⟨fun _ hd => block_of_dst_error hd, fun _ _ hd hx => block_of_src_error hd hx⟩

/-- The source comes before the count, whatever the count is (log 21). -/
theorem blockRepeat_faultsInOrder :
    FaultsInOrder s (resolveBlock s w d) (resolve s x) (blockRepeat body d x w n s) :=
  ⟨fun f hd => by simp only [blockRepeat, hd],
    fun dst f hd hx => by simp only [blockRepeat, hd, resolve2_of_fst_error hx]⟩

end formats

/-- A block destination is bounded by its w bytes, whatever width it was written with (60_exceptions.md R334, item 2;
40_engine.md R169). -/
theorem resolveBlock_of_outside {s : State} {d : Operand} {ea : Word} {t : TypeCode} {w : Width}
    (ha : effectiveAddress s d = some (ea, t)) (hout : s.memSize < ea.toNat + w.bytes) :
    resolveBlock s w d = .error (.memOutOfRange s.pc ea w.bytes) := by
  have hmem : d.isMem = true := by
    cases d with
    | reg _ | freg _ | imm _ _ => cases ha
    | _ => rfl
  obtain ⟨ea', t', ha', -, -, hr⟩ := resolve_of_isMem s hmem
  cases ha.symm.trans ha'
  rcases resolveMem_cases s ea w.intType with ⟨hin, -⟩ | ⟨-, e⟩
  · rw [Width.intType_size] at hin; omega
  · rw [hr, e, Width.intType_size]

/-! ### The format of each instruction with operands -/

theorem exec_eq_onOperands :
    ∀ mk ∈ [Instr.ld, .cp, .scp, .and, .or, .xor, .nand, .nor, .xnor, .bit, .sl, .sr, .div, .sdiv, .rgb2hsb],
      ∃ body, ∀ d x s, exec (mk d x) s = onOperands body d x s := by
  simp only [List.forall_mem_cons]
  exact ⟨⟨_, exec_ld⟩, ⟨_, exec_cp⟩, ⟨_, exec_scp⟩, ⟨_, exec_and⟩, ⟨_, exec_or⟩, ⟨_, exec_xor⟩, ⟨_, exec_nand⟩,
    ⟨_, exec_nor⟩, ⟨_, exec_xnor⟩, ⟨_, exec_bit⟩, ⟨_, exec_sl⟩, ⟨_, exec_sr⟩, ⟨_, exec_div⟩, ⟨_, exec_sdiv⟩,
    ⟨_, exec_rgb2hsb⟩, fun _ h => nomatch h⟩

theorem exec_eq_divideRem :
    ∀ mk ∈ [Instr.divR, .sdivR], ∃ signed, ∀ d x s r, exec (mk d x r) s = divideRem signed d x r s := by
  simp only [List.forall_mem_cons]
  exact ⟨⟨_, exec_divR⟩, ⟨_, exec_sdivR⟩, fun _ h => nomatch h⟩

theorem exec_block_faultsInOrder (w : Width) (n : Operand) :
    ∀ mk ∈ [fun d x => Instr.slW d x w, fun d x => .divW d x w, fun d x => .slWN d x w n, fun d x => .divWN d x w n],
      ∀ s d x, FaultsInOrder s (resolveBlock s w d) (resolve s x) (exec (mk d x) s) := by
  simp only [List.forall_mem_cons]
  exact ⟨fun s d x => block_faultsInOrder s d x w shiftBody, fun s d x => block_faultsInOrder s d x w (divStep false),
    fun s d x => blockRepeat_faultsInOrder s d x n w shiftBody,
    fun s d x => blockRepeat_faultsInOrder s d x n w (divStep false), fun _ h => nomatch h⟩

/-- Settles O18: each instruction is of a format, and each format's resolution faults come in slot order. -/
theorem resolutionFaultsInSlotOrder : Obligations.ResolutionFaultsInSlotOrder := by
  refine ⟨fun mk hmk s d x => ?_, fun mk hmk s d x r => ?_, fun w n _ mk hmk s d x => ?_⟩
  · obtain ⟨body, hexec⟩ := exec_eq_onOperands mk hmk
    rw [hexec]
    exact onOperands_faultsInOrder s d x body
  · obtain ⟨signed, hexec⟩ := exec_eq_divideRem mk hmk
    rw [hexec]
    obtain ⟨hfst, hsnd⟩ := divideRem_faultsInOrder s d x r signed
    exact ⟨hfst, hsnd, fun ld lx f hd hx hr => divideRem_of_rem_error hd hx hr⟩
  · obtain ⟨hdst, hsrc⟩ := exec_block_faultsInOrder w n mk hmk s d x
    exact ⟨fun ea t ha hout => hdst _ (resolveBlock_of_outside ha hout), hsrc⟩

end Sys2Proof.Machine
end

section
/-! PROOFS. Launch and run (70_reset_and_hazards.md): what a launched memory holds, the invariant at the launch, and
`run()`'s loop as a sequence of steps. -/

namespace Sys2Proof.Machine

/-! ### The launched memory -/

/-- The memory of the launch state: the program over what the host provides, the bytes the host sets over both
(70_reset_and_hazards.md R364; `launch_of_fits`). -/
def LaunchParams.launchMem (p : LaunchParams) : Memory :=
  (p.memInit.writeBytes p.loadBase.toNat p.program).setBytes p.setBytes

section launchMem

variable {p : LaunchParams}

theorem LaunchParams.launchMem_wf (h : p.memInit.wf = true) : p.launchMem.wf = true :=
  Memory.setBytes_wf (Memory.writeBytes_wf h _ _) _

theorem LaunchParams.launchMem_within (h : p.memInit.within p.memSize = true)
    (hprog : p.loadBase.toNat + p.program.length ≤ p.memSize) (hset : ∀ c ∈ p.setBytes, c.1 < p.memSize) :
    p.launchMem.within p.memSize = true :=
  Memory.setBytes_within (Memory.writeBytes_within h _ hprog) hset

/-- The last byte the host sets at an address stays there, also inside the program. -/
theorem LaunchParams.read_launchMem_of_last (h : p.memInit.wf = true) {pre post : List Host.Cell} {a : Nat} {b : Byte}
    (hset : p.setBytes = pre ++ (a, b) :: post) (hlast : ∀ c ∈ post, c.1 ≠ a) : p.launchMem.read a = b := by
  rw [LaunchParams.launchMem, hset]
  exact Memory.read_setBytes_of_last (Memory.writeBytes_wf h _ _) pre post a b hlast

/-- Where the host sets no byte, memory holds what the load leaves. -/
theorem LaunchParams.read_launchMem_of_notMem (h : p.memInit.wf = true) {a : Nat} (ha : ∀ c ∈ p.setBytes, c.1 ≠ a) :
    p.launchMem.read a = (p.memInit.writeBytes p.loadBase.toNat p.program).read a :=
  Memory.read_setBytes_of_notMem (Memory.writeBytes_wf h _ _) ha

end launchMem

/-- Each byte of a written sequence lies at its place. -/
theorem Memory.read_writeBytes_of_getElem? {m : Memory} (h : m.wf = true) {a k : Nat} {bs : List Byte} {b : Byte}
    (hb : bs[k]? = some b) : (m.writeBytes a bs).read (a + k) = b := by
  rw [Memory.read_writeBytes h, if_pos (Nat.le_add_right a k), Nat.add_sub_cancel_left, hb, Option.getD_some]

theorem Memory.read_writeBytes_of_outside {m : Memory} (h : m.wf = true) {a a' : Nat} {bs : List Byte}
    (hout : a' < a ∨ a + bs.length ≤ a') : (m.writeBytes a bs).read a' = m.read a' := by
  rw [Memory.read_writeBytes h]
  rcases hout with hbelow | habove
  · rw [if_neg (Nat.not_le_of_lt hbelow)]
  · rw [List.getElem?_eq_none (by omega), Option.getD_none, ite_self]

/-! ### The launch -/

/-- What the host prepares lies in memory: the program and every byte it sets. -/
def LaunchParams.Fits (p : LaunchParams) : Prop :=
  p.loadBase.toNat + p.program.length ≤ p.memSize ∧ ∀ c ∈ p.setBytes, c.1 < p.memSize

theorem LaunchParams.not_fits_iff {p : LaunchParams} :
    ¬p.Fits ↔ p.memSize < p.loadBase.toNat + p.program.length ∨ ∃ c ∈ p.setBytes, p.memSize ≤ c.1 := by
  simp only [LaunchParams.Fits, not_and_or, not_le, not_forall, not_lt, exists_prop]

theorem launch_of_fits {p : LaunchParams} (h : p.Fits) :
    launch p = some { p.prepared with pc := p.loadBase, status := .running, mem := p.launchMem } := by
  rcases launch_cases p with ⟨-, -, e⟩ | ⟨hout, -⟩
  · exact e
  · exact absurd h (LaunchParams.not_fits_iff.2 hout)

theorem launch_of_not_fits {p : LaunchParams} (h : ¬p.Fits) : launch p = none := by
  rcases launch_cases p with ⟨hprog, hset, -⟩ | ⟨-, e⟩
  · exact absurd ⟨hprog, hset⟩ h
  · exact e

/-- Settles O15: the launch state is written out by `launch_of_fits`, and its memory read piece by piece. -/
theorem launchSetsEveryPieceOfState : Obligations.LaunchSetsEveryPieceOfState := by
  intro p hwf
  refine ⟨fun hout => launch_of_not_fits (LaunchParams.not_fits_iff.2 hout), fun hprog hset => ?_⟩
  refine ⟨_, launch_of_fits ⟨hprog, hset⟩, rfl, rfl, rfl, rfl, rfl, rfl, LaunchParams.launchMem_wf hwf,
    fun pre post a b => LaunchParams.read_launchMem_of_last hwf, fun a ha => ?_⟩
  have hload := LaunchParams.read_launchMem_of_notMem hwf ha
  refine ⟨fun k b hb hk => ?_, fun hout => hload.trans (Memory.read_writeBytes_of_outside hwf hout)⟩
  subst hk
  exact hload.trans (Memory.read_writeBytes_of_getElem? hwf hb)

/-- Settles O47: the load and the bytes set keep memory canonical and inside `MEM_SIZE`; no flag is set and no fault
recorded. -/
theorem launchMeetsInvariant : Obligations.LaunchMeetsInvariant := by
  intro p s hwf hwithin hpos hmax hlaunch
  by_cases h : p.Fits
  · obtain rfl := Option.some.inj ((launch_of_fits h).symm.trans hlaunch)
    obtain ⟨hprog, hset⟩ := h
    exact {
      memCanonical := LaunchParams.launchMem_wf hwf
      memWithin := LaunchParams.launchMem_within hwithin hprog hset
      sizeRange := ⟨hpos, hmax⟩
      flagsConsistent := rfl
      faultAtPc := fun _ hf => nomatch hf }
  · rw [launch_of_not_fits h] at hlaunch
    cases hlaunch

/-- A run starts afresh: starting it twice is starting it once. -/
theorem run_startRun (n : Nat) (s : State) (base : Word) : run n (startRun s base) base = run n s base := rfl

/-- Settles O50: boot and launch prepare the same state, and a launch has only started the run. -/
theorem bootRunsTheLaunchState : Obligations.BootRunsTheLaunchState := by
  intro n p
  unfold launch boot bootWith
  cases hostPrepare p with
  | none => exact ⟨fun _ => rfl, nofun⟩
  | some u =>
    refine ⟨nofun, fun s h => ?_⟩
    obtain rfl := Option.some.inj h
    exact (run_startRun n u p.loadBase).symm

/-! ### A run as a sequence of steps -/

/-- `f` lists `k` steps in sequence from `s` to `t`, each taken from a Running state. -/
def StepsTo (k : Nat) (s t : State) : Prop :=
  ∃ f : Nat → State, f 0 = s ∧ (∀ j < k, (f j).status = .running ∧ step (f j) = .next (f (j + 1))) ∧ f k = t

theorem stepsTo_zero_iff {s t : State} : StepsTo 0 s t ↔ s = t := by
  constructor
  · rintro ⟨f, h0, -, hk⟩
    exact h0.symm.trans hk
  · rintro rfl
    exact ⟨fun _ => s, rfl, fun _ hj => absurd hj (Nat.not_lt_zero _), rfl⟩

/-- The states of a sequence of steps, with one more before them. -/
def prependState (s : State) (f : Nat → State) : Nat → State
  | 0 => s
  | j + 1 => f j

theorem stepsTo_succ_iff {k : Nat} {s t : State} :
    StepsTo (k + 1) s t ↔ ∃ u, s.status = .running ∧ step s = .next u ∧ StepsTo k u t := by
  constructor
  · rintro ⟨f, rfl, hsteps, hk⟩
    obtain ⟨hrun, hstep⟩ := hsteps 0 (Nat.succ_pos k)
    exact ⟨f 1, hrun, hstep, fun j => f (j + 1), rfl, fun j hj => hsteps (j + 1) (Nat.succ_lt_succ hj), hk⟩
  · rintro ⟨u, hrun, hstep, f, rfl, hsteps, hk⟩
    refine ⟨prependState s f, rfl, fun j hj => ?_, hk⟩
    cases j with
    | zero => exact ⟨hrun, hstep⟩
    | succ j => exact hsteps j (Nat.lt_of_succ_lt_succ hj)

/-- From a state that has ended the only sequence of steps is the empty one. -/
theorem StepsTo.eq_of_ended {k : Nat} {s t : State} (hs : s.status ≠ .running) (h : StepsTo k s t) : s = t := by
  cases k with
  | zero => exact stepsTo_zero_iff.1 h
  | succ k =>
    obtain ⟨u, hrun, -⟩ := stepsTo_succ_iff.1 h
    exact absurd hrun hs

/-- The loop ends in `t` exactly where some sequence of at most `n` steps does. -/
theorem stepsWith_eq_iff_stepsTo {n : Nat} {s t : State} (ht : t.status ≠ .running) :
    stepsWith referenceEncoding n s = t ↔ ∃ k ≤ n, StepsTo k s t := by
  induction n generalizing s with
  | zero => simp only [stepsWith_zero, Nat.le_zero, exists_eq_left, stepsTo_zero_iff]
  | succ n ih =>
    by_cases hrun : s.status = .running
    · obtain ⟨u, hu⟩ := runningStateSteps s hrun
      rw [stepsWith_succ hrun hu, ih]
      constructor
      · rintro ⟨k, hk, h⟩
        exact ⟨k + 1, Nat.succ_le_succ hk, stepsTo_succ_iff.2 ⟨u, hrun, hu, h⟩⟩
      · rintro ⟨_ | k, hk, h⟩
        · exact absurd (stepsTo_zero_iff.1 h ▸ hrun) ht
        · obtain ⟨v, -, hv, h⟩ := stepsTo_succ_iff.1 h
          obtain rfl := Host.Outcome.next.inj (hu.symm.trans hv)
          exact ⟨k, Nat.le_of_succ_le_succ hk, h⟩
    · rw [stepsWith_of_ended hrun]
      exact ⟨fun h => ⟨0, Nat.zero_le _, stepsTo_zero_iff.2 h⟩, fun ⟨_, _, h⟩ => h.eq_of_ended hrun⟩

/-- Settles O48: a result of the run is the end of the loop from the run's start. -/
theorem runStepsUntilNotRunning : Obligations.RunStepsUntilNotRunning := by
  intro n s t base
  rw [run, runWith_eq_some]
  constructor
  · rintro ⟨hloop, ht⟩
    obtain ⟨k, hk, f, h0, hsteps, hlast⟩ := (stepsWith_eq_iff_stepsTo ht).1 hloop
    exact ⟨k, hk, f, h0, hsteps, hlast, ht⟩
  · rintro ⟨k, hk, f, h0, hsteps, hlast, ht⟩
    exact ⟨(stepsWith_eq_iff_stepsTo ht).2 ⟨k, hk, f, h0, hsteps, hlast⟩, ht⟩

end Sys2Proof.Machine
end
